-- ==== Sys2Proof/Word.lean ====
section
/-! DEFINITION. The widths the spec names (00_scope R8, R9; 20_memory R81). -/

namespace Sys2Proof

/-- A byte: a `BUF` entry, the CRC register, a command byte (20_memory R81). -/
abbrev Byte := BitVec 8

/-- A queue entry, `WORD = 32` bits (00_scope R8): a command word of `TXQ` or a read result of `RXQ`. -/
abbrev QWord := BitVec 32

/-- A 64-bit value: a device address, a `RES` entry, the data of a response (20_memory R81). -/
abbrev Word64 := BitVec 64

end Sys2Proof
end

