-- ==== Sys2Proof/Config.lean ====
section
/-! DEFINITION. What is fixed for the life of a model (00_scope R8 to R13, 10_state R21) and the free values. -/

namespace Sys2Proof

/-- The open parameters of 00_scope R10, R11 and R12. They are configuration, constant for the life of a model (10_state R21);
a state carries them so that every claim holds for every value of them (log 1). -/
structure Params where
  /-- `RES_DEPTH`, at least 1 (R12). -/
  resDepth : Nat
  /-- `CMD_SEARCH` (R11). -/
  cmdSearch : Byte
  /-- `CMD_MATCH` (R11). -/
  cmdMatch : Byte
  /-- `CMD_SKIP` (R11). -/
  cmdSkip : Byte
  /-- `T_RSTL` (R10): line held low for a bus reset. -/
  tRstl : Nat
  /-- `T_PRES_POLL` (R10): wait before each presence sample. -/
  tPresPoll : Nat
  /-- `T_RSTH` (R10): total wait after release in a bus reset. -/
  tRsth : Nat
  /-- `T_W1L` (R10): low time of a write-1 slot. -/
  tW1l : Nat
  /-- `T_W0L` (R10): low time of a write-0 slot. -/
  tW0l : Nat
  /-- `T_SLOT` (R10): total time of a write slot. -/
  tSlot : Nat
  /-- `T_RDL` (R10): low time that opens a read slot. -/
  tRdl : Nat
  /-- `T_RDS` (R10): wait from release to the sample of a read slot. -/
  tRds : Nat
  /-- `T_RDR` (R10): wait after the sample of a read slot. -/
  tRdr : Nat
  deriving DecidableEq, Repr

namespace Config

/-- The defaults a model should take: the command bytes of R11 and the nominal durations of R10. `RES_DEPTH` has no default in
the spec; 4 is a DESIGN CHOICE (log 1), the depth the programs of 95_test_vectors section 8 use. -/
def defaults : Params where
  resDepth := 4
  cmdSearch := 0xF0#8
  cmdMatch := 0x55#8
  cmdSkip := 0xCC#8
  tRstl := 500
  tPresPoll := 30
  tRsth := 500
  tW1l := 5
  tW0l := 60
  tSlot := 65
  tRdl := 4
  tRds := 8
  tRdr := 53

/-- `TXQ_DEPTH` (R8). -/
def txqDepth : Nat := 4

/-- `RXQ_DEPTH` (R8). -/
def rxqDepth : Nat := 4

/-- `MAX_READ_BITS` (R9). -/
def maxReadBits : Nat := 32

/-- `MAX_XFER_BYTES` (R9), the size of `BUF` (R34). -/
def maxXferBytes : Nat := 16

/-- `MAX_WRITE_BITS` (R9). -/
def maxWriteBits : Nat := 16

/-- `ADDR_BITS` (R9). -/
def addrBits : Nat := 64

/-- `N_PRES_POLL` (R10), "up to 8 polls" (log 13). -/
def nPresPoll : Nat := 8

/-- `CRC_POLY` (R13). -/
def crcPoly : Byte := 0x18#8

/-- `CRC_INIT` (R13). -/
def crcInit : Byte := 0x00#8

/-- `NONE`, the value of `last_branch_taken` when no branch is left (10_state R27). -/
def noBranch : BitVec 7 := 64#7

end Config

/-- A line event (20_memory R79), with the level for a sample: `true` is high (R78). -/
inductive LineEvent where
  | low
  | release
  | delay (t : Nat)
  | sample (level : Bool)
  deriving DecidableEq, Repr

/-- Who takes a step (00_scope R16); the platform signals block reset (70 R290). -/
inductive Agent where
  | host
  | engine
  | platform
  deriving DecidableEq, Repr, Inhabited

namespace Config

/-- FREE VALUE (log 3): the level of the line at a sample, seen by an oracle that knows every line event so far, newest first
(20_memory R78: "a free input, one bit, under no law"). -/
opaque lineOracle : List LineEvent → Bool

/-- FREE VALUE (log 2): which agent moves at the k-th choice (00_scope R16: "Any interleaving of host steps and engine steps is
allowed"). -/
opaque scheduler : Nat → Agent

/-- FREE VALUE (log 4): `BUF[i]` after the block reset number `epoch` (70 R291, unspecified). -/
opaque unspecBuf : (epoch i : Nat) → Byte

/-- FREE VALUE (log 4): `RES[i]` after the block reset number `epoch` (70 R291, unspecified). -/
opaque unspecRes : (epoch i : Nat) → Word64

end Config

end Sys2Proof
end

