-- ==== Sys2Proof/Syntax.lean ====
section
/-! DEFINITION. The instructions: one constructor per row of spec/opcode_table.json (30_encoding R94, R98). -/

namespace Sys2Proof

/-- The 19 host operations of format HR, with their operands (30_encoding R92) and, where the operation reads it (R94), the
blocking flag `B`; and the 4 command words of format TC (R97). Counts and capacities are naturals: the whole 64-bit argument
(R91). -/
inductive Instr where
  /-- `CRC_COMPUTE len` (40_crc8 R125). -/
  | crcCompute (len : Nat)
  /-- `CRC_CHECK len` (40_crc8 R126). -/
  | crcCheck (len : Nat)
  /-- `BT_RESET` (41_bit_timing R142). -/
  | btReset
  /-- `BT_WRITE_BIT bit` (41_bit_timing R144). -/
  | btWriteBit (bit : Bool)
  /-- `BT_WRITE_BYTE byte` (41_bit_timing R145). -/
  | btWriteByte (byte : Byte)
  /-- `BT_READ_BIT` (41_bit_timing R147). -/
  | btReadBit
  /-- `DISCOVER max_devices` (42_search_engine R160). -/
  | discover (maxDevices : Nat)
  /-- `ARM` (44_link_layer R221). -/
  | arm
  /-- `LL_RESET` (44_link_layer R225). -/
  | llReset (blocking : Bool)
  /-- `LL_WAIT_IDLE` (44_link_layer R226). -/
  | llWaitIdle (blocking : Bool)
  /-- `LL_WRITE_BYTE value` (44_link_layer R227). -/
  | llWriteByte (blocking : Bool) (value : Byte)
  /-- `LL_WRITE_WORD value` (44_link_layer R228). -/
  | llWriteWord (blocking : Bool) (value : BitVec 16)
  /-- `LL_READ_BITS count` (44_link_layer R230). -/
  | llReadBits (blocking : Bool) (count : Nat)
  /-- `LL_PULL count` (44_link_layer R232). -/
  | llPull (blocking : Bool) (count : Nat)
  /-- `LL_READ_BYTES count` (44_link_layer R236). -/
  | llReadBytes (blocking : Bool) (count : Nat)
  /-- `LL_MATCH_ROM address` (44_link_layer R238). -/
  | llMatchRom (blocking : Bool) (address : Word64)
  /-- `LL_SKIP_ROM` (44_link_layer R239). -/
  | llSkipRom (blocking : Bool)
  /-- `LL_READ_BYTE` (44_link_layer R240). -/
  | llReadByte (blocking : Bool)
  /-- `LL_READ_WORD` (44_link_layer R241). -/
  | llReadWord (blocking : Bool)
  /-- Command word `RESET` (43_transfer_engine R194). -/
  | reset
  /-- Command word `WAITIDLE` (43_transfer_engine R195). -/
  | waitIdle
  /-- Command word `WRBITS n, value` (43_transfer_engine R196). -/
  | wrBits (n : Nat) (value : BitVec 16)
  /-- Command word `RDBITS n` (43_transfer_engine R198). -/
  | rdBits (n : Nat)
  deriving DecidableEq, Repr

/-- What an instruction is encoded as (30_encoding R90): a host request, an 8-bit code and a 64-bit argument, or one 32-bit
command word. -/
inductive Encoded where
  | request (code : BitVec 8) (arg : Word64)
  | command (word : QWord)
  deriving DecidableEq, Repr

end Sys2Proof
end

