-- ==== Sys2Proof/Machine/State.lean ====
section
/-! DEFINITION. The state of the block as plain data (10_state R20, one field per row), the operation in progress and the inputs
(10_state R21), the reasons a step can stop, and the state after block reset (70_reset_and_hazards R291). -/

namespace Sys2Proof.Machine

/-- `lifecycle`, one bit: `UNARMED = 0`, `ARMED = 1` (10_state R22). -/
inductive Lifecycle where
  | unarmed
  | armed
  deriving DecidableEq, Repr

/-- `se_state`, the phase of the search (10_state R28, 42_search_engine R174). -/
inductive SeState where
  | idle
  | busReset
  | cmd
  | readTrue
  | readComp
  | resolve
  | append
  | advance
  deriving DecidableEq, Repr

/-- `eng_state`, the phase of the engine (10_state R32): `ENG_OFF`, `ENG_FETCH`, `ENG_EXEC`, `ENG_PUSH`, `ENG_FAULT`. -/
inductive EngState where
  | off
  | fetch
  | exec
  | push
  | fault
  deriving DecidableEq, Repr

/-- The statuses of a response (60_exceptions R260). -/
inductive Status where
  | ok
  | queueFull
  | queueEmpty
  | illegalSize
  | checksumError
  | protocolViolation
  | discoveryOverflow
  | wrongState
  | illegalOp
  deriving DecidableEq, Repr

/-- What a host operation does with a word it pops (44_link_layer R232, R235, R240, R241). -/
inductive PopUse where
  /-- The response carries `extract(w, count)` (R231). -/
  | answer (count : Nat)
  /-- The `n` bytes of the word go to `BUF[base .. base+n-1]` (R235). -/
  | store (base n : Nat)
  deriving DecidableEq, Repr

/-- One queue access of a host operation (44_link_layer): the point at which the engine may move in between. -/
inductive Access where
  /-- Non-blocking `LL_READ_BYTES`, phase 1 (R236): `QueueFull` unless `TXQ` has `m` free slots. -/
  | room (m : Nat)
  /-- `TxPush(w, B)` (20_memory R62); `sent` is what `rsp_data` records with a `QueueFull` (R238, R261). -/
  | push (w : QWord) (sent : Nat)
  /-- Non-blocking `LL_READ_BYTES`, phase 2 (R236): `QueueEmpty`, with `rsp_data = m`, unless `RXQ` has `m` words. -/
  | ready (m : Nat)
  /-- `RxPop(B)` (20_memory R65); `owed` is what `rsp_data` records with a `QueueEmpty` (R240, R262). -/
  | pop (use : PopUse) (owed : Nat)
  deriving DecidableEq, Repr

/-- How a host operation ends once its queue accesses are made. -/
inductive Finish where
  /-- Respond `OK` with these data. -/
  | reply (data : Word64)
  /-- `LL_READ_BYTES`, phase 3 (44_link_layer R236): the CRC over `BUF[0 .. count-1]`. -/
  | check (count : Nat)
  deriving DecidableEq, Repr

/-- The host operation in progress: none, or one with blocking flag `b` whose queue accesses `todo` are still to be made
(20_memory R62, R65 `hold`; 70 R311 "no host operation is in progress"; log 6). -/
inductive HostOp where
  | idle
  | running (b : Bool) (todo : List Access) (fin : Finish)
  deriving DecidableEq, Repr

/-- What the host and the platform do to the block from outside (10_state R21; log 5, log 9). -/
inductive Input where
  /-- A host request (30_encoding R91). -/
  | request (code : BitVec 8) (arg : Word64)
  /-- The host writes `BUF[i]`, between operations (20_memory R70). -/
  | bufWrite (i : Fin 16) (v : Byte)
  /-- Block reset, signalled by the platform (70 R290). -/
  | blockReset
  deriving DecidableEq, Repr

/-- The state. The fields from `lifecycle` to `rspData` are the rows of 10_state R20; the others are the model's own. -/
structure State where
  /-- The open parameters: constant, written by no step (10_state R21; log 1). -/
  cfg : Params
  /-- `lifecycle` (R22). -/
  lifecycle : Lifecycle
  /-- `line_oe` (R23): true when the block drives the line low. -/
  lineOe : Bool
  /-- `crc` (R24). -/
  crc : BitVec 8
  /-- `current` (R26). -/
  current : BitVec 64
  /-- `discrepancy` (R26). -/
  discrepancy : BitVec 64
  /-- `last_branch_taken` (R27). -/
  lastBranchTaken : BitVec 7
  /-- `bit_idx` (R28). -/
  bitIdx : BitVec 7
  /-- `se_state` (R28). -/
  seState : SeState
  /-- `count` (R29). -/
  count : Nat
  /-- `max_dev` (R29). -/
  maxDev : Nat
  /-- `RES[0 .. RES_DEPTH-1]` (R29). -/
  res : List Word64
  /-- `TXQ`, head first (R31). -/
  txq : List QWord
  /-- `RXQ`, head first (R31). -/
  rxq : List QWord
  /-- `eng_state` (R32). -/
  engState : EngState
  /-- `eng_cmd` (R32). -/
  engCmd : QWord
  /-- `eng_bitcnt` (R32). -/
  engBitcnt : BitVec 6
  /-- `eng_osr` (R32). -/
  engOsr : BitVec 16
  /-- `eng_isr` (R32). -/
  engIsr : QWord
  /-- `eng_fault` (R33). -/
  engFault : Bool
  /-- `BUF[0 .. 15]` (R34). -/
  buf : Vector Byte 16
  /-- `rsp_status` (R34). -/
  rspStatus : BitVec 4
  /-- `rsp_data` (R34). -/
  rspData : Word64
  /-- The host operation in progress (log 6). -/
  hostOp : HostOp
  /-- What the host and the platform do next (log 5). -/
  inputs : List Input
  /-- The levels the next samples read; when none is left, the oracle answers (log 3). -/
  samples : List Bool
  /-- The agents that the next choices pick; when none is left, the scheduler picks (log 2). -/
  turns : List Agent
  /-- How many choices the scheduler has made (log 2). -/
  turnDraws : Nat
  /-- How many block resets there have been (log 4). -/
  epoch : Nat
  /-- The line events so far, newest first (20_memory R79; log 19). -/
  lineLog : List LineEvent
  deriving DecidableEq, Repr

/-- The faults of a step. -/
inductive Fault where
  /-- Raised by `step` when a host operation is in progress and no agent has a step: the hold that nothing can lift of 60_exceptions
  R272 (b) and the deadlock of 70 R304. Safe: the block has no step there either, and no response is ever written (log 7). -/
  | hostHeldForever
  deriving DecidableEq, Repr

/-- The refusals of a step. -/
inductive Refusal where
  /-- Answered by an arm of `exec` whose instruction has no meaning yet. Safe: nothing can be proved of it. No arm does. -/
  | notModelled (mnemonic : String)
  deriving DecidableEq, Repr

/-- What a meaning answers. -/
abbrev Result := Host.Outcome State Fault Refusal

/-- The 16 bytes of `BUF` after the block reset number `epoch`: unspecified (70 R291; log 4). -/
def unspecifiedBuf (epoch : Nat) : Vector Byte 16 :=
  #v[Config.unspecBuf epoch 0, Config.unspecBuf epoch 1, Config.unspecBuf epoch 2, Config.unspecBuf epoch 3,
     Config.unspecBuf epoch 4, Config.unspecBuf epoch 5, Config.unspecBuf epoch 6, Config.unspecBuf epoch 7,
     Config.unspecBuf epoch 8, Config.unspecBuf epoch 9, Config.unspecBuf epoch 10, Config.unspecBuf epoch 11,
     Config.unspecBuf epoch 12, Config.unspecBuf epoch 13, Config.unspecBuf epoch 14, Config.unspecBuf epoch 15]

/-- The `depth` entries of `RES` after the block reset number `epoch`: unspecified (70 R291; log 4). -/
def unspecifiedRes (epoch depth : Nat) : List Word64 := (List.range depth).map (Config.unspecRes epoch)

/-- The state after block reset (70 R291), with no input waiting (log 5). -/
def State.reset : State where
  cfg := Config.defaults
  lifecycle := .unarmed
  lineOe := false
  crc := 0x00#8
  current := 0#64
  discrepancy := 0#64
  lastBranchTaken := Config.noBranch
  bitIdx := 0#7
  seState := .idle
  count := 0
  maxDev := 0
  res := unspecifiedRes 0 Config.defaults.resDepth
  txq := []
  rxq := []
  engState := .off
  engCmd := 0#32
  engBitcnt := 0#6
  engOsr := 0#16
  engIsr := 0#32
  engFault := false
  buf := unspecifiedBuf 0
  rspStatus := 0#4
  rspData := 0#64
  hostOp := .idle
  inputs := []
  samples := []
  turns := []
  turnDraws := 0
  epoch := 0
  lineLog := []

end Sys2Proof.Machine
end

