-- ==== Sys2Proof/Machine/Flags.lean ====
section
/-! DEFINITION. The values that play the part of flags (10_state R36), the status codes (60_exceptions R260) and the status view
(10_state R35). They are functions of the state and store nothing. -/

namespace Sys2Proof.Machine

/-- The code of a status in `rsp_status` (60_exceptions R260). -/
def Status.code : Status → BitVec 4
  | .ok => 0#4
  | .queueFull => 1#4
  | .queueEmpty => 2#4
  | .illegalSize => 3#4
  | .checksumError => 4#4
  | .protocolViolation => 5#4
  | .discoveryOverflow => 6#4
  | .wrongState => 7#4
  | .illegalOp => 8#4

/-- `tx_level` (10_state R31). -/
def State.txLevel (s : State) : Nat := s.txq.length

/-- `rx_level` (10_state R31). -/
def State.rxLevel (s : State) : Nat := s.rxq.length

/-- `tx_full`: no free slot (10_state R36; the queue never holds more than 4 words, R31). -/
def State.txFull (s : State) : Bool := Config.txqDepth ≤ s.txLevel

/-- `tx_empty` (10_state R36). -/
def State.txEmpty (s : State) : Bool := s.txLevel = 0

/-- `rx_full`: no free slot (10_state R36). -/
def State.rxFull (s : State) : Bool := Config.rxqDepth ≤ s.rxLevel

/-- `rx_empty` (10_state R36). -/
def State.rxEmpty (s : State) : Bool := s.rxLevel = 0

/-- The bit of `STATUS.ARMED` (10_state R22, R35). -/
def Lifecycle.bit : Lifecycle → BitVec 1
  | .unarmed => 0#1
  | .armed => 1#1

/-- `STATUS.ENG_BUSY`: the engine is in `ENG_EXEC` or `ENG_PUSH` (10_state R35). -/
def State.engBusy (s : State) : Bool := s.engState = .exec || s.engState = .push

/-- The `STATUS` view, reserved bits 15:10 reading 0 (10_state R35). -/
def State.status (s : State) : BitVec 16 :=
  0#6 ++ BitVec.ofBool s.lineOe ++ BitVec.ofBool s.engFault ++ BitVec.ofBool s.engBusy ++ BitVec.ofNat 3 s.rxLevel ++
    BitVec.ofNat 3 s.txLevel ++ s.lifecycle.bit

end Sys2Proof.Machine
end

