-- ==== Sys2Proof/Machine/Operands.lean ====
section
/-! DEFINITION. Operand forms: the command words the link layer builds (30_encoding R99), the extraction of a read result
(44_link_layer R231), the decomposition of a byte read (R234), the pieces of an address (R238), and bits and bytes of a value
(20_memory R72, R74). -/

namespace Sys2Proof.Machine

/-- The `n` low bits of a value, bit 0 first (20_memory R72). -/
def lowBits (n : Nat) {w : Nat} (v : BitVec w) : List Bool := (List.range n).map v.getLsbD

/-- `v` with bit `i` set to `b`. -/
def setBit {w : Nat} (v : BitVec w) (i : Nat) (b : Bool) : BitVec w :=
  if b then v ||| (1#w <<< i) else v &&& ~~~(1#w <<< i)

/-- `enc_reset()` (30_encoding R99). -/
def encReset : QWord := 0x10000000#32

/-- `enc_waitidle()` (30_encoding R99). -/
def encWaitIdle : QWord := 0x20000000#32

/-- `enc_wrbits(n, v)`, for `n` 1 to 16 (30_encoding R99): the bits of `v` at `n` and above are cleared. -/
def encWrBits (n : Nat) (v : BitVec 16) : QWord :=
  0x30000000#32 ||| (BitVec.ofNat 32 (n - 1) <<< 16) ||| (v.setWidth 32 &&& ((1#32 <<< n) - 1#32))

/-- `enc_rdbits(n)`, for `n` 1 to 32 (30_encoding R99). -/
def encRdBits (n : Nat) : QWord := 0x40000000#32 ||| BitVec.ofNat 32 (n - 1)

/-- `extract(w, count) = w >> (32 - count)` (44_link_layer R231). -/
def extract (w : QWord) (count : Nat) : QWord := w >>> (32 - count)

/-- The number of full 32-bit reads of a byte read (44_link_layer R234). -/
def fullReads (count : Nat) : Nat := count / 4

/-- The bytes left for the remainder read (44_link_layer R234). -/
def restBytes (count : Nat) : Nat := count % 4

/-- `m`, the number of read commands of a byte read (44_link_layer R234). -/
def readCommands (count : Nat) : Nat := fullReads count + (if restBytes count ≠ 0 then 1 else 0)

/-- The bit counts of the read commands of a byte read, in push order (44_link_layer R234). -/
def readSizes (count : Nat) : List Nat :=
  List.replicate (fullReads count) 32 ++ (if restBytes count ≠ 0 then [8 * restBytes count] else [])

/-- Where the bytes of the results of a byte read go, in pop order: base and number of bytes (44_link_layer R235). -/
def readStores (count : Nat) : List (Nat × Nat) :=
  (List.range (fullReads count)).map (fun j => (4 * j, 4)) ++
    (if restBytes count ≠ 0 then [(4 * fullReads count, restBytes count)] else [])

/-- The five words of `LL_MATCH_ROM` (44_link_layer R238), the low 16 bits of the address first (20_memory R74 (d)). -/
def matchRomWords (cmdMatch : Byte) (a : Word64) : List QWord :=
  [encWrBits 8 (cmdMatch.setWidth 16), encWrBits 16 (a.extractLsb' 0 16), encWrBits 16 (a.extractLsb' 16 16),
   encWrBits 16 (a.extractLsb' 32 16), encWrBits 16 (a.extractLsb' 48 16)]

/-- Byte `k` of a value, `v[8k+7 : 8k]` (44_link_layer R235). -/
def byteOf {w : Nat} (v : BitVec w) (k : Nat) : Byte := v.extractLsb' (8 * k) 8

/-- The eight bytes of a device address in line order (10_state R30). -/
def addressBytes (a : Word64) : List Byte := (List.range 8).map (byteOf a)

/-- `family_code = a[7:0]` (10_state R30). -/
def familyCode (a : Word64) : Byte := a.extractLsb' 0 8

/-- `serial_number = a[55:8]` (10_state R30). -/
def serialNumber (a : Word64) : BitVec 48 := a.extractLsb' 8 48

/-- `crc = a[63:56]` (10_state R30). -/
def addressCrc (a : Word64) : Byte := a.extractLsb' 56 8

/-- The bytes of `v`, from byte `k` on, `n` of them, written to `BUF` from index `base + k` on (44_link_layer R235). -/
def storeFrom (v : QWord) (base : Nat) : (k n : Nat) → Vector Byte 16 → Vector Byte 16
  | _, 0, buf => buf
  | k, n + 1, buf => storeFrom v base (k + 1) n (buf.setIfInBounds (base + k) (byteOf v k))

/-- The `n` bytes of the read result in slot `w` written to `BUF[base .. base+n-1]` (44_link_layer R235). A full word is the case
`n = 4`, where `extract w 32 = w` (R231). -/
def storeBytes (w : QWord) (base n : Nat) (buf : Vector Byte 16) : Vector Byte 16 :=
  storeFrom (extract w (8 * n)) base 0 n buf

/-- `BUF[0 .. len-1]` (40_crc8 R125). -/
def bufBytes (buf : Vector Byte 16) (len : Nat) : List Byte := buf.toList.take len

end Sys2Proof.Machine
end

