-- ==== Sys2Proof/Machine/Ops.lean ====
section
/-! DEFINITION. The named operations: the response and the one shared way to raise an error (60_exceptions R260), the line
primitives and the waveforms (20_memory R76 to R79; 41_bit_timing R141, R143, R146), the CRC function (40_crc8 R121, R122), the
queue primitives (20_memory R62 to R65), the walk of a host operation over its queue accesses, the host's direct accesses
(20_memory R70, R71) and block reset (70 R290, R291). -/

namespace Sys2Proof.Machine

/-! ### The response -/

/-- A host operation completes with this response (30_encoding R93); no operation is in progress any more. -/
def respond (st : Status) (data : Word64) (s : State) : State :=
  { s with rspStatus := st.code, rspData := data, hostOp := .idle }

/-- `raise <Error>` (60_exceptions R260, R268): the operation ends here with the error's code and the recorded value; nothing else
changes. There is no vector, no saved context and no return (R268, R269). -/
def raise (e : Status) (data : Nat) (s : State) : State := respond e (BitVec.ofNat 64 data) s

/-- The operation succeeds with these data. -/
def succeed (data : Word64) (s : State) : State := respond .ok data s

/-- An operation that needs `lifecycle = UNARMED`: refused with `WrongState` once armed (60_exceptions R270). -/
def needUnarmed (s served : State) : Result :=
  .next (match s.lifecycle with
    | .unarmed => served
    | .armed => raise .wrongState 0 s)

/-- An operation that needs `lifecycle = ARMED`: refused with `WrongState` before (44_link_layer R220). -/
def needArmed (s served : State) : Result :=
  .next (match s.lifecycle with
    | .unarmed => raise .wrongState 0 s
    | .armed => served)

/-- A size check: outside the range the request is refused with `IllegalSize` and nothing else happens (30_encoding R107,
60_exceptions R264). -/
def checkSize (legal : Bool) (s served : State) : State := if legal then served else raise .illegalSize 0 s

/-! ### The line -/

/-- `LineLow()` (20_memory R76). -/
def lineLow (s : State) : State := { s with lineOe := true, lineLog := .low :: s.lineLog }

/-- `LineRelease()` (20_memory R76). -/
def lineRelease (s : State) : State := { s with lineOe := false, lineLog := .release :: s.lineLog }

/-- `Delay(t)` (20_memory R77): an event, no change of the block. -/
def delay (t : Nat) (s : State) : State := { s with lineLog := .delay t :: s.lineLog }

/-- The level the next sample reads (20_memory R78; log 3). -/
def nextLevel (s : State) : Bool :=
  match s.samples with
  | b :: _ => b
  | [] => Config.lineOracle s.lineLog

/-- The state after a sample: the level is used up and recorded (20_memory R78, R79). -/
def afterSample (s : State) : State :=
  { s with samples := s.samples.tail, lineLog := .sample (nextLevel s) :: s.lineLog }

/-- `LineSample()` (20_memory R78): the level, `true` when high, and the state after. -/
def lineSample (s : State) : Bool × State := (nextLevel s, afterSample s)

/-- The write-slot waveform (41_bit_timing R143). -/
def writeSlot (b : Bool) (s : State) : State :=
  let low := if b then s.cfg.tW1l else s.cfg.tW0l
  delay (s.cfg.tSlot - low) (lineRelease (delay low (lineLow s)))

/-- Write slots for a list of bits, in order. -/
def writeSlots : List Bool → State → State
  | [], s => s
  | b :: bs, s => writeSlots bs (writeSlot b s)

/-- The eight write slots of a byte, bit 0 first (41_bit_timing R145). -/
def writeByte (v : Byte) (s : State) : State := writeSlots (lowBits 8 v) s

/-- The read-slot waveform (41_bit_timing R146): the bit sampled and the state after. -/
def readSlot (s : State) : Bool × State :=
  let p := lineSample (delay s.cfg.tRds (lineRelease (delay s.cfg.tRdl (lineLow s))))
  (p.1, delay s.cfg.tRdr p.2)

/-- The polls of a bus reset (41_bit_timing R141): with `left` polls allowed and `k` made, wait and sample until the first low
sample. The answer: presence, the number of samples taken, the state after. -/
def pollPresence : (left k : Nat) → State → Bool × Nat × State
  | 0, k, s => (false, k, s)
  | left + 1, k, s =>
    let p := lineSample (delay s.cfg.tPresPoll s)
    if p.1 then pollPresence left (k + 1) p.2 else (true, k + 1, p.2)

/-- The bus-reset waveform (41_bit_timing R141): presence and the state after. -/
def busReset (s : State) : Bool × State :=
  let p := pollPresence Config.nPresPoll 0 (lineRelease (delay s.cfg.tRstl (lineLow s)))
  (p.1, delay (s.cfg.tRsth - p.2.1 * s.cfg.tPresPoll) p.2.2)

/-- The reset pulse of the engine (43_transfer_engine R194): no presence sample. -/
def resetPulse (s : State) : State :=
  delay s.cfg.tRsth (lineRelease (delay s.cfg.tRstl (lineLow s)))

/-! ### The CRC function -/

/-- `ror8` (00_scope R14). -/
def ror8 (v : Byte) : Byte := v.extractLsb' 0 1 ++ v.extractLsb' 1 7

/-- `crc_step(c, b)` (40_crc8 R121). -/
def crcStep (c : Byte) (b : Bool) : Byte :=
  let t := c ^^^ (BitVec.ofBool b).setWidth 8
  if t.getLsbD 0 then ror8 (t ^^^ Config.crcPoly) else ror8 t

/-- The eight bit steps of a byte, bit 0 first (40_crc8 R122). -/
def crcByte (c byte : Byte) : Byte := (lowBits 8 byte).foldl crcStep c

/-- `crc8(data)` (40_crc8 R122). -/
def crc8 (data : List Byte) : Byte := data.foldl crcByte Config.crcInit

/-! ### The queues -/

/-- The effect of `TxPush(w)` when there is room (20_memory R62): `w` at the tail. -/
def txEnqueue (w : QWord) (s : State) : State := { s with txq := s.txq ++ [w] }

/-- The effect of `RxPop` when there is a word (20_memory R65): the head leaves. -/
def rxDequeue (s : State) : State := { s with rxq := s.rxq.tail }

/-- The effect of `TxPop` when `TXQ` is `w :: rest` (20_memory R63): the head `w` leaves, to `eng_cmd` (43_transfer_engine R192). -/
def txFetch (w : QWord) (rest : List QWord) (s : State) : State := { s with txq := rest, engCmd := w }

/-- The effect of `RxPush(eng_isr)` when there is room (20_memory R64, 43_transfer_engine R199). -/
def deliverResult (s : State) : State := { s with rxq := s.rxq ++ [s.engIsr], engState := .fetch }

/-! ### A host operation and its queue accesses -/

/-- The CRC check at the end of a read or of `CRC_CHECK` (40_crc8 R126, 44_link_layer R236): the register of `BUF[0 .. len-1]` is
written, and reported whatever it is. -/
def checkBuf (len : Nat) (s : State) : State :=
  let c := crc8 (bufBytes s.buf len)
  respond (if c = 0x00#8 then .ok else .checksumError) (c.setWidth 64) { s with crc := c }

/-- A host operation ends, its queue accesses made. -/
def finishOp (fin : Finish) (s : State) : State :=
  match fin with
  | .reply data => succeed data s
  | .check count => checkBuf count s

/-- A host operation goes on to its next queue access; if there is none it ends at once. -/
def proceed (b : Bool) (rest : List Access) (fin : Finish) (s : State) : State :=
  match rest with
  | [] => finishOp fin s
  | a :: as => { s with hostOp := .running b (a :: as) fin }

/-- A blocking operation holds before access `a` (20_memory R62, R65): nothing changes but that it is in progress. -/
def hold (b : Bool) (a : Access) (rest : List Access) (fin : Finish) (s : State) : State :=
  { s with hostOp := .running b (a :: rest) fin }

/-- A popped word used (44_link_layer R232, R235): the operation's end and the state after the pop. -/
def usePopped (use : PopUse) (w : QWord) (fin : Finish) (s : State) : Finish × State :=
  match use with
  | .answer count => (.reply ((extract w count).setWidth 64), rxDequeue s)
  | .store base n => (fin, { rxDequeue s with buf := storeBytes w base n s.buf })

/-- One queue access of a host operation with blocking flag `b`, `rest` and `fin` to follow: it is made, or it holds, or it raises
its error (20_memory R62, R65; 44_link_layer R222, R236, R238, R240; 60_exceptions R261, R262). -/
def hostAccess (b : Bool) (a : Access) (rest : List Access) (fin : Finish) (s : State) : State :=
  match a with
  | .room m =>
    if b = false ∧ Config.txqDepth - s.txLevel < m then raise .queueFull 0 s else proceed b rest fin s
  | .push w sent =>
    if s.txFull then (if b then hold b a rest fin s else raise .queueFull sent s)
    else proceed b rest fin (txEnqueue w s)
  | .ready m =>
    if b = false ∧ s.rxLevel < m then raise .queueEmpty m s else proceed b rest fin s
  | .pop use owed =>
    match s.rxq with
    | [] => if b then hold b a rest fin s else raise .queueEmpty owed s
    | w :: _ => let p := usePopped use w fin s; proceed b rest p.1 p.2

/-- Whether the host has a step at this access: not while it holds (00_scope R15, `hold until`). -/
def accessReady (b : Bool) (a : Access) (s : State) : Bool :=
  match a with
  | .room _ => true
  | .push _ _ => !b || !s.txFull
  | .ready _ => true
  | .pop _ _ => !b || !s.rxEmpty

/-! ### The host's direct accesses, and block reset -/

/-- The host writes `BUF[i]` (20_memory R70). -/
def hostWriteBuf (i : Fin 16) (v : Byte) (s : State) : State := { s with buf := s.buf.set i.val v }

/-- The host reads `BUF[i]` (20_memory R70), with no side effect (R67). -/
def hostReadBuf (i : Fin 16) (s : State) : Byte := s.buf[i]

/-- The host reads `RES[i]`, which is meaningful for `i < count` only (20_memory R71; log 17), with no side effect (R67). -/
def hostReadRes (i : Nat) (s : State) : Option Word64 := if i < s.count then s.res[i]? else none

/-- The host reads `count` (20_memory R71), with no side effect (R67). -/
def hostReadCount (s : State) : Nat := s.count

/-- Block reset (70 R290, R291): every register as after power-on, `BUF` and `RES` unspecified afresh; the parameters, what is
outside the block, and the history of the line stay (log 9, log 19). -/
def blockReset (s : State) : State :=
  { State.reset with
    cfg := s.cfg
    res := unspecifiedRes (s.epoch + 1) s.cfg.resDepth
    buf := unspecifiedBuf (s.epoch + 1)
    inputs := s.inputs
    samples := s.samples
    turns := s.turns
    turnDraws := s.turnDraws
    epoch := s.epoch + 1
    lineLog := s.lineLog }

end Sys2Proof.Machine
end

