-- ==== Sys2Proof/Machine/BitTiming.lean ====
section
/-! DEFINITION. The bit-timing controller: `BT_RESET`, `BT_WRITE_BIT`, `BT_WRITE_BYTE`, `BT_READ_BIT` (41_bit_timing R140 to R149). All
four need `lifecycle = UNARMED`. -/

namespace Sys2Proof.Machine

/-- A one-bit result in `rsp_data[0]` (30_encoding R94). -/
def bitData (b : Bool) : Word64 := (BitVec.ofBool b).setWidth 64

/-- `BT_RESET` (41_bit_timing R142): `OK` with the presence bit, for both values of it. -/
def execBtReset (s : State) : Result :=
  let p := busReset s
  needUnarmed s (succeed (bitData p.1) p.2)

/-- `BT_WRITE_BIT bit` (41_bit_timing R144). -/
def execBtWriteBit (bit : Bool) (s : State) : Result := needUnarmed s (succeed 0#64 (writeSlot bit s))

/-- `BT_WRITE_BYTE byte` (41_bit_timing R145). -/
def execBtWriteByte (byte : Byte) (s : State) : Result := needUnarmed s (succeed 0#64 (writeByte byte s))

/-- `BT_READ_BIT` (41_bit_timing R147). -/
def execBtReadBit (s : State) : Result :=
  let p := readSlot s
  needUnarmed s (succeed (bitData p.1) p.2)

end Sys2Proof.Machine
end

