-- ==== Sys2Proof/Machine/Crc.lean ====
section
/-! DEFINITION. The CRC unit: `CRC_COMPUTE` and `CRC_CHECK` (40_crc8 R125, R126). Both are served in both lifecycle states (60_exceptions
R270). -/

namespace Sys2Proof.Machine

/-- The range of `len` (30_encoding R107). -/
def crcLenOk (len : Nat) : Bool := len ≤ Config.maxXferBytes

/-- The effect of `CRC_COMPUTE` on a legal length: the register is written and reported (40_crc8 R125). -/
def computeBuf (len : Nat) (s : State) : State :=
  let c := crc8 (bufBytes s.buf len)
  succeed (c.setWidth 64) { s with crc := c }

/-- `CRC_COMPUTE len` (40_crc8 R125). -/
def execCrcCompute (len : Nat) (s : State) : Result := .next (checkSize (crcLenOk len) s (computeBuf len s))

/-- `CRC_CHECK len` (40_crc8 R126). -/
def execCrcCheck (len : Nat) (s : State) : Result := .next (checkSize (crcLenOk len) s (checkBuf len s))

end Sys2Proof.Machine
end

