-- ==== Sys2Proof/WellFormed.lean ====
section
/-! DEFINITION. Which instructions have an encoding: a natural operand fits the 64-bit argument (30_encoding R91, R92) and the
bit count of a command word fits its field (R97). A count out of an operation's range (R107) IS encodable: the operation answers
`IllegalSize`. -/

namespace Sys2Proof

/-- A natural operand is the value of the whole 64-bit argument (30_encoding R91). -/
def fitsArg (n : Nat) : Bool := n < 2 ^ 64

/-- `n` of `WRBITS` is 1 to 16 (30_encoding R97, 00_scope R9). -/
def wrCountOk (n : Nat) : Bool := 1 ≤ n && n ≤ Config.maxWriteBits

/-- `n` of `RDBITS` is 1 to 32 (30_encoding R97, 00_scope R9). -/
def rdCountOk (n : Nat) : Bool := 1 ≤ n && n ≤ Config.maxReadBits

/-- The instruction is the meaning of some encoding (30_encoding R92, R97). -/
def Instr.wf : Instr → Bool
  | .crcCompute len => fitsArg len
  | .crcCheck len => fitsArg len
  | .btReset => true
  | .btWriteBit _ => true
  | .btWriteByte _ => true
  | .btReadBit => true
  | .discover maxDevices => fitsArg maxDevices
  | .arm => true
  | .llReset _ => true
  | .llWaitIdle _ => true
  | .llWriteByte _ _ => true
  | .llWriteWord _ _ => true
  | .llReadBits _ count => fitsArg count
  | .llPull _ count => fitsArg count
  | .llReadBytes _ count => fitsArg count
  | .llMatchRom _ _ => true
  | .llSkipRom _ => true
  | .llReadByte _ => true
  | .llReadWord _ => true
  | .reset => true
  | .waitIdle => true
  | .wrBits n _ => wrCountOk n
  | .rdBits n => rdCountOk n

end Sys2Proof
end

