-- ==== Sys2Proof/Decode.lean ====
section
/-! DEFINITION. The two decoders and the encoder (30_encoding R90 to R100, R105). Both decoders are total: a reserved encoding is
rejected by name. -/

namespace Sys2Proof

/-- Why an encoding stands for no instruction. -/
inductive Reject where
  /-- A reserved request code (30_encoding R95): the request is answered `IllegalOp`. -/
  | reservedRequest (code : BitVec 8)
  /-- A reserved command word (30_encoding R105): the engine that fetches it stops in `ENG_FAULT`. -/
  | reservedCommand (word : QWord)
  deriving DecidableEq, Repr

/-- The blocking flag `B`, bit 7 of `req_code` (30_encoding R91): 1 is blocking. -/
def reqBlocking (code : BitVec 8) : Bool := code.getLsbD 7

/-- The bits of `req_code` that must be 0, 6:5 (30_encoding R91). -/
def reqZero (code : BitVec 8) : BitVec 2 := code.extractLsb' 5 2

/-- The operation number, bits 4:0 of `req_code` (30_encoding R91). -/
def reqOp (code : BitVec 8) : BitVec 5 := code.extractLsb' 0 5

/-- The opcode map of format HR (30_encoding R94) with the operands of R92: which host operation an operation number names, given
the blocking flag and the argument. -/
def hostOperation (op : Nat) (b : Bool) (arg : Word64) : Option Instr :=
  match op with
  | 0x00 => some (.crcCompute arg.toNat)
  | 0x01 => some (.crcCheck arg.toNat)
  | 0x02 => some .btReset
  | 0x03 => some (.btWriteBit (arg.getLsbD 0))
  | 0x04 => some (.btWriteByte (arg.extractLsb' 0 8))
  | 0x05 => some .btReadBit
  | 0x06 => some (.discover arg.toNat)
  | 0x07 => some .arm
  | 0x08 => some (.llReset b)
  | 0x09 => some (.llWaitIdle b)
  | 0x0A => some (.llWriteByte b (arg.extractLsb' 0 8))
  | 0x0B => some (.llWriteWord b (arg.extractLsb' 0 16))
  | 0x0C => some (.llReadBits b arg.toNat)
  | 0x0D => some (.llPull b arg.toNat)
  | 0x0E => some (.llReadBytes b arg.toNat)
  | 0x0F => some (.llMatchRom b arg)
  | 0x10 => some (.llSkipRom b)
  | 0x11 => some (.llReadByte b)
  | 0x12 => some (.llReadWord b)
  | _ => none

/-- Decoding a host request (30_encoding R91 to R96). -/
def decodeRequest (code : BitVec 8) (arg : Word64) : Except Reject Instr :=
  if reqZero code ≠ 0#2 then .error (.reservedRequest code)
  else
    match hostOperation (reqOp code).toNat (reqBlocking code) arg with
    | some i => .ok i
    | none => .error (.reservedRequest code)

/-- Decoding a command word (30_encoding R100). -/
def decodeCommand (w : QWord) : Except Reject Instr :=
  if w = 0x10000000#32 then .ok .reset
  else if w = 0x20000000#32 then .ok .waitIdle
  else if w &&& 0xFFF00000#32 = 0x30000000#32 then
    .ok (.wrBits ((w.extractLsb' 16 4).toNat + 1) (w.extractLsb' 0 16))
  else if w &&& 0xFFFFFFE0#32 = 0x40000000#32 then
    .ok (.rdBits ((w.extractLsb' 0 5).toNat + 1))
  else .error (.reservedCommand w)

/-- The one decoder: of a request or of a command word (30_encoding R90). -/
def decode : Encoded → Except Reject Instr
  | .request code arg => decodeRequest code arg
  | .command w => decodeCommand w

/-- `req_code` from the blocking flag and the operation number (30_encoding R91). -/
def reqCode (b : Bool) (op : BitVec 5) : BitVec 8 := BitVec.ofBool b ++ 0#2 ++ op

/-- A request of an operation that does not read `B`; the encoder writes it as 0 (30_encoding R96). -/
def plainRequest (op : BitVec 5) (arg : Word64) : Encoded := .request (reqCode false op) arg

/-- A request of an operation that reads `B` (30_encoding R94). -/
def flaggedRequest (b : Bool) (op : BitVec 5) (arg : Word64) : Encoded := .request (reqCode b op) arg

/-- The word of `WRBITS n, value`, field by field (30_encoding R97, R98). -/
def wrBitsWord (n : Nat) (value : BitVec 16) : QWord :=
  0x3#4 ++ 0#8 ++ BitVec.ofNat 4 (n - 1) ++ value

/-- The word of `RDBITS n`, field by field (30_encoding R97, R98). -/
def rdBitsWord (n : Nat) : QWord :=
  0x4#4 ++ 0#23 ++ BitVec.ofNat 5 (n - 1)

/-- The encoding of a well-formed instruction (30_encoding R91, R92, R94, R97, R98). -/
def encode : Instr → Encoded
  | .crcCompute len => plainRequest 0x00#5 (BitVec.ofNat 64 len)
  | .crcCheck len => plainRequest 0x01#5 (BitVec.ofNat 64 len)
  | .btReset => plainRequest 0x02#5 0#64
  | .btWriteBit bit => plainRequest 0x03#5 ((BitVec.ofBool bit).setWidth 64)
  | .btWriteByte byte => plainRequest 0x04#5 (byte.setWidth 64)
  | .btReadBit => plainRequest 0x05#5 0#64
  | .discover maxDevices => plainRequest 0x06#5 (BitVec.ofNat 64 maxDevices)
  | .arm => plainRequest 0x07#5 0#64
  | .llReset b => flaggedRequest b 0x08#5 0#64
  | .llWaitIdle b => flaggedRequest b 0x09#5 0#64
  | .llWriteByte b value => flaggedRequest b 0x0A#5 (value.setWidth 64)
  | .llWriteWord b value => flaggedRequest b 0x0B#5 (value.setWidth 64)
  | .llReadBits b count => flaggedRequest b 0x0C#5 (BitVec.ofNat 64 count)
  | .llPull b count => flaggedRequest b 0x0D#5 (BitVec.ofNat 64 count)
  | .llReadBytes b count => flaggedRequest b 0x0E#5 (BitVec.ofNat 64 count)
  | .llMatchRom b address => flaggedRequest b 0x0F#5 address
  | .llSkipRom b => flaggedRequest b 0x10#5 0#64
  | .llReadByte b => flaggedRequest b 0x11#5 0#64
  | .llReadWord b => flaggedRequest b 0x12#5 0#64
  | .reset => .command 0x10000000#32
  | .waitIdle => .command 0x20000000#32
  | .wrBits n value => .command (wrBitsWord n value)
  | .rdBits n => .command (rdBitsWord n)

/-- The encoding whose bits are `w`, of which the opcode table gives the lowest `nbits` and the rest are 0 (log 16): a row of 32
bits is a command word; a row of 8 bits is the code of a host request, whose argument stands above it, bits 71:8. -/
def tableEncoding (nbits w : Nat) : Encoded :=
  let bits := w % 2 ^ nbits
  if nbits = 32 then .command (BitVec.ofNat 32 bits)
  else .request (BitVec.ofNat 8 bits) (BitVec.ofNat 64 (bits >>> 8))

/-- The instruction the decoder reads from a word numbered as the opcode table numbers it. -/
def decodeTableWord (nbits w : Nat) : Option Instr := (decode (tableEncoding nbits w)).toOption

end Sys2Proof
end

