-- ==== Sys2Proof/Machine/Engine.lean ====
section
/-! DEFINITION. The transfer engine: the four command words (43_transfer_engine R190 to R203). A command's meaning is its step in the
phase the engine is in: in `ENG_FETCH`, just fetched (R192), it is set up; in `ENG_EXEC` it runs one slot (R195, R196, R198); in
`ENG_PUSH` a read delivers its result (R199). In a phase in which R200 gives the command no step nothing changes (log 11). -/

namespace Sys2Proof.Machine

/-- `RESET` (43_transfer_engine R192, R194): the whole pulse in the fetch step, `eng_state` stays `ENG_FETCH`. -/
def execReset (s : State) : Result :=
  .next (match s.engState with
    | .fetch => resetPulse s
    | .exec | .push | .off | .fault => s)

/-- One sample step of `WAITIDLE` (43_transfer_engine R195). -/
def waitIdleStep (s : State) : State :=
  let p := lineSample s
  if p.1 then { p.2 with engState := .fetch } else p.2

/-- `WAITIDLE` (43_transfer_engine R192, R195). -/
def execWaitIdle (s : State) : Result :=
  .next (match s.engState with
    | .fetch => { s with engState := .exec }
    | .exec => waitIdleStep s
    | .push | .off | .fault => s)

/-- One slot of `WRBITS` (43_transfer_engine R196). -/
def wrBitsSlot (s : State) : State :=
  { writeSlot (s.engOsr.getLsbD 0) s with
    engOsr := s.engOsr >>> 1
    engBitcnt := s.engBitcnt - 1#6
    engState := if s.engBitcnt - 1#6 = 0#6 then .fetch else .exec }

/-- `WRBITS n, value` (43_transfer_engine R192, R196). -/
def execWrBits (n : Nat) (value : BitVec 16) (s : State) : Result :=
  .next (match s.engState with
    | .fetch => { s with engOsr := value, engBitcnt := BitVec.ofNat 6 n, engState := .exec }
    | .exec => wrBitsSlot s
    | .push | .off | .fault => s)

/-- `{b, isr[31:1]}`: a sample shifted in at the top (43_transfer_engine R198). -/
def shiftIn (b : Bool) (isr : QWord) : QWord := BitVec.ofBool b ++ isr.extractLsb' 1 31

/-- One slot of `RDBITS` (43_transfer_engine R198). -/
def rdBitsSlot (s : State) : State :=
  let p := readSlot s
  { p.2 with
    engIsr := shiftIn p.1 s.engIsr
    engBitcnt := s.engBitcnt - 1#6
    engState := if s.engBitcnt - 1#6 = 0#6 then .push else .exec }

/-- The step of `ENG_PUSH` (43_transfer_engine R199): the result is delivered when `RXQ` has room; else the engine holds. -/
def pushStep (s : State) : State := if s.rxFull then s else deliverResult s

/-- `RDBITS n` (43_transfer_engine R192, R198, R199). -/
def execRdBits (n : Nat) (s : State) : Result :=
  .next (match s.engState with
    | .fetch => { s with engIsr := 0#32, engBitcnt := BitVec.ofNat 6 n, engState := .exec }
    | .exec => rdBitsSlot s
    | .push => pushStep s
    | .off | .fault => s)

/-- A reserved word was fetched (43_transfer_engine R193): the engine stops for good (log 10). -/
def reservedFetched (s : State) : State := { s with engFault := true, engState := .fault }

/-- Whether a command has a step in `ENG_EXEC` (43_transfer_engine R200; log 12). -/
def slotCommand : Instr → Bool
  | .waitIdle | .wrBits _ _ | .rdBits _ => true
  | .crcCompute _ | .crcCheck _ | .btReset | .btWriteBit _ | .btWriteByte _ | .btReadBit | .discover _ | .arm
  | .llReset _ | .llWaitIdle _ | .llWriteByte _ _ | .llWriteWord _ _ | .llReadBits _ _ | .llPull _ _ | .llReadBytes _ _
  | .llMatchRom _ _ | .llSkipRom _ | .llReadByte _ | .llReadWord _ | .reset => false

/-- Whether the word in `eng_cmd` has a step in `ENG_EXEC`. -/
def slotWord (w : QWord) : Bool :=
  match decodeCommand w with
  | .ok i => slotCommand i
  | .error _ => false

end Sys2Proof.Machine
end

