-- ==== Sys2Proof/Machine/LinkLayer.lean ====
section
/-! DEFINITION. The link-layer controller: `ARM` and the eleven `LL_*` operations (44_link_layer R220 to R242). An `LL_*` operation makes
its first queue access in the step that starts it; the accesses that remain stand in `hostOp` (log 6). -/

namespace Sys2Proof.Machine

/-- What `ARM` does when it is served (44_link_layer R221). -/
def armBlock (s : State) : State :=
  let t := lineRelease
    { s with
      txq := []
      rxq := []
      engCmd := 0#32
      engBitcnt := 0#6
      engOsr := 0#16
      engIsr := 0#32 }
  succeed 0#64 { t with engState := .fetch, lifecycle := .armed }

/-- `ARM` (44_link_layer R221). -/
def execArm (s : State) : Result := needUnarmed s (armBlock s)

/-- An operation that pushes one command word and responds `OK, 0` (44_link_layer section 2). -/
def pushOne (b : Bool) (w : QWord) (s : State) : State := hostAccess b (.push w 0) [] (.reply 0#64) s

/-- A single-unit read: one read command and its own pull (44_link_layer R240, R241). -/
def readUnit (b : Bool) (bits : Nat) (s : State) : State :=
  hostAccess b (.push (encRdBits bits) 0) [.pop (.answer bits) 1] (.reply 0#64) s

/-- The range of a bit count (30_encoding R107). -/
def bitCountOk (count : Nat) : Bool := 1 ≤ count && count ≤ Config.maxReadBits

/-- The range of a byte count (30_encoding R107). -/
def byteCountOk (count : Nat) : Bool := 1 ≤ count && count ≤ Config.maxXferBytes

/-- `LL_RESET` (44_link_layer R225). -/
def execLlReset (b : Bool) (s : State) : Result := needArmed s (pushOne b encReset s)

/-- `LL_WAIT_IDLE` (44_link_layer R226). -/
def execLlWaitIdle (b : Bool) (s : State) : Result := needArmed s (pushOne b encWaitIdle s)

/-- `LL_WRITE_BYTE value` (44_link_layer R227). -/
def execLlWriteByte (b : Bool) (value : Byte) (s : State) : Result :=
  needArmed s (pushOne b (encWrBits 8 (value.setWidth 16)) s)

/-- `LL_WRITE_WORD value` (44_link_layer R228). -/
def execLlWriteWord (b : Bool) (value : BitVec 16) (s : State) : Result := needArmed s (pushOne b (encWrBits 16 value) s)

/-- `LL_READ_BITS count` (44_link_layer R230). -/
def execLlReadBits (b : Bool) (count : Nat) (s : State) : Result :=
  needArmed s (checkSize (bitCountOk count) s (pushOne b (encRdBits count) s))

/-- `LL_PULL count` (44_link_layer R232). -/
def execLlPull (b : Bool) (count : Nat) (s : State) : Result :=
  needArmed s (checkSize (bitCountOk count) s (hostAccess b (.pop (.answer count) 0) [] (.reply 0#64) s))

/-- The pushes of `LL_READ_BYTES`, phase 1 (44_link_layer R234, R236). -/
def readBytesPushes (count : Nat) : List Access := (readSizes count).map (fun n => .push (encRdBits n) 0)

/-- The pops of `LL_READ_BYTES`, phase 2 (44_link_layer R235, R236). -/
def readBytesPops (count : Nat) : List Access := (readStores count).map (fun p => .pop (.store p.1 p.2) 0)

/-- The queue accesses of `LL_READ_BYTES` in order (44_link_layer R236): the two checks are made by the non-blocking form only. -/
def readBytesAccesses (b : Bool) (count : Nat) : List Access :=
  (if b then [] else [.room (readCommands count)]) ++ readBytesPushes count ++
    (if b then [] else [.ready (readCommands count)]) ++ readBytesPops count

/-- A host operation starts: its first queue access is made now. -/
def startOp (b : Bool) (todo : List Access) (fin : Finish) (s : State) : State :=
  match todo with
  | [] => finishOp fin s
  | a :: rest => hostAccess b a rest fin s

/-- `LL_READ_BYTES count` (44_link_layer R236). -/
def execLlReadBytes (b : Bool) (count : Nat) (s : State) : Result :=
  needArmed s (checkSize (byteCountOk count) s (startOp b (readBytesAccesses b count) (.check count) s))

/-- The pushes of `LL_MATCH_ROM`: a `QueueFull` at word `j` records `j` (44_link_layer R238). -/
def matchRomAccesses (cmdMatch : Byte) (a : Word64) : List Access :=
  (matchRomWords cmdMatch a).mapIdx (fun j w => .push w j)

/-- `LL_MATCH_ROM address` (44_link_layer R238). -/
def execLlMatchRom (b : Bool) (address : Word64) (s : State) : Result :=
  needArmed s (startOp b (matchRomAccesses s.cfg.cmdMatch address) (.reply 5#64) s)

/-- `LL_SKIP_ROM` (44_link_layer R239). -/
def execLlSkipRom (b : Bool) (s : State) : Result := needArmed s (pushOne b (encWrBits 8 (s.cfg.cmdSkip.setWidth 16)) s)

/-- `LL_READ_BYTE` (44_link_layer R240). -/
def execLlReadByte (b : Bool) (s : State) : Result := needArmed s (readUnit b 8 s)

/-- `LL_READ_WORD` (44_link_layer R241). -/
def execLlReadWord (b : Bool) (s : State) : Result := needArmed s (readUnit b 16 s)

end Sys2Proof.Machine
end

