-- ==== Sys2Proof/Machine/Search.lean ====
section
/-! DEFINITION. The search engine: `DISCOVER` (42_search_engine R160 to R178), first as the structured text of R160, which is the
meaning of the operation, then as the state machine of R174, one transition at a time. -/

namespace Sys2Proof.Machine

/-! ### The parts of a run -/

/-- The registers of a discovery run at its start (42_search_engine R161). `RES` is not cleared. -/
def searchStart (maxDevices : Nat) (s : State) : State :=
  { s with
    current := 0#64
    discrepancy := 0#64
    lastBranchTaken := Config.noBranch
    count := 0
    maxDev := maxDevices }

/-- A discovery run ends with this status and `rsp_data = count`, `se_state = SE_IDLE` (42_search_engine R172, R177). -/
def searchExit (st : Status) (s : State) : State :=
  respond st (BitVec.ofNat 64 s.count) { s with seState := .idle }

/-- No presence: the run ends at once with an empty result (42_search_engine R163). -/
def searchNoPresence (s : State) : State := searchExit .ok { s with count := 0 }

/-- The search command byte, and `bit_idx <- 0` (42_search_engine R163). -/
def searchCommand (s : State) : State := { writeByte s.cfg.cmdSearch s with bitIdx := 0#7 }

/-- Position `i` resolved when the pair of reads is not (1, 1) (42_search_engine R165, R166, R168): the bit chosen and the registers
after. -/
def resolveBit (i : Nat) (bitVal bitComp : Bool) (s : State) : Bool × State :=
  if bitVal ≠ bitComp then
    (bitVal, { s with current := setBit s.current i bitVal, discrepancy := setBit s.discrepancy i false })
  else if s.discrepancy.getLsbD i && s.current.getLsbD i then (true, s)
  else (false, { s with current := setBit s.current i false, discrepancy := setBit s.discrepancy i true })

/-- Position `bit_idx` resolved, the chosen bit written, `bit_idx` moved on (42_search_engine R165, R166, R169). -/
def settleBit (bitVal bitComp : Bool) (s : State) : State :=
  let p := resolveBit s.bitIdx.toNat bitVal bitComp s
  { writeSlot p.1 p.2 with bitIdx := s.bitIdx + 1#7 }

/-- The bit steps of a pass for `n` positions from `bit_idx` on (42_search_engine R164 to R169): `false` when both probe bits of a
position read 1, and then nothing follows the two reads (R167). -/
def walkBits : (n : Nat) → State → Bool × State
  | 0, s => (true, s)
  | n + 1, s =>
    let v := readSlot s
    let c := readSlot v.2
    if v.1 && c.1 then (false, c.2) else walkBits n (settleBit v.1 c.1 c.2)

/-- The address found is appended (42_search_engine R170). -/
def appendFound (s : State) : State := { s with res := s.res.set s.count s.current, count := s.count + 1 }

/-- The scan of the advance over positions `n - 1` down to 0 (42_search_engine R171): `current`, `discrepancy` and
`last_branch_taken` after it. -/
def advanceScan : (n : Nat) → (cur disc : BitVec 64) → BitVec 64 × BitVec 64 × BitVec 7
  | 0, cur, disc => (cur, disc, Config.noBranch)
  | i + 1, cur, disc =>
    if disc.getLsbD i then
      if cur.getLsbD i then advanceScan i cur (setBit disc i false)
      else (setBit cur i true, disc, BitVec.ofNat 7 i)
    else advanceScan i cur disc

/-- Advance to the next branch (42_search_engine R171). -/
def searchAdvance (s : State) : State :=
  let r := advanceScan Config.addrBits s.current s.discrepancy
  { s with current := r.1, discrepancy := r.2.1, lastBranchTaken := r.2.2 }

/-- The passes of a run in which `room` more addresses may be appended, `room = max_dev - count` (42_search_engine R160, R163, R167,
R170, R172). The check `count = max_dev` of R170 is `room = 0`. -/
def searchPasses : (room : Nat) → State → State
  | room, s =>
    let p := busReset s
    if p.1 then
      let w := walkBits Config.addrBits (searchCommand p.2)
      if w.1 then
        match room with
        | 0 => searchExit .discoveryOverflow w.2
        | room + 1 =>
          let t := searchAdvance (appendFound w.2)
          if t.lastBranchTaken = Config.noBranch then searchExit .ok t else searchPasses room t
      else searchExit .protocolViolation w.2
    else searchNoPresence p.2

/-- `DISCOVER max_devices` (42_search_engine R160, with the checks of R162 before any line event). -/
def execDiscover (maxDevices : Nat) (s : State) : Result :=
  needUnarmed s
    (checkSize (decide (maxDevices ≤ s.cfg.resDepth)) s (searchPasses maxDevices (searchStart maxDevices s)))

/-! ### The state machine of R174 -/

/-- The search machine between two transitions: the block, and the two probe bits it has latched (42_search_engine R174, "`bit_val`
latched", "`bit_comp` latched"; log 14). -/
structure SearchMachine where
  /-- The block. -/
  block : State
  /-- `bit_val`. -/
  bitVal : Bool
  /-- `bit_comp`. -/
  bitComp : Bool
  deriving DecidableEq, Repr

/-- `DISCOVER` accepted: `SE_IDLE` to `SE_BUSRESET` (42_search_engine R161, R174). -/
def seStart (maxDevices : Nat) (s : State) : SearchMachine :=
  { block := { searchStart maxDevices s with seState := .busReset }, bitVal := false, bitComp := false }

/-- One transition of the search machine (42_search_engine R174). In `SE_IDLE` there is none. -/
def seStep (m : SearchMachine) : SearchMachine :=
  let s := m.block
  match s.seState with
  | .idle => m
  | .busReset =>
    let p := busReset s
    { m with block := if p.1 then { p.2 with seState := .cmd } else searchNoPresence p.2 }
  | .cmd => { m with block := { searchCommand s with seState := .readTrue } }
  | .readTrue =>
    let p := readSlot s
    { m with block := { p.2 with seState := .readComp }, bitVal := p.1 }
  | .readComp =>
    let p := readSlot s
    { m with block := { p.2 with seState := .resolve }, bitComp := p.1 }
  | .resolve =>
    if m.bitVal && m.bitComp then { m with block := searchExit .protocolViolation s }
    else
      let t := settleBit m.bitVal m.bitComp s
      { m with block := { t with seState := if t.bitIdx = 64#7 then .append else .readTrue } }
  | .append =>
    { m with block :=
        if s.count = s.maxDev then searchExit .discoveryOverflow s else { appendFound s with seState := .advance } }
  | .advance =>
    let t := searchAdvance s
    { m with block := if t.lastBranchTaken = Config.noBranch then searchExit .ok t else { t with seState := .busReset } }

/-- `k` transitions of the search machine. -/
def seRun : (k : Nat) → SearchMachine → SearchMachine
  | 0, m => m
  | k + 1, m => seRun k (seStep m)

end Sys2Proof.Machine
end

