-- ==== Sys2Proof/Machine/Dispatch.lean ====
section
/-! DEFINITION. One arm per instruction, each one direct call of its meaning. -/

namespace Sys2Proof.Machine

def exec (i : Instr) (s : State) : Host.Outcome State Fault Refusal :=
  match i with
  | .crcCompute len => Sys2Proof.Machine.execCrcCompute len s
  | .crcCheck len => Sys2Proof.Machine.execCrcCheck len s
  | .btReset => Sys2Proof.Machine.execBtReset s
  | .btWriteBit bit => Sys2Proof.Machine.execBtWriteBit bit s
  | .btWriteByte byte => Sys2Proof.Machine.execBtWriteByte byte s
  | .btReadBit => Sys2Proof.Machine.execBtReadBit s
  | .discover maxDevices => Sys2Proof.Machine.execDiscover maxDevices s
  | .arm => Sys2Proof.Machine.execArm s
  | .llReset blocking => Sys2Proof.Machine.execLlReset blocking s
  | .llWaitIdle blocking => Sys2Proof.Machine.execLlWaitIdle blocking s
  | .llWriteByte blocking value => Sys2Proof.Machine.execLlWriteByte blocking value s
  | .llWriteWord blocking value => Sys2Proof.Machine.execLlWriteWord blocking value s
  | .llReadBits blocking count => Sys2Proof.Machine.execLlReadBits blocking count s
  | .llPull blocking count => Sys2Proof.Machine.execLlPull blocking count s
  | .llReadBytes blocking count => Sys2Proof.Machine.execLlReadBytes blocking count s
  | .llMatchRom blocking address => Sys2Proof.Machine.execLlMatchRom blocking address s
  | .llSkipRom blocking => Sys2Proof.Machine.execLlSkipRom blocking s
  | .llReadByte blocking => Sys2Proof.Machine.execLlReadByte blocking s
  | .llReadWord blocking => Sys2Proof.Machine.execLlReadWord blocking s
  | .reset => Sys2Proof.Machine.execReset s
  | .waitIdle => Sys2Proof.Machine.execWaitIdle s
  | .wrBits n value => Sys2Proof.Machine.execWrBits n value s
  | .rdBits n => Sys2Proof.Machine.execRdBits n s

end Sys2Proof.Machine
end

