-- ==== Sys2Proof/Machine/Agents.lean ====
section
/-! DEFINITION. The agents (00_scope R16, 60_exceptions R273): when each has a step, what its step is, and which one moves
(20_memory R82 (e)); and how an instruction word is placed where the next step fetches it. -/

namespace Sys2Proof.Machine

/-! ### When an agent has a step -/

/-- The host has a step: its operation in progress does not hold, or none is in progress and it has a request to make or a `BUF`
byte to write (00_scope R15, R16; 20_memory R70). -/
def hostReady (s : State) : Bool :=
  match s.hostOp with
  | .running b (a :: _) _ => accessReady b a s
  | .running _ [] _ => true
  | .idle =>
    match s.inputs with
    | .request _ _ :: _ | .bufWrite _ _ :: _ => true
    | .blockReset :: _ | [] => false

/-- The engine has a step (43_transfer_engine R190, R192, R199, R200; log 12). -/
def engineReady (s : State) : Bool :=
  match s.engState with
  | .off | .fault => false
  | .fetch => !s.txEmpty
  | .exec => slotWord s.engCmd
  | .push => !s.rxFull

/-- The platform has a block reset to signal, at any moment of an operation too (70 R290; log 9). -/
def platformReady (s : State) : Bool :=
  match s.inputs with
  | .blockReset :: _ => true
  | .request _ _ :: _ | .bufWrite _ _ :: _ | [] => false

/-- Whether an agent has a step. -/
def agentReady (s : State) : Agent → Bool
  | .host => hostReady s
  | .engine => engineReady s
  | .platform => platformReady s

/-- The agents that have a step. -/
def readyAgents (s : State) : List Agent := [Agent.host, Agent.engine, Agent.platform].filter (agentReady s)

/-! ### Which agent moves -/

/-- The agent the next choice names (log 2). -/
def nextTurn (s : State) : Agent :=
  match s.turns with
  | a :: _ => a
  | [] => Config.scheduler s.turnDraws

/-- The state after a choice: it is used up. -/
def afterTurn (s : State) : State :=
  match s.turns with
  | _ :: ts => { s with turns := ts }
  | [] => { s with turnDraws := s.turnDraws + 1 }

/-- The agent that moves, and the state it moves from: none when none has a step; the only one that has a step, with no choice
made; else the one a choice names, or the first that has a step if that one has none (log 2). -/
def pickAgent (s : State) : Option Agent × State :=
  match readyAgents s with
  | [] => (none, s)
  | [a] => (some a, s)
  | a :: _ => (some (if agentReady s (nextTurn s) then nextTurn s else a), afterTurn s)

/-! ### The step of each agent -/

/-- A host request is decoded and executed; a reserved one is answered `IllegalOp` (30_encoding R95, R96; 60_exceptions R266). -/
def serveRequest (code : BitVec 8) (arg : Word64) (s : State) : Result :=
  match decodeRequest code arg with
  | .ok i => exec i s
  | .error _ => .next (raise .illegalOp 0 s)

/-- A step of the host: the next queue access of the operation in progress, or the next request or `BUF` write. -/
def hostStep (s : State) : Result :=
  match s.hostOp with
  | .running b (a :: rest) fin => .next (hostAccess b a rest fin s)
  | .running _ [] fin => .next (finishOp fin s)
  | .idle =>
    match s.inputs with
    | .request code arg :: is => serveRequest code arg { s with inputs := is }
    | .bufWrite i v :: is => .next (hostWriteBuf i v { s with inputs := is })
    | .blockReset :: _ | [] => .next s

/-- The engine fetches a command word and starts it (43_transfer_engine R192, R193); with `TXQ` empty it has no step. -/
def fetchStep (s : State) : Result :=
  match s.txq with
  | [] => .next s
  | w :: rest =>
    match decodeCommand w with
    | .ok i => exec i (txFetch w rest s)
    | .error _ => .next (reservedFetched (txFetch w rest s))

/-- A step of the engine (43_transfer_engine R200): a fetch, a slot of the command in `eng_cmd`, or the delivery of a result. -/
def engineStep (s : State) : Result :=
  match s.engState with
  | .off | .fault => .next s
  | .fetch => fetchStep s
  | .exec =>
    match decodeCommand s.engCmd with
    | .ok i => exec i s
    | .error _ => .next s
  | .push => .next (pushStep s)

/-- A step of the platform: block reset (70 R290). -/
def platformStep (s : State) : Result :=
  match s.inputs with
  | .blockReset :: is => .next (blockReset { s with inputs := is })
  | .request _ _ :: _ | .bufWrite _ _ :: _ | [] => .next s

/-- The step of an agent. -/
def agentStep (a : Agent) (s : State) : Result :=
  match a with
  | .host => hostStep s
  | .engine => engineStep s
  | .platform => platformStep s

/-- No agent has a step: with an operation in progress it is held for ever (60_exceptions R272 (b); log 7); else the block waits for the
next request (70 R292, R311; log 8). -/
def noStep (s : State) : Result :=
  match s.hostOp with
  | .idle => .next s
  | .running _ _ _ => .fault .hostHeldForever

/-! ### Placing an instruction -/

/-- A host request placed as what the host does next (log 5): no operation is in progress, the request is the next input, and if
another agent could move the next choice is the host's. -/
def placeRequest (code : BitVec 8) (arg : Word64) (s : State) : State :=
  let t := { s with hostOp := .idle, inputs := .request code arg :: s.inputs }
  if engineReady t then { t with turns := .host :: t.turns } else t

/-- A command word placed at the head of `TXQ` with the engine, armed, about to fetch (log 5); if another agent could move the next
choice is the engine's. -/
def placeCommand (w : QWord) (s : State) : State :=
  let t := { s with lifecycle := .armed, engState := .fetch, txq := w :: s.txq.tail }
  if hostReady t || platformReady t then { t with turns := .engine :: t.turns } else t

/-- An encoded instruction placed where the next step fetches it. -/
def placeEncoded (e : Encoded) (s : State) : State :=
  match e with
  | .request code arg => placeRequest code arg s
  | .command w => placeCommand w s

end Sys2Proof.Machine
end

