-- ==== Sys2Proof/Machine/Step.lean ====
section
/-! DEFINITION. One step of the machine: one agent moves (00_scope R16). -/

namespace Sys2Proof.Machine

/-- One step: the agent picked takes its step; when none has one, the block waits or is stuck. -/
def step (s : State) : Host.Outcome State Fault Refusal :=
  match pickAgent s with
  | (some a, t) => agentStep a t
  | (none, t) => noStep t

/-- `s` with the instruction whose bits are `w`, numbered as spec/opcode_table.json numbers them, where the next step fetches and
runs it: a request as the host's next input, a command word at the head of `TXQ` (log 5). -/
def State.withFetchWord (s : State) (nbits w : Nat) : State := placeEncoded (tableEncoding nbits w) s

end Sys2Proof.Machine
end

