-- ==== Sys2Proof/Safety.lean ====
section
/-! DEFINITION. What counts as a safe run: the shape every state of a run keeps, the states from which no engine fault can come
(10_state R33), quiescence and the ends of a run (70_reset_and_hazards R311), outstanding reads (10_state R38). -/

namespace Sys2Proof.Machine

/-! ### The shape of a state -/

/-- The queues hold at most 4 words (10_state R31). -/
structure QueuesBounded (s : State) : Prop where
  tx : s.txq.length ≤ 4
  rx : s.rxq.length ≤ 4

/-- The search registers between operations (10_state R27, R28, R29): `last_branch_taken` and `bit_idx` at most 64, `SE_IDLE`,
`count ≤ max_dev ≤ RES_DEPTH`, and `RES` has `RES_DEPTH` entries. -/
structure SearchShape (s : State) : Prop where
  lastBranch : s.lastBranchTaken.toNat ≤ 64
  bitIdx : s.bitIdx.toNat ≤ 64
  idle : s.seState = .idle
  count : s.count ≤ s.maxDev
  maxDev : s.maxDev ≤ s.cfg.resDepth
  res : s.res.length = s.cfg.resDepth

/-- Unarmed, the engine is off, the queues are empty and no operation is in progress; armed, the engine is on (10_state R22, R32;
20_memory R62). -/
structure LifecycleShape (s : State) : Prop where
  off : s.lifecycle = .unarmed ↔ s.engState = .off
  empty : s.lifecycle = .unarmed → s.txq = [] ∧ s.rxq = [] ∧ s.hostOp = .idle

/-- In `ENG_EXEC` the word in `eng_cmd` is a `WAITIDLE`, or a `WRBITS n` or `RDBITS n` with 1 to `n` slots still to run
(43_transfer_engine R191). -/
def execShape (i : Instr) (left : Nat) : Bool :=
  match i with
  | .waitIdle => true
  | .wrBits n _ | .rdBits n => 1 ≤ left && left ≤ n
  | .crcCompute _ | .crcCheck _ | .btReset | .btWriteBit _ | .btWriteByte _ | .btReadBit | .discover _ | .arm
  | .llReset _ | .llWaitIdle _ | .llWriteByte _ _ | .llWriteWord _ _ | .llReadBits _ _ | .llPull _ _ | .llReadBytes _ _
  | .llMatchRom _ _ | .llSkipRom _ | .llReadByte _ | .llReadWord _ | .reset => false

/-- The engine registers in each phase (10_state R32, R33; 43_transfer_engine R191). -/
structure EngineShape (s : State) : Prop where
  slots : s.engBitcnt.toNat ≤ 32
  exec : s.engState = .exec → ∃ i, decodeCommand s.engCmd = .ok i ∧ execShape i s.engBitcnt.toNat = true
  push : s.engState = .push → ∃ n, decodeCommand s.engCmd = .ok (.rdBits n)
  fault : s.engFault = true ↔ s.engState = .fault

/-- The host operation in progress has an access still to make (log 6). -/
def HostOp.live : HostOp → Bool
  | .idle => true
  | .running _ todo _ => !todo.isEmpty

/-- The shape every state of a run keeps: the above, `RES_DEPTH ≥ 1` (00_scope R12), the line released (10_state R23) and a status code
that exists (60_exceptions R260). -/
structure Inv (s : State) : Prop where
  depth : 1 ≤ s.cfg.resDepth
  released : s.lineOe = false
  queues : QueuesBounded s
  search : SearchShape s
  lifecycle : LifecycleShape s
  engine : EngineShape s
  live : s.hostOp.live = true
  status : s.rspStatus.toNat ≤ 8

/-! ### No reserved word -/

/-- A command word that is not reserved (30_encoding R105). -/
def legalWord (w : QWord) : Bool := (decodeCommand w).isOk

/-- A queue access that pushes no reserved word. -/
def Access.legal : Access → Bool
  | .push w _ => legalWord w
  | .room _ | .ready _ | .pop _ _ => true

/-- The accesses a host operation in progress has still to make. -/
def HostOp.todo : HostOp → List Access
  | .idle => []
  | .running _ todo _ => todo

/-- No reserved word is in `TXQ` or about to be pushed, and the engine has not faulted (10_state R33, 30_encoding R106). -/
structure NoReservedWord (s : State) : Prop where
  queued : ∀ w ∈ s.txq, legalWord w = true
  pending : ∀ a ∈ s.hostOp.todo, a.legal = true
  noFault : s.engFault = false
  running : s.engState ≠ .fault

/-! ### Outstanding reads -/

/-- A `RDBITS` word. -/
def isReadWord (w : QWord) : Bool :=
  match decodeCommand w with
  | .ok (.rdBits _) => true
  | _ => false

/-- The engine is executing or pushing a read. -/
def readInEngine (s : State) : Bool := s.engState = .push || (s.engState = .exec && isReadWord s.engCmd)

/-- The number of outstanding reads, when pairing has been kept (10_state R38 (c)). -/
def outstandingReads (s : State) : Nat :=
  s.txq.countP isReadWord + (if readInEngine s then 1 else 0) + s.rxLevel

/-! ### The end of a run -/

/-- The block is quiescent (70_reset_and_hazards R311). -/
def quiescent (s : State) : Bool :=
  s.hostOp = .idle && s.txEmpty && (s.engState = .off || s.engState = .fetch) && !s.engFault && !s.lineOe

/-- The host has no further request in this run (70_reset_and_hazards R311): none waits before the next block reset, which begins another
run. A `BUF` write is a direct access and no request (20_memory R70). -/
def noFurtherRequest : List Input → Bool
  | [] => true
  | .request _ _ :: _ => false
  | .bufWrite _ _ :: is => noFurtherRequest is
  | .blockReset :: _ => true

/-- A run has ended (70_reset_and_hazards R311): the host has no further request and the block is quiescent. -/
def runEnded (s : State) : Bool := noFurtherRequest s.inputs && quiescent s

/-- The end is clean (70_reset_and_hazards R311). -/
def cleanEnd (s : State) : Bool := runEnded s && s.rxEmpty

/-- A good state of a run: the engine has not faulted (60_exceptions R272 (a); log 10). -/
def goodState (s : State) : Bool := !s.engFault

/-- The engine stalls with a result that `RXQ` has no room for (20_memory R64, 60_exceptions R272 (d)). -/
def engineStalled (s : State) : Bool := s.engState = .push && s.rxFull

end Sys2Proof.Machine
end

