-- ==== Sys2Proof/Certificates/Slice0/Obligations.lean ====
section
/-! DEFINITION. The statements for the provers. Each docstring names the rules of spec/ it rests on. -/

namespace Sys2Proof.Claims

open Sys2Proof.Machine

/-! ### Words the statements use -/

/-- `n` steps of one agent, stopping at the first that is no next state. -/
def runSteps (f : State → Result) : Nat → State → Result
  | 0, s => .next s
  | n + 1, s =>
    match f s with
    | .next t => runSteps f n t
    | .fault r => .fault r
    | .refused r => .refused r

/-- The state with a response written and no operation in progress: what a host operation that only answers leaves (60_exceptions
R260). -/
def answered (code : BitVec 4) (data : Word64) (s : State) : State :=
  { s with rspStatus := code, rspData := data, hostOp := .idle }

/-- The line events of a write slot, oldest first (41_bit_timing R143). -/
def slotEvents (p : Params) (b : Bool) : List LineEvent :=
  let low := if b then p.tW1l else p.tW0l
  [.low, .delay low, .release, .delay (p.tSlot - low)]

/-- The line events of write slots for a list of bits, oldest first. -/
def slotsEvents (p : Params) (bs : List Bool) : List LineEvent := bs.flatMap (slotEvents p)

/-- The line events of a read slot that samples `b`, oldest first (41_bit_timing R146). -/
def readEvents (p : Params) (b : Bool) : List LineEvent :=
  [.low, .delay p.tRdl, .release, .delay p.tRds, .sample b, .delay p.tRdr]

/-- The line events of a bus reset whose samples are `bs`, oldest first (41_bit_timing R141). -/
def busResetEvents (p : Params) (bs : List Bool) : List LineEvent :=
  [.low, .delay p.tRstl, .release] ++ bs.flatMap (fun b => [.delay p.tPresPoll, .sample b]) ++
    [.delay (p.tRsth - bs.length * p.tPresPoll)]

/-- The block with these line events made and the line released, the first `n` of the levels waiting used up. -/
def lineMoved (events : List LineEvent) (n : Nat) (s : State) : State :=
  { s with lineOe := false, samples := s.samples.drop n, lineLog := events.reverse ++ s.lineLog }

/-- `bs` are levels the environment gives next, as far as the levels waiting decide them (20_memory R78). -/
def levelsGiven (bs : List Bool) (s : State) : Prop := bs <+: s.samples ∨ s.samples <+: bs

/-- The samples of a bus reset: 1 to 8, polling stops at the first low one (41_bit_timing R141). -/
def pollSamples (bs : List Bool) : Prop :=
  ∃ k, (k < 8 ∧ bs = List.replicate k true ++ [false]) ∨ (k = 8 ∧ bs = List.replicate k true)

/-- The operations that need `lifecycle = UNARMED` (60_exceptions R270). -/
def needsUnarmed : Instr → Bool
  | .btReset | .btWriteBit _ | .btWriteByte _ | .btReadBit | .discover _ | .arm => true
  | _ => false

/-- The operations that need `lifecycle = ARMED` (60_exceptions R270). -/
def needsArmed : Instr → Bool
  | .llReset _ | .llWaitIdle _ | .llWriteByte _ _ | .llWriteWord _ _ | .llReadBits _ _ | .llPull _ _ | .llReadBytes _ _
  | .llMatchRom _ _ | .llSkipRom _ | .llReadByte _ | .llReadWord _ => true
  | _ => false

/-- The blocking flag of the operations that read it (44_link_layer R222). -/
def llFlag : Instr → Option Bool
  | .llReset b | .llWaitIdle b | .llWriteByte b _ | .llWriteWord b _ | .llReadBits b _ | .llPull b _ | .llReadBytes b _
  | .llMatchRom b _ | .llSkipRom b | .llReadByte b | .llReadWord b => some b
  | _ => none

/-- The operations that push one command word and answer `OK, 0` (44_link_layer section 2, R239), with the word, written out. -/
def pushesOne (p : Params) (b : Bool) : Instr → QWord → Prop := fun i w =>
  (i = .llReset b ∧ w = 0x10000000#32) ∨
  (i = .llWaitIdle b ∧ w = 0x20000000#32) ∨
  (∃ v : Byte, i = .llWriteByte b v ∧ w = 0x300700#24 ++ v) ∨
  (∃ v : BitVec 16, i = .llWriteWord b v ∧ w = 0x300F#16 ++ v) ∨
  (i = .llSkipRom b ∧ w = 0x300700#24 ++ p.cmdSkip) ∨
  (∃ n, 1 ≤ n ∧ n ≤ 32 ∧ i = .llReadBits b n ∧ w = 0x40000000#32 + BitVec.ofNat 32 (n - 1))

/-- The five words of `LL_MATCH_ROM`, written out (44_link_layer R238). -/
def matchWords (p : Params) (a : Word64) : List QWord :=
  [0x300700#24 ++ p.cmdMatch, 0x300F#16 ++ a.extractLsb' 0 16, 0x300F#16 ++ a.extractLsb' 16 16,
   0x300F#16 ++ a.extractLsb' 32 16, 0x300F#16 ++ a.extractLsb' 48 16]

/-- `LL_MATCH_ROM` in progress with `j` of its words pushed. -/
def matchOp (p : Params) (b : Bool) (a : Word64) (j : Nat) : HostOp :=
  .running b ((matchRomAccesses p.cmdMatch a).drop j) (.reply 5#64)

/-- `LL_READ_BYTE` (`n = 8`) or `LL_READ_WORD` (`n = 16`) in progress, its read command pushed and its pop to come. -/
def unitOp (b : Bool) (n : Nat) : HostOp := .running b [.pop (.answer n) 1] (.reply 0#64)

/-- `LL_READ_BYTES count` in progress with `j` of its queue accesses made. -/
def readOp (b : Bool) (count j : Nat) : HostOp := .running b ((readBytesAccesses b count).drop j) (.check count)

/-- The bit counts of the read commands of a byte read, as the table of 44_link_layer R234 lists them. -/
def readTable (count : Nat) : List Nat :=
  match count with
  | 1 => [8] | 2 => [16] | 3 => [24] | 4 => [32]
  | 5 => [32, 8] | 6 => [32, 16] | 7 => [32, 24] | 8 => [32, 32]
  | 9 => [32, 32, 8] | 10 => [32, 32, 16] | 11 => [32, 32, 24] | 12 => [32, 32, 32]
  | 13 => [32, 32, 32, 8] | 14 => [32, 32, 32, 16] | 15 => [32, 32, 32, 24] | 16 => [32, 32, 32, 32]
  | _ => []

/-- The word of `RDBITS n`, for `n` 1 to 32 (30_encoding R99). -/
def readWord (n : Nat) : QWord := 0x40000000#32 + BitVec.ofNat 32 (n - 1)

/-- The number whose base-256 digits are these bytes, the first byte lowest (20_memory R74 (a)). -/
def bytesValue : List Byte → Nat
  | [] => 0
  | b :: bs => b.toNat + 256 * bytesValue bs

/-- The slot that a read of these (at most four) bytes delivers: the bits at the top over zeros (20_memory R73). -/
def slotOf (bytes : List Byte) : QWord := BitVec.ofNat 32 (bytesValue bytes) <<< (32 - 8 * bytes.length)

/-- The slots that a byte read of these bytes delivers: four bytes each, and one for the rest (44_link_layer R234). -/
def slotsOf (data : List Byte) : List QWord :=
  (List.range ((data.length + 3) / 4)).map (fun j => slotOf ((data.drop (4 * j)).take 4))

/-- The devices still active at bit position `i` when the bits written so far are those of `a`: those whose address agrees with `a`
below `i` (20_memory R80). -/
def activeAt (devices : List Word64) (a : Word64) (i : Nat) : List Word64 :=
  devices.filter (fun d => (List.range i).all (fun j => d.getLsbD j == a.getLsbD j))

/-- What the reference bus answers to the two read slots of position `i` on the way to `a`: a wired AND (20_memory R80). -/
def probeLevels (devices : List Word64) (a : Word64) (i : Nat) : List Bool :=
  [(activeAt devices a i).all (fun d => d.getLsbD i), (activeAt devices a i).all (fun d => !d.getLsbD i)]

/-- What the reference bus answers in a pass that walks to `a`: presence at the first poll, then the pairs of the 64 positions
(20_memory R80). -/
def passLevels (devices : List Word64) (a : Word64) : List Bool :=
  false :: (List.range 64).flatMap (probeLevels devices a)

/-- `a` is found before `b`: at the lowest bit where they differ `a` has 0 (42_search_engine R175). -/
def foundBefore (a b : Word64) : Prop :=
  ∃ i < 64, (∀ j < i, a.getLsbD j = b.getLsbD j) ∧ a.getLsbD i = false ∧ b.getLsbD i = true

/-- The number of times the line was pulled low. -/
def lowEvents (log : List LineEvent) : Nat := log.countP (fun e => e == .low)

/-- What `DISCOVER` may change (42_search_engine R160): everything else of `t` is as in `s`. -/
def searchFrame (s t : State) : Prop :=
  t = { s with
    current := t.current
    discrepancy := t.discrepancy
    lastBranchTaken := t.lastBranchTaken
    bitIdx := t.bitIdx
    seState := t.seState
    count := t.count
    maxDev := t.maxDev
    res := t.res
    lineOe := t.lineOe
    samples := t.samples
    lineLog := t.lineLog
    rspStatus := t.rspStatus
    rspData := t.rspData
    hostOp := t.hostOp }

/-- The number of pushes at the front of a list of queue accesses. -/
def leadingPushes : List Access → Nat
  | .push _ _ :: rest => leadingPushes rest + 1
  | _ => 0

/-- The number of pops at the front of a list of queue accesses. -/
def leadingPops : List Access → Nat
  | .pop _ _ :: rest => leadingPops rest + 1
  | _ => 0

/-- A non-blocking `LL_READ_BYTES` in progress past a check has the room, or the results, for the accesses that check was for
(44_link_layer R236). -/
def checkedReadFits (s : State) : Prop :=
  ∀ todo count, s.hostOp = .running false todo (.check count) →
    leadingPushes todo ≤ 4 - s.txq.length ∧ leadingPops todo ≤ s.rxq.length ∧
      ∃ pops : List Access, leadingPops pops = pops.length ∧
        (todo = pops ∨ ∃ pushes m, leadingPushes pushes = pushes.length ∧ m = pops.length ∧
          (todo = pushes ++ .ready m :: pops ∨ (m = pushes.length ∧ todo = .room m :: pushes ++ .ready m :: pops)))

end Sys2Proof.Claims

open Sys2Proof Sys2Proof.Machine Sys2Proof.Claims

/-! ### Encodings -/

/-- 30_encoding R91, R92, R94, R97, R98, R99, R100: decoding the encoding of a well-formed instruction gives it back. -/
def Obligations.DecodeUndoesEncode : Prop := ∀ i : Instr, i.wf = true → decode (encode i) = .ok i

/-- 30_encoding R96, R98, R100: what a decoder reads is well-formed; a command word is the one encoding of what it decodes to; a request
code of an operation that reads the blocking flag is kept whole, and of one that does not, but for that flag. -/
def Obligations.DecodedEncodingsAreCanonical : Prop :=
  (∀ e i, decode e = .ok i → i.wf = true) ∧
  (∀ w i, decodeCommand w = .ok i → encode i = .command w) ∧
  (∀ code arg i, decodeRequest code arg = .ok i →
    ∃ code' arg', encode i = .request code' arg' ∧ reqOp code' = reqOp code ∧ reqZero code' = reqZero code ∧
      (8 ≤ (reqOp code).toNat → code' = code))

/-- 30_encoding R105: which command words are reserved. -/
def Obligations.ReservedCommandWords : Prop :=
  ∀ w : QWord, decodeCommand w = .error (.reservedCommand w) ↔
    (w.extractLsb' 28 4 = 0#4 ∨ 5 ≤ (w.extractLsb' 28 4).toNat) ∨
    ((w.extractLsb' 28 4 = 1#4 ∨ w.extractLsb' 28 4 = 2#4) ∧ w.extractLsb' 0 28 ≠ 0#28) ∨
    (w.extractLsb' 28 4 = 3#4 ∧ w.extractLsb' 20 8 ≠ 0#8) ∨
    (w.extractLsb' 28 4 = 4#4 ∧ w.extractLsb' 5 23 ≠ 0#23)

/-- 30_encoding R95, 60_exceptions R266, R268: a reserved request changes nothing but the response, `IllegalOp` with data 0, and these
are the requests with `op` 0x13 to 0x1F or bits 6:5 not 0. -/
def Obligations.ReservedRequestAnswered : Prop :=
  ∀ (s : State) (code : BitVec 8) (arg : Word64),
    ((∃ r, decodeRequest code arg = .error r) ↔ (0x13 ≤ (reqOp code).toNat ∨ reqZero code ≠ 0#2)) ∧
    (∀ is, 0x13 ≤ (reqOp code).toNat ∨ reqZero code ≠ 0#2 → s.hostOp = .idle → s.inputs = .request code arg :: is →
      hostStep s = .next (answered 8#4 0#64 { s with inputs := is }))

/-- 30_encoding R99, R106: each word the link layer builds decodes to the command it stands for, with the bits of the value at `n` and
above cleared. -/
def Obligations.BuiltWordsDecode : Prop :=
  decodeCommand encReset = .ok .reset ∧ decodeCommand encWaitIdle = .ok .waitIdle ∧
  (∀ n (v : BitVec 16), 1 ≤ n → n ≤ 16 →
    decodeCommand (encWrBits n v) = .ok (.wrBits n (BitVec.ofNat 16 (v.toNat % 2 ^ n)))) ∧
  (∀ n, 1 ≤ n → n ≤ 32 → decodeCommand (encRdBits n) = .ok (.rdBits n))

/-- 30_encoding R94, R98, R99: a few encodings written out bit by bit decode to the instruction they stand for. -/
def Obligations.WordsWrittenOutDecode : Prop :=
  decodeTableWord 8 0b00000001 = some (.crcCheck 0) ∧
  decodeTableWord 8 0b00000110 = some (.discover 0) ∧
  decodeTableWord 8 0b10001010 = some (.llWriteByte true 0x00#8) ∧
  decodeTableWord 8 0b00010010 = some (.llReadWord false) ∧
  decodeTableWord 32 0b00100000000000000000000000000000 = some .waitIdle ∧
  decodeTableWord 32 0b00110000000011110001000100101000 = some (.wrBits 16 0x1128#16) ∧
  decodeTableWord 32 0b01000000000000000000000000011111 = some (.rdBits 32) ∧
  decodeTableWord 32 0b01010000000000000000000000000000 = none

/-! ### The CRC unit -/

/-- 40_crc8 R122, R123: the function is one shift-and-xor step with 0x8C per input bit, bit 0 of each byte first, from 0x00. -/
def Obligations.CrcIsShiftRegister : Prop :=
  ∀ data : List Byte,
    crc8 data =
      (data.flatMap (fun d => [d.getLsbD 0, d.getLsbD 1, d.getLsbD 2, d.getLsbD 3, d.getLsbD 4, d.getLsbD 5, d.getLsbD 6,
        d.getLsbD 7])).foldl (fun (c : Byte) b => (c >>> 1) ^^^ (if c.getLsbD 0 ^^ b then 0x8C#8 else 0x00#8)) 0x00#8

/-- 40_crc8 R124 (a), (e), 70 R309: the CRC is linear; zeros in front do not change it, and all zeros pass. -/
def Obligations.CrcIsLinear : Prop :=
  (∀ xs ys : List Byte, xs.length = ys.length → crc8 (List.zipWith (· ^^^ ·) xs ys) = crc8 xs ^^^ crc8 ys) ∧
  (∀ (n : Nat) (data : List Byte),
    crc8 (List.replicate n 0x00#8 ++ data) = crc8 data ∧ crc8 (List.replicate n 0x00#8) = 0x00#8)

/-- 40_crc8 R124 (b), (d), 10_state R30: a sequence extended with its CRC has CRC 0; so has a device address whose CRC byte is that of
its first seven bytes. -/
def Obligations.CrcRoundTrip : Prop :=
  (∀ data : List Byte, crc8 (data ++ [crc8 data]) = 0x00#8) ∧
  (∀ a : Word64, addressCrc a = crc8 ((addressBytes a).take 7) → crc8 (addressBytes a) = 0x00#8)

/-- 40_crc8 R124 (c): one flipped bit of a sequence with CRC 0 is detected. -/
def Obligations.CrcDetectsSingleBit : Prop :=
  ∀ (x : List Byte) (j k : Nat), crc8 x = 0x00#8 → j < x.length → k < 8 →
    crc8 (x.modify j (· ^^^ (1#8 <<< k))) ≠ 0x00#8

/-- 40_crc8 R125: the encoding, the response, the register and the frame of `CRC_COMPUTE`, in both lifecycle states. -/
def Obligations.CrcComputeEffect : Prop :=
  (∀ b arg, decodeRequest (reqCode b 0x00#5) arg = .ok (.crcCompute arg.toNat)) ∧
  ∀ (len : Nat) (s : State),
    (len ≤ 16 → exec (.crcCompute len) s =
      .next (answered 0#4 ((crc8 (s.buf.toList.take len)).setWidth 64) { s with crc := crc8 (s.buf.toList.take len) })) ∧
    (16 < len → exec (.crcCompute len) s = .next (answered 3#4 0#64 s))

/-- 40_crc8 R126: the encoding, the response, the register and the frame of `CRC_CHECK`, in both lifecycle states. -/
def Obligations.CrcCheckEffect : Prop :=
  (∀ b arg, decodeRequest (reqCode b 0x01#5) arg = .ok (.crcCheck arg.toNat)) ∧
  ∀ (len : Nat) (s : State),
    (len ≤ 16 → exec (.crcCheck len) s =
      .next (answered (if crc8 (s.buf.toList.take len) = 0x00#8 then 0#4 else 4#4)
        ((crc8 (s.buf.toList.take len)).setWidth 64) { s with crc := crc8 (s.buf.toList.take len) })) ∧
    (16 < len → exec (.crcCheck len) s = .next (answered 3#4 0#64 s))

/-! ### The bit-timing controller -/

/-- 41_bit_timing R141, R142: the polls, the events, the response and the frame of `BT_RESET`. That a pad of
negative length is `Delay(0)` is the model's choice (log 13). -/
def Obligations.BtResetEffect : Prop :=
  ∀ s : State, s.lifecycle = .unarmed →
    ∃ bs, pollSamples bs ∧ levelsGiven bs s ∧
      exec .btReset s =
        .next (answered 0#4 (if false ∈ bs then 1#64 else 0#64) (lineMoved (busResetEvents s.cfg bs) bs.length s))

/-- 41_bit_timing R143, R144, R145: the slots, the response and the frame of `BT_WRITE_BIT` and `BT_WRITE_BYTE`. That a pad of negative
length is `Delay(0)` is the model's choice (log 13). -/
def Obligations.BtWriteEffect : Prop :=
  ∀ s : State, s.lifecycle = .unarmed →
    (∀ b, exec (.btWriteBit b) s = .next (answered 0#4 0#64 (lineMoved (slotEvents s.cfg b) 0 s))) ∧
    (∀ v : Byte, exec (.btWriteByte v) s =
      .next (answered 0#4 0#64
        (lineMoved (slotsEvents s.cfg [v.getLsbD 0, v.getLsbD 1, v.getLsbD 2, v.getLsbD 3, v.getLsbD 4, v.getLsbD 5,
          v.getLsbD 6, v.getLsbD 7]) 0 s)))

/-- 41_bit_timing R147: the encoding, the sample, the events, the response and the frame of `BT_READ_BIT`, and its refusal once armed. -/
def Obligations.BtReadBitEffect : Prop :=
  (∀ b arg, decodeRequest (reqCode b 0x05#5) arg = .ok .btReadBit) ∧
  ∀ s : State,
    (s.lifecycle = .unarmed →
      ∃ b, levelsGiven [b] s ∧
        exec .btReadBit s =
          .next (answered 0#4 (if b then 1#64 else 0#64) (lineMoved (readEvents s.cfg b) 1 s))) ∧
    (s.lifecycle = .armed → exec .btReadBit s = .next (answered 7#4 0#64 s))

/-- 60_exceptions R270, 44_link_layer R220, 42_search_engine R162: an operation issued in the wrong lifecycle state is answered
`WrongState`, whatever its operands, and changes nothing but the response. -/
def Obligations.WrongLifecycleRefused : Prop :=
  ∀ (s : State) (i : Instr),
    (needsUnarmed i = true → s.lifecycle = .armed → exec i s = .next (answered 7#4 0#64 s)) ∧
    (needsArmed i = true → s.lifecycle = .unarmed → exec i s = .next (answered 7#4 0#64 s))

/-! ### The search engine -/

/-- 42_search_engine R160, R172, R177: a served `DISCOVER` completes; its exits and its frame. That the whole run is one step is the
model's reading (log 6, log 14). -/
def Obligations.DiscoverExits : Prop :=
  ∀ (m : Nat) (s : State), s.lifecycle = .unarmed → m ≤ s.cfg.resDepth →
    ∃ t, exec (.discover m) s = .next t ∧ searchFrame s t ∧
      t.seState = .idle ∧ t.lineOe = false ∧ t.hostOp = .idle ∧ t.maxDev = m ∧ t.rspData = BitVec.ofNat 64 t.count ∧
      t.res.length = s.res.length ∧ (∀ i, m ≤ i → t.res[i]? = s.res[i]?) ∧
      ((t.rspStatus = 0#4 ∧ t.count = 0) ∨
       (t.rspStatus = 0#4 ∧ 1 ≤ t.count ∧ t.count ≤ m ∧ t.discrepancy = 0#64 ∧ t.lastBranchTaken = 64#7) ∨
       (t.rspStatus = 5#4 ∧ t.count ≤ m) ∨
       (t.rspStatus = 6#4 ∧ t.count = m))

/-- 42_search_engine R164 to R169: the table of a bit step at position `i = bit_idx`, with the slot it writes and `bit_idx` after it; on
the pair (1, 1) nothing follows the two reads. That a pad of negative length is `Delay(0)` is the model's choice (log 13). -/
def Obligations.BitStepTable : Prop :=
  ∀ (n : Nat) (s : State) (i : Nat) (v c : Bool) (t u : State),
    s.bitIdx.toNat = i → i < 64 → readSlot s = (v, t) → readSlot t = (c, u) →
    u.current = s.current ∧ u.discrepancy = s.discrepancy ∧ u.bitIdx = s.bitIdx ∧
    (v = true → c = true → walkBits (n + 1) s = (false, u)) ∧
    ((v && c) = false →
      ∃ (chosen : Bool) (x : State), walkBits (n + 1) s = walkBits n x ∧
        x = lineMoved (slotEvents s.cfg chosen) 0
          { u with current := x.current, discrepancy := x.discrepancy, bitIdx := x.bitIdx } ∧
        x.bitIdx.toNat = i + 1 ∧
        (∀ j, j ≠ i → x.current.getLsbD j = s.current.getLsbD j ∧ x.discrepancy.getLsbD j = s.discrepancy.getLsbD j) ∧
        x.current.getLsbD i = chosen ∧
        (v ≠ c → chosen = v ∧ x.discrepancy.getLsbD i = false) ∧
        (v = c → chosen = (s.discrepancy.getLsbD i && s.current.getLsbD i) ∧ x.discrepancy.getLsbD i = true))

/-- 42_search_engine R171, R172: the advance sets the highest pending bit, clears the marks above it and keeps the rest; with no
pending bit it clears every mark and answers NONE. -/
def Obligations.AdvanceFindsHighestPending : Prop :=
  ∀ s : State,
    (∀ i, i < 64 → s.discrepancy.getLsbD i = true → s.current.getLsbD i = false →
      (∀ j, i < j → s.discrepancy.getLsbD j = true → s.current.getLsbD j = true) →
      ∃ t, searchAdvance s = { s with current := t.current, discrepancy := t.discrepancy, lastBranchTaken := t.lastBranchTaken } ∧
        t = searchAdvance s ∧ t.lastBranchTaken.toNat = i ∧
        (∀ j, t.current.getLsbD j = (decide (j = i) || s.current.getLsbD j)) ∧
        (∀ j, t.discrepancy.getLsbD j = (decide (j ≤ i) && s.discrepancy.getLsbD j))) ∧
    ((∀ j, s.discrepancy.getLsbD j = true → s.current.getLsbD j = true) →
      searchAdvance s = { s with discrepancy := 0#64, lastBranchTaken := 64#7 })

/-- 42_search_engine R174 against R160: the state machine, from the acceptance of `DISCOVER`, reaches `SE_IDLE` in at most 196
transitions a pass and at most `max_devices + 1` passes, in exactly the state the structured text gives. That the whole run is one step
of `exec` is the model's reading (log 14). -/
def Obligations.SearchMachineFollowsText : Prop :=
  ∀ (m : Nat) (s : State), s.lifecycle = .unarmed → m ≤ s.cfg.resDepth →
    ∃ k, k ≤ 196 * (m + 1) ∧ (seRun k (seStart m s)).block.seState = .idle ∧
      exec (.discover m) s = .next (seRun k (seStart m s)).block

/-- 42_search_engine R173: whatever the line answers, a run makes at most `(max_dev + 1) × (1 + 8 + 64 × 3)` waveforms. -/
def Obligations.DiscoverBounded : Prop :=
  ∀ (m : Nat) (s : State), s.lifecycle = .unarmed → m ≤ s.cfg.resDepth →
    ∃ t, exec (.discover m) s = .next t ∧ lowEvents t.lineLog ≤ lowEvents s.lineLog + (m + 1) * (1 + 8 + 64 * 3)

/-- 20_memory R80, 42_search_engine R173, R175, R178: on the reference bus with these devices, named in the order R175 gives, the run
finds exactly them, each once and in that order, when they fit, and else the first `max_devices` of them with `DiscoveryOverflow`; with
no device the result is empty. The reference bus is the spec's model for tests, from general knowledge. -/
def Obligations.ReferenceBusDiscovery : Prop :=
  ∀ (m : Nat) (s : State) (devices : List Word64) (rest : List Bool),
    s.lifecycle = .unarmed → m ≤ s.cfg.resDepth → s.res.length = s.cfg.resDepth → devices.Pairwise foundBefore →
    s.samples = (if devices = [] then List.replicate 8 true else (devices.take (m + 1)).flatMap (passLevels devices)) ++ rest →
    ∃ t, exec (.discover m) s = .next t ∧ t.samples = rest ∧ t.res.take t.count = devices.take m ∧
      t.count = min devices.length m ∧ t.rspStatus = (if devices.length ≤ m then 0#4 else 6#4) ∧
      t.rspData = BitVec.ofNat 64 t.count

/-! ### The lifecycle -/

/-- 44_link_layer R221: the effect, the response and the frame of `ARM`. That its `LineRelease()` is recorded as a line event is the model's
reading (log 15). -/
def Obligations.ArmEffect : Prop :=
  ∀ s : State, s.lifecycle = .unarmed →
    exec .arm s =
      .next (answered 0#4 0#64 { s with
        txq := []
        rxq := []
        engCmd := 0#32
        engBitcnt := 0#6
        engOsr := 0#16
        engIsr := 0#32
        lineOe := false
        lineLog := .release :: s.lineLog
        engState := .fetch
        lifecycle := .armed })

/-- 10_state R22, 70 R290: the lifecycle goes from UNARMED to ARMED by `ARM` only and back by block reset only. That block reset is an
input of the platform is the model's choice (log 9). -/
def Obligations.LifecycleOneWay : Prop :=
  ∀ s t : State, step s = .next t →
    (s.lifecycle = .unarmed → t.lifecycle = .armed →
      ∃ code arg is, s.hostOp = .idle ∧ s.inputs = .request code arg :: is ∧ decodeRequest code arg = .ok .arm) ∧
    (s.lifecycle = .armed → t.lifecycle = .unarmed →
      ∃ is, s.inputs = .blockReset :: is ∧ t.inputs = is ∧ t.epoch = s.epoch + 1)

/-! ### The link layer -/

/-- 44_link_layer R225, R226, R227, R228, R230, R239, 20_memory R62: with a free slot the one-word operations put their word at the tail
of `TXQ` and answer `OK, 0`, blocking or not. -/
def Obligations.OneWordOperationsEnqueue : Prop :=
  ∀ (s : State) (b : Bool) (i : Instr) (w : QWord), pushesOne s.cfg b i w → s.lifecycle = .armed → s.txq.length < 4 →
    exec i s = .next (answered 0#4 0#64 { s with txq := s.txq ++ [w] })

/-- 20_memory R62, 44_link_layer R238, R240, 60_exceptions R261: with `TXQ` full a non-blocking operation that pushes answers
`QueueFull, 0` and enqueues nothing. -/
def Obligations.FullQueueRefusesNonBlocking : Prop :=
  ∀ (s : State) (i : Instr), s.lifecycle = .armed → s.txq.length = 4 →
    ((∃ w, pushesOne s.cfg false i w) ∨ i = .llReadByte false ∨ i = .llReadWord false ∨ (∃ a, i = .llMatchRom false a)) →
    exec i s = .next (answered 1#4 0#64 s)

/-- 20_memory R62, 44_link_layer R222: with `TXQ` full every blocking operation that pushes holds as it starts: nothing changes but that it
is in progress, the host has no step until a slot is free, and then its first word goes in: a one-word operation answers `OK, 0`, any other
is where it is after its first push. The grain of a host operation is the model's reading (log 6). -/
def Obligations.FullQueueHoldsBlocking : Prop :=
  ∀ s : State, s.lifecycle = .armed → s.txq.length = 4 →
    (∀ i w, pushesOne s.cfg true i w →
      ∃ op, exec i s = .next { s with hostOp := op } ∧
        ∀ u : State, u.hostOp = op → (hostReady u = true ↔ u.txq.length < 4) ∧
          (u.txq.length < 4 → hostStep u = .next (answered 0#4 0#64 { u with txq := u.txq ++ [w] }))) ∧
    (∀ i n, (i = .llReadByte true ∧ n = 8) ∨ (i = .llReadWord true ∧ n = 16) →
      ∃ op, exec i s = .next { s with hostOp := op } ∧
        ∀ u : State, u.hostOp = op → (hostReady u = true ↔ u.txq.length < 4) ∧
          (u.txq.length < 4 → hostStep u = .next { u with txq := u.txq ++ [readWord n], hostOp := unitOp true n })) ∧
    (∀ a : Word64, exec (.llMatchRom true a) s = .next { s with hostOp := matchOp s.cfg true a 0 } ∧
      ∀ u : State, u.hostOp = matchOp s.cfg true a 0 → (hostReady u = true ↔ u.txq.length < 4) ∧
        (u.txq.length < 4 →
          hostStep u = .next { u with txq := u.txq ++ (matchWords s.cfg a).take 1, hostOp := matchOp s.cfg true a 1 })) ∧
    (∀ count, 1 ≤ count → count ≤ 16 → exec (.llReadBytes true count) s = .next { s with hostOp := readOp true count 0 } ∧
      ∀ u : State, u.hostOp = readOp true count 0 → (hostReady u = true ↔ u.txq.length < 4) ∧
        (u.txq.length < 4 →
          hostStep u = .next { u with txq := u.txq ++ ((readTable count).take 1).map readWord, hostOp := readOp true count 1 }))

/-- 44_link_layer R231, R232, 20_memory R65, R75: `LL_PULL count` takes the word at the head of `RXQ`, whichever read it belongs to, and
answers its top `count` bits; with `RXQ` empty the non-blocking form answers `QueueEmpty, 0` and the blocking form holds until there is
a word. The grain of a host operation is the model's reading (log 6). -/
def Obligations.PullEffect : Prop :=
  ∀ (s : State) (b : Bool) (count : Nat), s.lifecycle = .armed → 1 ≤ count → count ≤ 32 →
    (∀ w r, s.rxq = w :: r → exec (.llPull b count) s =
      .next (answered 0#4 ((w >>> (32 - count)).setWidth 64) { s with rxq := r })) ∧
    (s.rxq = [] → b = false → exec (.llPull b count) s = .next (answered 2#4 0#64 s)) ∧
    (s.rxq = [] → b = true →
      ∃ op, exec (.llPull b count) s = .next { s with hostOp := op } ∧
        ∀ u : State, u.hostOp = op → (hostReady u = true ↔ u.rxq ≠ []) ∧
          ∀ w r, u.rxq = w :: r → hostStep u = .next (answered 0#4 ((w >>> (32 - count)).setWidth 64) { u with rxq := r }))

/-- 44_link_layer R240, R241: `LL_READ_BYTE` and `LL_READ_WORD` push one read command; their next step pops one result and answers its
top 8 or 16 bits; the non-blocking form answers `QueueEmpty, 1` when none is there. The grain of a host operation is the model's reading
(log 6). -/
def Obligations.UnitReadsEffect : Prop :=
  ∀ (s : State) (b : Bool) (i : Instr) (n : Nat),
    ((i = .llReadByte b ∧ n = 8) ∨ (i = .llReadWord b ∧ n = 16)) → s.lifecycle = .armed → s.txq.length < 4 →
    exec i s = .next { s with txq := s.txq ++ [readWord n], hostOp := unitOp b n } ∧
      ∀ u : State, u.hostOp = unitOp b n →
        (∀ w r, u.rxq = w :: r → hostStep u = .next (answered 0#4 ((w >>> (32 - n)).setWidth 64) { u with rxq := r })) ∧
        (u.rxq = [] → b = false → hostStep u = .next (answered 2#4 1#64 u)) ∧
        (u.rxq = [] → b = true → hostReady u = false)

/-- 30_encoding R107, 60_exceptions R264, 42_search_engine R162: a size outside its range is answered `IllegalSize, 0` before any queue
access and any line event, whatever the queues hold; nothing but the response changes. -/
def Obligations.IllegalSizesRefused : Prop :=
  ∀ (s : State) (b : Bool) (count : Nat),
    (s.lifecycle = .armed → count = 0 ∨ 32 < count → exec (.llReadBits b count) s = .next (answered 3#4 0#64 s)) ∧
    (s.lifecycle = .armed → count = 0 ∨ 32 < count → exec (.llPull b count) s = .next (answered 3#4 0#64 s)) ∧
    (s.lifecycle = .armed → count = 0 ∨ 16 < count → exec (.llReadBytes b count) s = .next (answered 3#4 0#64 s)) ∧
    (16 < count → exec (.crcCompute count) s = .next (answered 3#4 0#64 s)) ∧
    (16 < count → exec (.crcCheck count) s = .next (answered 3#4 0#64 s)) ∧
    (s.lifecycle = .unarmed → s.cfg.resDepth < count → exec (.discover count) s = .next (answered 3#4 0#64 s))

/-- 44_link_layer R234, R236, R237: a non-blocking `LL_READ_BYTES` with too few free slots enqueues nothing and answers `QueueFull, 0`;
with room, while the host alone moves, its `m` read commands go into `TXQ` in the order of the table of R234; then with fewer than `m`
results ready it answers `QueueEmpty, m`, and with `m` or more it goes on to its `m` pops. The grain of a host operation is the model's
reading (log 6). -/
def Obligations.NonBlockingReadBytes : Prop :=
  ∀ (s : State) (count : Nat), s.lifecycle = .armed → 1 ≤ count → count ≤ 16 →
    (4 - s.txq.length < (readTable count).length → exec (.llReadBytes false count) s = .next (answered 1#4 0#64 s)) ∧
    ((readTable count).length ≤ 4 - s.txq.length →
      exec (.llReadBytes false count) s = .next { s with hostOp := readOp false count 1 } ∧
      (s.rxq.length < (readTable count).length →
        runSteps hostStep ((readTable count).length + 1) { s with hostOp := readOp false count 1 } =
          .next (answered 2#4 (BitVec.ofNat 64 (readTable count).length)
            { s with txq := s.txq ++ (readTable count).map readWord })) ∧
      ((readTable count).length ≤ s.rxq.length →
        runSteps hostStep ((readTable count).length + 1) { s with hostOp := readOp false count 1 } =
          .next { s with
            txq := s.txq ++ (readTable count).map readWord
            hostOp := .running false (readBytesPops count) (.check count) }))

/-- 44_link_layer R234, R236: a blocking `LL_READ_BYTES` with a free slot pushes its first read command as it starts and goes on with the
others, then with one pop for each (with `TXQ` full it holds, which another statement says). While the host alone moves and `TXQ` has
room for all, its commands are in `TXQ` in the order of the table of R234, and then it goes on to its pops, where it waits for each
result. The grain of a host operation is the model's reading (log 6). -/
def Obligations.BlockingReadBytes : Prop :=
  ∀ (s : State) (count : Nat), s.lifecycle = .armed → 1 ≤ count → count ≤ 16 → s.txq.length < 4 →
    exec (.llReadBytes true count) s =
      .next { s with txq := s.txq ++ ((readTable count).take 1).map readWord, hostOp := readOp true count 1 } ∧
    ((readTable count).length ≤ 4 - s.txq.length →
      runSteps hostStep ((readTable count).length - 1)
          { s with txq := s.txq ++ ((readTable count).take 1).map readWord, hostOp := readOp true count 1 } =
        .next { s with
          txq := s.txq ++ (readTable count).map readWord
          hostOp := .running true (readBytesPops count) (.check count) }) ∧
    (∀ (u : State) (j : Nat) (w : Nat), 1 ≤ j → (readTable count)[j]? = some w → u.hostOp = readOp true count j →
      (hostReady u = true ↔ u.txq.length < 4) ∧
      (u.txq.length < 4 → hostStep u = .next { u with txq := u.txq ++ [readWord w], hostOp := readOp true count (j + 1) })) ∧
    (∀ (u : State) (j : Nat), j < (readTable count).length →
      u.hostOp = .running true ((readBytesPops count).drop j) (.check count) → (hostReady u = true ↔ u.rxq ≠ []))

/-- 20_memory R73, R74, 44_link_layer R235, R236, R237: when the results of a byte read of `data` stand at the head of `RXQ`, the drain
of `LL_READ_BYTES` puts exactly these bytes into `BUF[0..]`, keeps the bytes above, takes just these words, and answers the CRC register
over `data`, `OK` when it is 0 and `ChecksumError` when not. The grain of a host operation is the model's reading (log 6). -/
def Obligations.ReadBytesReassembles : Prop :=
  ∀ (s : State) (b : Bool) (data : List Byte) (rest : List QWord), 1 ≤ data.length → data.length ≤ 16 →
    s.hostOp = .running b (readBytesPops data.length) (.check data.length) → s.rxq = slotsOf data ++ rest →
    ∃ buf, buf.toList = data ++ s.buf.toList.drop data.length ∧
      runSteps hostStep (slotsOf data).length s =
        .next (answered (if crc8 data = 0x00#8 then 0#4 else 4#4) ((crc8 data).setWidth 64)
          { s with rxq := rest, buf := buf, crc := crc8 data })

/-- 44_link_layer R236: past a check of a non-blocking `LL_READ_BYTES` the room, or the results, it found are still there after every
step of either agent, and they are enough for its next push or pop, which so cannot fail. The grain of a host operation is the model's
reading (log 6). -/
def Obligations.CheckedReadNeverFails : Prop :=
  (∀ s t : State, checkedReadFits s → step s = .next t → checkedReadFits t) ∧
  (∀ (s : State) (rest : List Access) (count : Nat), checkedReadFits s →
    (∀ w sent, s.hostOp = .running false (.push w sent :: rest) (.check count) → s.txq.length < 4) ∧
    (∀ use owed, s.hostOp = .running false (.pop use owed :: rest) (.check count) → s.rxq ≠ []))

/-- 44_link_layer R238, 90 C6: `LL_MATCH_ROM` pushes its five words one by one, the low 16 bits of the address first: one as it starts,
one more in each of its steps while `TXQ` has room, `OK, 5` with the last. With `TXQ` full after `j` words the non-blocking form stops
with `QueueFull, j` and the blocking form holds; so with `f` free slots (1 to 4) and the host alone moving the non-blocking form leaves
`f` words in `TXQ` and answers `QueueFull, f`. The grain of a host operation is the model's reading (log 6). -/
def Obligations.MatchRomEffect : Prop :=
  ∀ (s : State) (b : Bool) (a : Word64), s.lifecycle = .armed → s.txq.length < 4 →
    exec (.llMatchRom b a) s =
      .next { s with txq := s.txq ++ (matchWords s.cfg a).take 1, hostOp := matchOp s.cfg b a 1 } ∧
    (∀ (u : State) (j : Nat) (w : QWord), 1 ≤ j → u.hostOp = matchOp s.cfg b a j → (matchWords s.cfg a)[j]? = some w →
      (u.txq.length < 4 → j < 4 →
        hostStep u = .next { u with txq := u.txq ++ [w], hostOp := matchOp s.cfg b a (j + 1) }) ∧
      (u.txq.length < 4 → j = 4 → hostStep u = .next (answered 0#4 5#64 { u with txq := u.txq ++ [w] })) ∧
      (u.txq.length = 4 → b = false → hostStep u = .next (answered 1#4 (BitVec.ofNat 64 j) u)) ∧
      (u.txq.length = 4 → b = true → hostReady u = false)) ∧
    (b = false →
      runSteps hostStep (4 - s.txq.length)
          { s with txq := s.txq ++ (matchWords s.cfg a).take 1, hostOp := matchOp s.cfg b a 1 } =
        .next (answered 1#4 (BitVec.ofNat 64 (4 - s.txq.length))
          { s with txq := s.txq ++ (matchWords s.cfg a).take (4 - s.txq.length) }))

/-- 44_link_layer R222, 60_exceptions R276: a blocking operation never answers `QueueFull` or `QueueEmpty`, neither in the step that starts
it nor later, and a non-blocking one never holds, neither as it starts nor later. The grain of a host operation is the model's reading
(log 6). -/
def Obligations.BlockingDisciplines : Prop :=
  (∀ (i : Instr) (s t : State), llFlag i = some true → exec i s = .next t → t.hostOp = .idle →
    t.rspStatus ≠ 1#4 ∧ t.rspStatus ≠ 2#4) ∧
  (∀ (i : Instr) (s t : State), llFlag i = some false → exec i s = .next t → t.hostOp = .idle ∨ hostReady t = true) ∧
  (∀ (s t : State) (todo : List Access) (fin : Finish), s.hostOp = .running true todo fin → hostStep s = .next t →
    (∃ rest fin', t.hostOp = .running true rest fin') ∨ (t.hostOp = .idle ∧ (t.rspStatus = 0#4 ∨ t.rspStatus = 4#4))) ∧
  (∀ (s t : State) (todo : List Access) (fin : Finish), s.hostOp = .running false todo fin →
    hostReady s = true ∧ (hostStep s = .next t → t.hostOp = .idle ∨ hostReady t = true))

/-! ### The transfer engine -/

/-- 43_transfer_engine R192, R193, 20_memory R63: a fetch takes the head of `TXQ` into `eng_cmd`; a reserved word sets `eng_fault` and
stops the engine, with the line and `RXQ` untouched; any other starts its command. -/
def Obligations.FetchStep : Prop :=
  ∀ (s : State) (w : QWord) (r : List QWord), s.engState = .fetch → s.txq = w :: r →
    engineReady s = true ∧
    (∀ e, decodeCommand w = .error e →
      engineStep s = .next { s with txq := r, engCmd := w, engFault := true, engState := .fault }) ∧
    (∀ i, decodeCommand w = .ok i → engineStep s = exec i { s with txq := r, engCmd := w })

/-- 43_transfer_engine R193: in `ENG_FAULT` the engine never steps again, and only block reset leaves that state: every step that is not a
block reset keeps `eng_fault`, `ENG_FAULT` and every word of `TXQ`. That `ENG_FAULT` is a state and no stop of the step is the model's reading (log 10). -/
def Obligations.EngineFaultIsForGood : Prop :=
  ∀ s t : State, s.engState = .fault → s.lifecycle = .armed → engineReady s = false ∧
    (step s = .next t → (∃ is, s.inputs = .blockReset :: is ∧ t.inputs = is ∧ t.epoch = s.epoch + 1) ∨
      (t.engState = .fault ∧ t.engFault = s.engFault ∧ ∃ ws, t.txq = s.txq ++ ws))

/-- 43_transfer_engine R194: the command `RESET`: its word; whole in its fetch step, four line events, no sample and no other change. -/
def Obligations.EngineResetEffect : Prop :=
  decodeCommand 0x10000000#32 = .ok .reset ∧
  ∀ s : State, s.engState = .fetch →
    exec .reset s =
      .next (lineMoved [.low, .delay s.cfg.tRstl, .release, .delay s.cfg.tRsth] 0 s)

/-- 43_transfer_engine R195: `WAITIDLE`: its word; it enters `ENG_EXEC` and there each step is one sample, and the command ends at a high
one. -/
def Obligations.WaitIdleEffect : Prop :=
  decodeCommand 0x20000000#32 = .ok .waitIdle ∧
  ∀ s : State,
    (s.engState = .fetch → exec .waitIdle s = .next { s with engState := .exec }) ∧
    (s.engState = .exec → ∃ b, levelsGiven [b] s ∧
      exec .waitIdle s =
        .next { s with
          samples := s.samples.drop 1
          lineLog := .sample b :: s.lineLog
          engState := if b then .fetch else .exec })

/-- 43_transfer_engine R192, R196: the set-up and one slot of `WRBITS n, value`. That a pad of negative length is `Delay(0)` is the model's
choice (log 13). -/
def Obligations.WrBitsEffect : Prop :=
  ∀ (n : Nat) (v : BitVec 16) (s : State), 1 ≤ n → n ≤ 16 →
    (s.engState = .fetch → exec (.wrBits n v) s =
      .next { s with engOsr := v, engBitcnt := BitVec.ofNat 6 n, engState := .exec }) ∧
    (s.engState = .exec → 1 ≤ s.engBitcnt.toNat → ∃ left : BitVec 6, left.toNat + 1 = s.engBitcnt.toNat ∧
      exec (.wrBits n v) s =
        .next { lineMoved (slotEvents s.cfg (s.engOsr.getLsbD 0)) 0 s with
          engOsr := s.engOsr >>> 1
          engBitcnt := left
          engState := if left.toNat = 0 then .fetch else .exec })

/-- 43_transfer_engine R192, R198, R199, 20_memory R64: the set-up, one slot, and the delivery of `RDBITS n`; while `RXQ` is full the
engine holds. -/
def Obligations.RdBitsEffect : Prop :=
  ∀ (n : Nat) (s : State), 1 ≤ n → n ≤ 32 →
    (s.engState = .fetch → exec (.rdBits n) s =
      .next { s with engIsr := 0#32, engBitcnt := BitVec.ofNat 6 n, engState := .exec }) ∧
    (s.engState = .exec → 1 ≤ s.engBitcnt.toNat →
      ∃ (b : Bool) (left : BitVec 6) (isr : QWord), levelsGiven [b] s ∧ left.toNat + 1 = s.engBitcnt.toNat ∧
        isr.getLsbD 31 = b ∧ (∀ k, k < 31 → isr.getLsbD k = s.engIsr.getLsbD (k + 1)) ∧
        exec (.rdBits n) s =
          .next { lineMoved (readEvents s.cfg b) 1 s with
            engIsr := isr
            engBitcnt := left
            engState := if left.toNat = 0 then .push else .exec }) ∧
    (s.engState = .push → s.rxq.length < 4 → engineStep s = .next { s with rxq := s.rxq ++ [s.engIsr], engState := .fetch } ∧
      exec (.rdBits n) s = engineStep s) ∧
    (s.engState = .push → s.rxq.length = 4 → engineReady s = false)

/-- 43_transfer_engine R196, 20_memory R72: a `WRBITS n, value` run to its end writes the `n` low bits of `value`, bit 0 first, leaves
`RXQ` alone and returns to `ENG_FETCH`. That a pad of negative length is `Delay(0)` is the model's choice (log 13). -/
def Obligations.WriteCommandRuns : Prop :=
  ∀ (n : Nat) (v : BitVec 16) (s : State), 1 ≤ n → n ≤ 16 → s.engState = .fetch → decodeCommand s.engCmd = .ok (.wrBits n v) →
    ∃ t, exec (.wrBits n v) s = .next t ∧
      runSteps engineStep n t =
        .next { lineMoved (slotsEvents s.cfg ((List.range n).map v.getLsbD)) 0 s with
          engOsr := v >>> n
          engBitcnt := 0#6
          engState := .fetch }

/-- 43_transfer_engine R198, 20_memory R73, 44_link_layer R231: a `RDBITS n` run over its `n` slots has, in `ENG_PUSH`, the samples at the
top of `eng_isr`, the first lowest, over zeros; so the extraction of `n` bits gives the first sample at bit 0. -/
def Obligations.ReadCommandPacks : Prop :=
  ∀ (n : Nat) (s : State) (bs rest : List Bool), 1 ≤ n → n ≤ 32 → bs.length = n → s.engState = .fetch →
    decodeCommand s.engCmd = .ok (.rdBits n) → s.samples = bs ++ rest →
    ∃ (t : State) (isr : QWord), exec (.rdBits n) s = .next t ∧
      runSteps engineStep n t =
        .next { lineMoved (bs.flatMap (readEvents s.cfg)) n s with engIsr := isr, engBitcnt := 0#6, engState := .push } ∧
      (∀ k, k < n → isr.getLsbD (32 - n + k) = bs.getD k false) ∧
      (∀ k, k < 32 - n → isr.getLsbD k = false) ∧
      (∀ k, (extract isr n).getLsbD k = bs.getD k false)

/-- 43_transfer_engine R200: the transitions of `eng_state` in an engine step. That a word with no step in `ENG_EXEC` has none is the
model's choice (log 12). -/
def Obligations.EngineTransitions : Prop :=
  ∀ s : State, engineReady s = true →
    ∃ t, engineStep s = .next t ∧
      ((s.engState = .fetch ∧ ∃ w r, s.txq = w :: r ∧ t.txq = r ∧ t.engCmd = w ∧
          ((w = 0x10000000#32 ∧ t.engState = .fetch) ∨
           ((w = 0x20000000#32 ∨ w.extractLsb' 20 12 = 0x300#12 ∨ w.extractLsb' 5 27 = 0x2000000#27) ∧ t.engState = .exec) ∨
           (decodeCommand w = .error (.reservedCommand w) ∧ t.engState = .fault ∧ t.engFault = true))) ∨
       (s.engState = .exec ∧ t.txq = s.txq ∧ t.rxq = s.rxq ∧ t.engCmd = s.engCmd ∧
          ((s.engCmd = 0x20000000#32 ∧ t.engState = (if nextLevel s then .fetch else .exec)) ∨
           (s.engCmd.extractLsb' 20 12 = 0x300#12 ∧ t.engState = (if s.engBitcnt = 1#6 then .fetch else .exec)) ∨
           (s.engCmd.extractLsb' 5 27 = 0x2000000#27 ∧ t.engState = (if s.engBitcnt = 1#6 then .push else .exec)))) ∨
       (s.engState = .push ∧ s.rxq.length < 4 ∧ t.engState = .fetch ∧ t.rxq = s.rxq ++ [s.engIsr] ∧ t.txq = s.txq))

/-! ### The machine as a whole -/

/-- 00_scope R16, 30_encoding R90, 43_transfer_engine R192: when the host moves, no operation is in progress and its next input is a
request that decodes to `i`, the step is `exec i` with the request taken; when the engine moves in `ENG_FETCH` and the head of `TXQ`
decodes to `i`, the step is `exec i` with the word taken into `eng_cmd`. A choice between agents that can move uses up one turn. Placing
an encoded instruction makes the very next step run it. The choices between agents and the placing are the model's own (log 2, log 5). -/
def Obligations.StepRunsDecodedInstruction : Prop :=
  (∀ (s : State) (code : BitVec 8) (arg : Word64) (is : List Input) (i : Instr),
    s.hostOp = .idle → s.inputs = .request code arg :: is → decodeRequest code arg = .ok i →
    (engineReady s = false → step s = exec i { s with inputs := is }) ∧
    (engineReady s = true → ∀ ts, s.turns = .host :: ts → step s = exec i { s with inputs := is, turns := ts })) ∧
  (∀ (s : State) (w : QWord) (r : List QWord) (i : Instr),
    s.engState = .fetch → s.txq = w :: r → decodeCommand w = .ok i →
    (hostReady s = false → platformReady s = false → step s = exec i { s with txq := r, engCmd := w }) ∧
    ((hostReady s || platformReady s) = true → ∀ ts, s.turns = .engine :: ts →
      step s = exec i { s with txq := r, engCmd := w, turns := ts })) ∧
  (∀ (s : State) (nbits w : Nat) (i : Instr), decodeTableWord nbits w = some i →
    (nbits ≠ 32 → step (s.withFetchWord nbits w) = exec i { s with hostOp := .idle }) ∧
    (nbits = 32 → step (s.withFetchWord nbits w) =
      exec i { s with lifecycle := .armed, engState := .fetch, txq := s.txq.tail, engCmd := BitVec.ofNat 32 w }))

/-- 70 R290, R291, R292: block reset, signalled by the platform: the registers after it, whatever the state before. What is in `BUF` and
`RES` is left open by the spec. That the parameters stay is the model's choice (log 9). -/
def Obligations.BlockResetState : Prop :=
  ∀ (s : State) (is : List Input), s.inputs = .blockReset :: is →
    ∃ t, platformStep s = .next t ∧ t.inputs = is ∧
      t.lifecycle = .unarmed ∧ t.lineOe = false ∧ t.crc = 0x00#8 ∧ t.current = 0#64 ∧ t.discrepancy = 0#64 ∧
      t.lastBranchTaken = 64#7 ∧ t.bitIdx = 0#7 ∧ t.seState = .idle ∧ t.count = 0 ∧ t.maxDev = 0 ∧ t.txq = [] ∧ t.rxq = [] ∧
      t.engState = .off ∧ t.engCmd = 0#32 ∧ t.engBitcnt = 0#6 ∧ t.engOsr = 0#16 ∧ t.engIsr = 0#32 ∧ t.engFault = false ∧
      t.rspStatus = 0#4 ∧ t.rspData = 0#64 ∧ t.status = 0x0000#16 ∧ t.hostOp = .idle ∧ t.cfg = s.cfg ∧
      t.res.length = s.cfg.resDepth

/-- 10_state R35: the fields of `STATUS`. -/
def Obligations.StatusFields : Prop :=
  ∀ s : State, s.txq.length ≤ 4 → s.rxq.length ≤ 4 →
    (s.status.getLsbD 0 = decide (s.lifecycle = .armed)) ∧
    (s.status.extractLsb' 1 3).toNat = s.txq.length ∧ (s.status.extractLsb' 4 3).toNat = s.rxq.length ∧
    (s.status.getLsbD 7 = decide (s.engState = .exec ∨ s.engState = .push)) ∧
    s.status.getLsbD 8 = s.engFault ∧ s.status.getLsbD 9 = s.lineOe ∧ s.status.extractLsb' 10 6 = 0#6

/-- 70 R291 with 00_scope R12, 10_state R22, R23, R27 to R33: the shape of the state holds at reset, and no reserved word is on its way to
the engine there. That the waiting inputs are none and `RES_DEPTH` is 4 there is the model's choice (log 1, log 5). -/
def Obligations.ShapeAtReset : Prop := Inv State.reset ∧ NoReservedWord State.reset

/-- 10_state R22, R23, R27, R28, R29, R31, R32, R33, 43_transfer_engine R191, 60_exceptions R260: every step keeps the shape of the
state. -/
def Obligations.StepKeepsShape : Prop := ∀ s t : State, Inv s → step s = .next t → Inv t

/-- 10_state R33, 30_encoding R106: no host operation puts a reserved word into `TXQ`, so `eng_fault` stays 0: every step keeps this. -/
def Obligations.StepKeepsNoReservedWord : Prop := ∀ s t : State, NoReservedWord s → step s = .next t → NoReservedWord t

/-- 20_memory R79, R84, 10_state R23: the history of the line only grows; while armed no host step makes a line event, samples or drives
the line; the engine has a step only while armed. The history is the model's own field (log 19). -/
def Obligations.LineDriversApart : Prop :=
  (∀ s t : State, step s = .next t → ∃ new, t.lineLog = new ++ s.lineLog) ∧
  (∀ s t : State, s.lifecycle = .armed → hostStep s = .next t →
    t.lineLog = s.lineLog ∧ t.lineOe = s.lineOe ∧ t.samples = s.samples) ∧
  (∀ s : State, Inv s → engineReady s = true → s.lifecycle = .armed)

/-- 20_memory R66, R69, R82: while armed a host step leaves `TXQ` or adds one word at its tail, and leaves `RXQ` or takes its head; an
engine step leaves `TXQ` or takes its head, and leaves `RXQ` or adds `eng_isr` at its tail; so words keep their order. -/
def Obligations.QueuesAreFifo : Prop :=
  (∀ s t : State, s.lifecycle = .armed → hostStep s = .next t →
    (t.txq = s.txq ∨ ∃ w, t.txq = s.txq ++ [w]) ∧ (t.rxq = s.rxq ∨ t.rxq = s.rxq.tail)) ∧
  (∀ s t : State, engineStep s = .next t →
    (t.txq = s.txq ∨ ∃ w, s.txq = w :: t.txq ∧ t.engCmd = w) ∧ (t.rxq = s.rxq ∨ t.rxq = s.rxq ++ [s.engIsr]))

/-- 43_transfer_engine R190, 00_scope R16, 20_memory R60, 10_state R21: an engine step touches nothing but the queues, the engine registers
and the line; while armed a host step touches no engine register, no search register, not `RES` and not the line; no step changes a
parameter. -/
def Obligations.AgentsTouchOnlyTheirOwn : Prop :=
  (∀ s t : State, engineStep s = .next t →
    t = { s with
      txq := t.txq
      rxq := t.rxq
      engState := t.engState
      engCmd := t.engCmd
      engBitcnt := t.engBitcnt
      engOsr := t.engOsr
      engIsr := t.engIsr
      engFault := t.engFault
      lineOe := t.lineOe
      samples := t.samples
      lineLog := t.lineLog }) ∧
  (∀ s t : State, s.lifecycle = .armed → hostStep s = .next t →
    t = { s with
      txq := t.txq
      rxq := t.rxq
      crc := t.crc
      buf := t.buf
      rspStatus := t.rspStatus
      rspData := t.rspData
      hostOp := t.hostOp
      inputs := t.inputs }) ∧
  (∀ s t : State, step s = .next t → t.cfg = s.cfg)

/-- 10_state R38 (c), 43_transfer_engine R199, 70 R304: an engine step keeps the number of outstanding reads, and with at most four of
them the engine never stalls on a full `RXQ`. -/
def Obligations.OutstandingReadsConserved : Prop :=
  (∀ s t : State, engineStep s = .next t → outstandingReads t = outstandingReads s) ∧
  (∀ s : State, outstandingReads s ≤ 4 → engineStalled s = false)

/-- 44_link_layer R233: a blocking pull with `RXQ` empty and no read outstanding holds for ever: no run of the engine alone gives it a
word. -/
def Obligations.UnmatchedPullHoldsForever : Prop :=
  ∀ (s t : State) (use : PopUse) (owed : Nat) (rest : List Access) (fin : Finish) (n : Nat),
    s.hostOp = .running true (.pop use owed :: rest) fin → outstandingReads s = 0 → runSteps engineStep n s = .next t →
    t.rxq = [] ∧ t.hostOp = s.hostOp ∧ hostReady t = false

/-- 70 R304, 60_exceptions R272 (b): a blocking push with `TXQ` full and the engine in `ENG_PUSH` with `RXQ` full: neither agent has a
step, and the step of the model is the fault `hostHeldForever`. The fault and its name are the model's own (log 7). -/
def Obligations.UnpulledReadsDeadlock : Prop :=
  ∀ (s : State) (w : QWord) (sent : Nat) (rest : List Access) (fin : Finish),
    s.hostOp = .running true (.push w sent :: rest) fin → s.txq.length = 4 → s.engState = .push → s.rxq.length = 4 →
    platformReady s = false → step s = .fault .hostHeldForever

/-- 60_exceptions R272: the model's step stops in no other case: when it is a fault, an operation in progress holds and the engine has
no step; it never refuses. The fault and its name are the model's own (log 7). -/
def Obligations.StepStopsOnlyWhenHeld : Prop :=
  ∀ s : State, (∀ r, step s ≠ .refused r) ∧
    (∀ f, step s = .fault f →
      f = .hostHeldForever ∧ s.hostOp ≠ .idle ∧ hostReady s = false ∧ engineReady s = false ∧ platformReady s = false)

/-- 70 R311: quiescence, the end of a run and the clean end in terms of `STATUS` and of the inputs that wait: only direct `BUF` writes may
wait before the next block reset, if any. At a clean end `STATUS` is 0x0000 or 0x0001; in a quiescent state the engine has no step. That
what the host does next is a list of inputs is the model's choice (log 5, log 9). -/
def Obligations.QuiescenceByStatus : Prop :=
  ∀ s : State, Inv s →
    (quiescent s = true ↔ s.hostOp = .idle ∧ s.status &&& 0x038E#16 = 0#16) ∧
    (runEnded s = true ↔ (∃ now later, s.inputs = now ++ later ∧ (∀ x ∈ now, ∃ i v, x = .bufWrite i v) ∧
      (later = [] ∨ ∃ is, later = .blockReset :: is)) ∧ s.hostOp = .idle ∧ s.status &&& 0x038E#16 = 0#16) ∧
    (cleanEnd s = true ↔ runEnded s = true ∧ s.status &&& 0x03FE#16 = 0#16) ∧
    (cleanEnd s = true → s.status = if s.lifecycle = .armed then 0x0001#16 else 0x0000#16) ∧
    (quiescent s = true → engineReady s = false)

/-- 20_memory R67, R70: a host write of `BUF[i]`, between operations, changes that byte and no other, and nothing else. That the write
is an input of the host is the model's choice (log 5). -/
def Obligations.HostBufWrite : Prop :=
  ∀ (s : State) (i : Fin 16) (v : Byte) (is : List Input), s.hostOp = .idle → s.inputs = .bufWrite i v :: is →
    ∃ buf, hostStep s = .next { s with inputs := is, buf := buf } ∧ buf[i] = v ∧ ∀ j : Fin 16, j ≠ i → buf[j] = s.buf[j]
end

