-- ==== Sys2Proof/Laws/Encoding.lean ====
section
/-! SUPPORT. The fields of a request code and of a command word, and what the words of the encoder decode to. -/

namespace Sys2Proof

open Machine

@[simp] theorem fitsArg_iff (n : Nat) : fitsArg n = true ↔ n < 2 ^ 64 := by simp [fitsArg]

@[simp] theorem wrCountOk_iff (n : Nat) : wrCountOk n = true ↔ 1 ≤ n ∧ n ≤ 16 := by
  simp only [wrCountOk, Bool.and_eq_true, decide_eq_true_eq]; rfl

@[simp] theorem rdCountOk_iff (n : Nat) : rdCountOk n = true ↔ 1 ≤ n ∧ n ≤ 32 := by
  simp only [rdCountOk, Bool.and_eq_true, decide_eq_true_eq]; rfl

/-! ### Request codes -/

theorem reqOp_reqCode (b : Bool) (op : BitVec 5) : reqOp (reqCode b op) = op := by revert b op; decide

theorem reqZero_reqCode (b : Bool) (op : BitVec 5) : reqZero (reqCode b op) = 0#2 := by revert b op; decide

theorem reqBlocking_reqCode (b : Bool) (op : BitVec 5) : reqBlocking (reqCode b op) = b := by revert b op; decide

/-- A code with its zero field 0 is built from its flag and its operation number. -/
theorem reqCode_of_fields (code : BitVec 8) (h : reqZero code = 0#2) :
    reqCode (reqBlocking code) (reqOp code) = code := by
  revert code; decide

/-- A request whose code is built from fields is decided by the opcode map alone. -/
theorem decodeRequest_reqCode (b : Bool) (op : BitVec 5) (arg : Word64) :
    decodeRequest (reqCode b op) arg =
      match hostOperation op.toNat b arg with
      | some i => .ok i
      | none => .error (.reservedRequest (reqCode b op)) := by
  simp only [decodeRequest, reqZero_reqCode, reqOp_reqCode, reqBlocking_reqCode]
  rfl

/-- The opcode map names an operation for 0x00 to 0x12 and none above. -/
theorem hostOperation_isNone (op : Nat) (b : Bool) (arg : Word64) : hostOperation op b arg = none ↔ 0x13 ≤ op := by
  constructor
  · intro h
    by_contra hlt
    have : op < 0x13 := by omega
    interval_cases op <;> simp [hostOperation] at h
  · intro h
    obtain ⟨k, rfl⟩ : ∃ k, op = k + 0x13 := ⟨op - 0x13, by omega⟩
    rfl

/-- What decoding a request says about its code. -/
theorem decodeRequest_ok {code : BitVec 8} {arg : Word64} {i : Instr} (h : decodeRequest code arg = .ok i) :
    reqZero code = 0#2 ∧ hostOperation (reqOp code).toNat (reqBlocking code) arg = some i := by
  unfold decodeRequest at h
  split at h
  · cases h
  · rename_i hz
    split at h
    · rename_i j hj
      cases h
      exact ⟨not_not.mp hz, hj⟩
    · cases h

/-- A request decodes to a host operation, never to a command word. -/
theorem hostOperation_cases {op : Nat} {b : Bool} {arg : Word64} {i : Instr} (h : hostOperation op b arg = some i) :
    (op = 0x00 ∧ i = .crcCompute arg.toNat) ∨ (op = 0x01 ∧ i = .crcCheck arg.toNat) ∨ (op = 0x02 ∧ i = .btReset) ∨
    (op = 0x03 ∧ i = .btWriteBit (arg.getLsbD 0)) ∨ (op = 0x04 ∧ i = .btWriteByte (arg.extractLsb' 0 8)) ∨
    (op = 0x05 ∧ i = .btReadBit) ∨ (op = 0x06 ∧ i = .discover arg.toNat) ∨ (op = 0x07 ∧ i = .arm) ∨
    (op = 0x08 ∧ i = .llReset b) ∨ (op = 0x09 ∧ i = .llWaitIdle b) ∨
    (op = 0x0A ∧ i = .llWriteByte b (arg.extractLsb' 0 8)) ∨ (op = 0x0B ∧ i = .llWriteWord b (arg.extractLsb' 0 16)) ∨
    (op = 0x0C ∧ i = .llReadBits b arg.toNat) ∨ (op = 0x0D ∧ i = .llPull b arg.toNat) ∨
    (op = 0x0E ∧ i = .llReadBytes b arg.toNat) ∨ (op = 0x0F ∧ i = .llMatchRom b arg) ∨ (op = 0x10 ∧ i = .llSkipRom b) ∨
    (op = 0x11 ∧ i = .llReadByte b) ∨ (op = 0x12 ∧ i = .llReadWord b) := by
  have hlt : op < 0x13 := by
    by_contra hge
    rw [(hostOperation_isNone op b arg).mpr (by omega)] at h
    cases h
  interval_cases op <;> simp [hostOperation] at h <;> simp [h]

/-- What a request decodes to is encoded as a request. -/
theorem encode_of_decodeRequest {code : BitVec 8} {arg : Word64} {i : Instr} (h : decodeRequest code arg = .ok i) :
    ∃ code' arg', encode i = .request code' arg' := by
  have ho := (decodeRequest_ok h).2
  generalize (reqOp code).toNat = op at ho
  have hlt : op < 0x13 := by
    by_contra hge
    rw [(hostOperation_isNone op _ arg).mpr (by omega)] at ho
    cases ho
  interval_cases op <;> injection ho with ho <;> subst ho <;> exact ⟨_, _, rfl⟩

/-! ### Command words -/

/-- The bits of the word of a `WRBITS`. -/
theorem wrBitsWord_getLsbD (n : Nat) (v : BitVec 16) (i : Nat) :
    (wrBitsWord n v).getLsbD i =
      if i < 16 then v.getLsbD i
      else if i < 20 then (BitVec.ofNat 4 (n - 1)).getLsbD (i - 16) else (0x300#12).getLsbD (i - 20) := by
  have : wrBitsWord n v = 0x300#12 ++ BitVec.ofNat 4 (n - 1) ++ v := rfl
  rw [this]
  simp only [BitVec.getLsbD_append]
  split
  · rfl
  · by_cases h : i < 20
    · rw [if_pos (by omega), if_pos h]
    · rw [if_neg (by omega), if_neg h, Nat.sub_sub]

theorem decodeCommand_wrBitsWord (n : Nat) (v : BitVec 16) (h : wrCountOk n = true) :
    decodeCommand (wrBitsWord n v) = .ok (.wrBits n v) := by
  rw [wrCountOk_iff] at h
  have e1 : (wrBitsWord n v).extractLsb' 16 4 = BitVec.ofNat 4 (n - 1) := by
    apply BitVec.eq_of_getLsbD_eq
    intro i hi
    simp only [BitVec.getLsbD_extractLsb', wrBitsWord_getLsbD]
    rw [if_neg (by omega), if_pos (by omega)]
    simp [hi]
  have e2 : (wrBitsWord n v).extractLsb' 0 16 = v := by
    apply BitVec.eq_of_getLsbD_eq
    intro i hi
    simp only [BitVec.getLsbD_extractLsb', wrBitsWord_getLsbD]
    rw [if_pos (by omega)]
    simp [hi]
  have e3 : wrBitsWord n v &&& 0xFFF00000#32 = 0x30000000#32 := by
    apply BitVec.eq_of_getLsbD_eq
    intro i hi
    simp only [wrBitsWord_getLsbD, BitVec.getLsbD_and]
    interval_cases i <;> simp
  have e4 : (wrBitsWord n v).getLsbD 28 = true ∧ (wrBitsWord n v).getLsbD 29 = true := by
    rw [wrBitsWord_getLsbD, wrBitsWord_getLsbD]
    exact ⟨rfl, rfl⟩
  unfold decodeCommand
  rw [if_neg, if_neg, if_pos e3, e1, e2]
  · have : (n - 1) % 16 = n - 1 := by omega
    rw [BitVec.toNat_ofNat, show 2 ^ 4 = 16 from rfl, this, show n - 1 + 1 = n by omega]
  · intro h; rw [h] at e4; revert e4; decide
  · intro h; rw [h] at e4; revert e4; decide

theorem decodeCommand_rdBitsWord (n : Nat) (h : rdCountOk n = true) : decodeCommand (rdBitsWord n) = .ok (.rdBits n) := by
  rw [rdCountOk_iff] at h
  obtain ⟨h1, h2⟩ := h
  interval_cases n <;> rfl

/-- A command word decodes to one of the four commands, with a count in range. -/
theorem decodeCommand_cases {w : QWord} {i : Instr} (h : decodeCommand w = .ok i) :
    (w = 0x10000000#32 ∧ i = .reset) ∨ (w = 0x20000000#32 ∧ i = .waitIdle) ∨
    (w &&& 0xFFF00000#32 = 0x30000000#32 ∧ i = .wrBits ((w.extractLsb' 16 4).toNat + 1) (w.extractLsb' 0 16)) ∨
    (w &&& 0xFFFFFFE0#32 = 0x40000000#32 ∧ i = .rdBits ((w.extractLsb' 0 5).toNat + 1)) := by
  unfold decodeCommand at h
  split at h
  · cases h; simp_all
  · split at h
    · cases h; simp_all
    · split at h
      · cases h; simp_all
      · split at h
        · cases h; simp_all
        · cases h

/-- A word the decoder rejects is rejected as itself. -/
theorem decodeCommand_error {w : QWord} {e : Reject} (h : decodeCommand w = .error e) : e = .reservedCommand w := by
  unfold decodeCommand at h
  split at h
  · cases h
  · split at h
    · cases h
    · split at h
      · cases h
      · split at h
        · cases h
        · cases h; rfl

/-! ### The words the link layer builds -/

/-- `enc_wrbits(n, v)` is the word of `WRBITS n` with the bits of `v` at `n` and above cleared. -/
theorem encWrBits_eq_wrBitsWord (n : Nat) (v : BitVec 16) (h1 : 1 ≤ n) (h2 : n ≤ 16) :
    encWrBits n v = wrBitsWord n (BitVec.ofNat 16 (v.toNat % 2 ^ n)) := by
  have hv := v.isLt
  apply BitVec.eq_of_getLsbD_eq
  intro i hi
  rw [wrBitsWord_getLsbD]
  have hm : ((1#32 <<< n) - 1#32).getLsbD i = decide (i < n) := by
    have : (1#32 <<< n) - 1#32 = BitVec.ofNat 32 (2 ^ n - 1) := by interval_cases n <;> rfl
    rw [this, BitVec.getLsbD_ofNat, Nat.testBit_two_pow_sub_one]
    simp [hi]
  have hlow : (BitVec.ofNat 16 (v.toNat % 2 ^ n)).getLsbD i = (decide (i < n) && v.getLsbD i) := by
    rw [BitVec.getLsbD_ofNat, Nat.testBit_mod_two_pow, BitVec.testBit_toNat]
    by_cases h : i < n
    · have : i < 16 := by omega
      simp [h, this]
    · simp [h]
  have hn : (BitVec.ofNat 32 (n - 1) <<< 16).getLsbD i =
      (!decide (i < 16) && (decide (i < 20) && (BitVec.ofNat 4 (n - 1)).getLsbD (i - 16))) := by
    rw [BitVec.getLsbD_shiftLeft, BitVec.getLsbD_ofNat, BitVec.getLsbD_ofNat]
    by_cases h16 : i < 16
    · simp [h16]
    by_cases h20 : i < 20
    · simp [h16, h20, hi, show i - 16 < 32 by omega, show i - 16 < 4 by omega]
    · have : (n - 1).testBit (i - 16) = false := Nat.testBit_lt_two_pow (by
        calc n - 1 < 2 ^ 4 := by omega
          _ ≤ 2 ^ (i - 16) := Nat.pow_le_pow_right (by omega) (by omega))
      simp [h20, this]
  rw [encWrBits, BitVec.getLsbD_or, BitVec.getLsbD_or, BitVec.getLsbD_and, hm, hn, hlow, BitVec.getLsbD_setWidth]
  by_cases h16 : i < 16
  · have hc : (0x30000000#32).getLsbD i = false := by interval_cases i <;> rfl
    simp only [h16, hc, hi]
    simp [Bool.and_comm]
  · have hv0 : v.getLsbD i = false := BitVec.getLsbD_of_ge v i (by omega)
    rw [hv0]
    by_cases h20 : i < 20
    · have hc : (0x30000000#32).getLsbD i = false := by interval_cases i <;> rfl
      simp [h16, h20, hc]
    · simp only [h16, h20]
      interval_cases i <;> rfl

theorem decodeCommand_encWrBits (n : Nat) (v : BitVec 16) (h1 : 1 ≤ n) (h2 : n ≤ 16) :
    decodeCommand (encWrBits n v) = .ok (.wrBits n (BitVec.ofNat 16 (v.toNat % 2 ^ n))) := by
  rw [encWrBits_eq_wrBitsWord n v h1 h2, decodeCommand_wrBitsWord _ _ (by simp [h1, h2])]

theorem decodeCommand_encRdBits (n : Nat) (h1 : 1 ≤ n) (h2 : n ≤ 32) : decodeCommand (encRdBits n) = .ok (.rdBits n) := by
  interval_cases n <;> rfl

end Sys2Proof
end

