-- ==== Sys2Proof/Laws/State.lean ====
section
/-! SUPPORT. One lemma per field of each primitive update, true by unfolding the update once, so that no later proof unfolds a record
update. -/

namespace Sys2Proof.Machine

variable (s : State)

/-! ### `respond` -/

@[simp] theorem respond_cfg (st : Status) (d : Word64) : (respond st d s).cfg = s.cfg := rfl
@[simp] theorem respond_lifecycle (st : Status) (d : Word64) : (respond st d s).lifecycle = s.lifecycle := rfl
@[simp] theorem respond_lineOe (st : Status) (d : Word64) : (respond st d s).lineOe = s.lineOe := rfl
@[simp] theorem respond_crc (st : Status) (d : Word64) : (respond st d s).crc = s.crc := rfl
@[simp] theorem respond_current (st : Status) (d : Word64) : (respond st d s).current = s.current := rfl
@[simp] theorem respond_discrepancy (st : Status) (d : Word64) : (respond st d s).discrepancy = s.discrepancy := rfl
@[simp] theorem respond_lastBranchTaken (st : Status) (d : Word64) : (respond st d s).lastBranchTaken = s.lastBranchTaken := rfl
@[simp] theorem respond_bitIdx (st : Status) (d : Word64) : (respond st d s).bitIdx = s.bitIdx := rfl
@[simp] theorem respond_seState (st : Status) (d : Word64) : (respond st d s).seState = s.seState := rfl
@[simp] theorem respond_count (st : Status) (d : Word64) : (respond st d s).count = s.count := rfl
@[simp] theorem respond_maxDev (st : Status) (d : Word64) : (respond st d s).maxDev = s.maxDev := rfl
@[simp] theorem respond_res (st : Status) (d : Word64) : (respond st d s).res = s.res := rfl
@[simp] theorem respond_txq (st : Status) (d : Word64) : (respond st d s).txq = s.txq := rfl
@[simp] theorem respond_rxq (st : Status) (d : Word64) : (respond st d s).rxq = s.rxq := rfl
@[simp] theorem respond_engState (st : Status) (d : Word64) : (respond st d s).engState = s.engState := rfl
@[simp] theorem respond_engCmd (st : Status) (d : Word64) : (respond st d s).engCmd = s.engCmd := rfl
@[simp] theorem respond_engBitcnt (st : Status) (d : Word64) : (respond st d s).engBitcnt = s.engBitcnt := rfl
@[simp] theorem respond_engOsr (st : Status) (d : Word64) : (respond st d s).engOsr = s.engOsr := rfl
@[simp] theorem respond_engIsr (st : Status) (d : Word64) : (respond st d s).engIsr = s.engIsr := rfl
@[simp] theorem respond_engFault (st : Status) (d : Word64) : (respond st d s).engFault = s.engFault := rfl
@[simp] theorem respond_buf (st : Status) (d : Word64) : (respond st d s).buf = s.buf := rfl
@[simp] theorem respond_rspStatus (st : Status) (d : Word64) : (respond st d s).rspStatus = st.code := rfl
@[simp] theorem respond_rspData (st : Status) (d : Word64) : (respond st d s).rspData = d := rfl
@[simp] theorem respond_hostOp (st : Status) (d : Word64) : (respond st d s).hostOp = .idle := rfl
@[simp] theorem respond_inputs (st : Status) (d : Word64) : (respond st d s).inputs = s.inputs := rfl
@[simp] theorem respond_samples (st : Status) (d : Word64) : (respond st d s).samples = s.samples := rfl
@[simp] theorem respond_turns (st : Status) (d : Word64) : (respond st d s).turns = s.turns := rfl
@[simp] theorem respond_turnDraws (st : Status) (d : Word64) : (respond st d s).turnDraws = s.turnDraws := rfl
@[simp] theorem respond_epoch (st : Status) (d : Word64) : (respond st d s).epoch = s.epoch := rfl
@[simp] theorem respond_lineLog (st : Status) (d : Word64) : (respond st d s).lineLog = s.lineLog := rfl

/-! ### `lineLow` -/

@[simp] theorem lineLow_cfg : (lineLow s).cfg = s.cfg := rfl
@[simp] theorem lineLow_lifecycle : (lineLow s).lifecycle = s.lifecycle := rfl
@[simp] theorem lineLow_lineOe : (lineLow s).lineOe = true := rfl
@[simp] theorem lineLow_crc : (lineLow s).crc = s.crc := rfl
@[simp] theorem lineLow_current : (lineLow s).current = s.current := rfl
@[simp] theorem lineLow_discrepancy : (lineLow s).discrepancy = s.discrepancy := rfl
@[simp] theorem lineLow_lastBranchTaken : (lineLow s).lastBranchTaken = s.lastBranchTaken := rfl
@[simp] theorem lineLow_bitIdx : (lineLow s).bitIdx = s.bitIdx := rfl
@[simp] theorem lineLow_seState : (lineLow s).seState = s.seState := rfl
@[simp] theorem lineLow_count : (lineLow s).count = s.count := rfl
@[simp] theorem lineLow_maxDev : (lineLow s).maxDev = s.maxDev := rfl
@[simp] theorem lineLow_res : (lineLow s).res = s.res := rfl
@[simp] theorem lineLow_txq : (lineLow s).txq = s.txq := rfl
@[simp] theorem lineLow_rxq : (lineLow s).rxq = s.rxq := rfl
@[simp] theorem lineLow_engState : (lineLow s).engState = s.engState := rfl
@[simp] theorem lineLow_engCmd : (lineLow s).engCmd = s.engCmd := rfl
@[simp] theorem lineLow_engBitcnt : (lineLow s).engBitcnt = s.engBitcnt := rfl
@[simp] theorem lineLow_engOsr : (lineLow s).engOsr = s.engOsr := rfl
@[simp] theorem lineLow_engIsr : (lineLow s).engIsr = s.engIsr := rfl
@[simp] theorem lineLow_engFault : (lineLow s).engFault = s.engFault := rfl
@[simp] theorem lineLow_buf : (lineLow s).buf = s.buf := rfl
@[simp] theorem lineLow_rspStatus : (lineLow s).rspStatus = s.rspStatus := rfl
@[simp] theorem lineLow_rspData : (lineLow s).rspData = s.rspData := rfl
@[simp] theorem lineLow_hostOp : (lineLow s).hostOp = s.hostOp := rfl
@[simp] theorem lineLow_inputs : (lineLow s).inputs = s.inputs := rfl
@[simp] theorem lineLow_samples : (lineLow s).samples = s.samples := rfl
@[simp] theorem lineLow_turns : (lineLow s).turns = s.turns := rfl
@[simp] theorem lineLow_turnDraws : (lineLow s).turnDraws = s.turnDraws := rfl
@[simp] theorem lineLow_epoch : (lineLow s).epoch = s.epoch := rfl
@[simp] theorem lineLow_lineLog : (lineLow s).lineLog = .low :: s.lineLog := rfl

/-! ### `lineRelease` -/

@[simp] theorem lineRelease_cfg : (lineRelease s).cfg = s.cfg := rfl
@[simp] theorem lineRelease_lifecycle : (lineRelease s).lifecycle = s.lifecycle := rfl
@[simp] theorem lineRelease_lineOe : (lineRelease s).lineOe = false := rfl
@[simp] theorem lineRelease_crc : (lineRelease s).crc = s.crc := rfl
@[simp] theorem lineRelease_current : (lineRelease s).current = s.current := rfl
@[simp] theorem lineRelease_discrepancy : (lineRelease s).discrepancy = s.discrepancy := rfl
@[simp] theorem lineRelease_lastBranchTaken : (lineRelease s).lastBranchTaken = s.lastBranchTaken := rfl
@[simp] theorem lineRelease_bitIdx : (lineRelease s).bitIdx = s.bitIdx := rfl
@[simp] theorem lineRelease_seState : (lineRelease s).seState = s.seState := rfl
@[simp] theorem lineRelease_count : (lineRelease s).count = s.count := rfl
@[simp] theorem lineRelease_maxDev : (lineRelease s).maxDev = s.maxDev := rfl
@[simp] theorem lineRelease_res : (lineRelease s).res = s.res := rfl
@[simp] theorem lineRelease_txq : (lineRelease s).txq = s.txq := rfl
@[simp] theorem lineRelease_rxq : (lineRelease s).rxq = s.rxq := rfl
@[simp] theorem lineRelease_engState : (lineRelease s).engState = s.engState := rfl
@[simp] theorem lineRelease_engCmd : (lineRelease s).engCmd = s.engCmd := rfl
@[simp] theorem lineRelease_engBitcnt : (lineRelease s).engBitcnt = s.engBitcnt := rfl
@[simp] theorem lineRelease_engOsr : (lineRelease s).engOsr = s.engOsr := rfl
@[simp] theorem lineRelease_engIsr : (lineRelease s).engIsr = s.engIsr := rfl
@[simp] theorem lineRelease_engFault : (lineRelease s).engFault = s.engFault := rfl
@[simp] theorem lineRelease_buf : (lineRelease s).buf = s.buf := rfl
@[simp] theorem lineRelease_rspStatus : (lineRelease s).rspStatus = s.rspStatus := rfl
@[simp] theorem lineRelease_rspData : (lineRelease s).rspData = s.rspData := rfl
@[simp] theorem lineRelease_hostOp : (lineRelease s).hostOp = s.hostOp := rfl
@[simp] theorem lineRelease_inputs : (lineRelease s).inputs = s.inputs := rfl
@[simp] theorem lineRelease_samples : (lineRelease s).samples = s.samples := rfl
@[simp] theorem lineRelease_turns : (lineRelease s).turns = s.turns := rfl
@[simp] theorem lineRelease_turnDraws : (lineRelease s).turnDraws = s.turnDraws := rfl
@[simp] theorem lineRelease_epoch : (lineRelease s).epoch = s.epoch := rfl
@[simp] theorem lineRelease_lineLog : (lineRelease s).lineLog = .release :: s.lineLog := rfl

/-! ### `delay` -/

@[simp] theorem delay_cfg (t : Nat) : (delay t s).cfg = s.cfg := rfl
@[simp] theorem delay_lifecycle (t : Nat) : (delay t s).lifecycle = s.lifecycle := rfl
@[simp] theorem delay_lineOe (t : Nat) : (delay t s).lineOe = s.lineOe := rfl
@[simp] theorem delay_crc (t : Nat) : (delay t s).crc = s.crc := rfl
@[simp] theorem delay_current (t : Nat) : (delay t s).current = s.current := rfl
@[simp] theorem delay_discrepancy (t : Nat) : (delay t s).discrepancy = s.discrepancy := rfl
@[simp] theorem delay_lastBranchTaken (t : Nat) : (delay t s).lastBranchTaken = s.lastBranchTaken := rfl
@[simp] theorem delay_bitIdx (t : Nat) : (delay t s).bitIdx = s.bitIdx := rfl
@[simp] theorem delay_seState (t : Nat) : (delay t s).seState = s.seState := rfl
@[simp] theorem delay_count (t : Nat) : (delay t s).count = s.count := rfl
@[simp] theorem delay_maxDev (t : Nat) : (delay t s).maxDev = s.maxDev := rfl
@[simp] theorem delay_res (t : Nat) : (delay t s).res = s.res := rfl
@[simp] theorem delay_txq (t : Nat) : (delay t s).txq = s.txq := rfl
@[simp] theorem delay_rxq (t : Nat) : (delay t s).rxq = s.rxq := rfl
@[simp] theorem delay_engState (t : Nat) : (delay t s).engState = s.engState := rfl
@[simp] theorem delay_engCmd (t : Nat) : (delay t s).engCmd = s.engCmd := rfl
@[simp] theorem delay_engBitcnt (t : Nat) : (delay t s).engBitcnt = s.engBitcnt := rfl
@[simp] theorem delay_engOsr (t : Nat) : (delay t s).engOsr = s.engOsr := rfl
@[simp] theorem delay_engIsr (t : Nat) : (delay t s).engIsr = s.engIsr := rfl
@[simp] theorem delay_engFault (t : Nat) : (delay t s).engFault = s.engFault := rfl
@[simp] theorem delay_buf (t : Nat) : (delay t s).buf = s.buf := rfl
@[simp] theorem delay_rspStatus (t : Nat) : (delay t s).rspStatus = s.rspStatus := rfl
@[simp] theorem delay_rspData (t : Nat) : (delay t s).rspData = s.rspData := rfl
@[simp] theorem delay_hostOp (t : Nat) : (delay t s).hostOp = s.hostOp := rfl
@[simp] theorem delay_inputs (t : Nat) : (delay t s).inputs = s.inputs := rfl
@[simp] theorem delay_samples (t : Nat) : (delay t s).samples = s.samples := rfl
@[simp] theorem delay_turns (t : Nat) : (delay t s).turns = s.turns := rfl
@[simp] theorem delay_turnDraws (t : Nat) : (delay t s).turnDraws = s.turnDraws := rfl
@[simp] theorem delay_epoch (t : Nat) : (delay t s).epoch = s.epoch := rfl
@[simp] theorem delay_lineLog (t : Nat) : (delay t s).lineLog = .delay t :: s.lineLog := rfl

/-! ### `afterSample` -/

@[simp] theorem afterSample_cfg : (afterSample s).cfg = s.cfg := rfl
@[simp] theorem afterSample_lifecycle : (afterSample s).lifecycle = s.lifecycle := rfl
@[simp] theorem afterSample_lineOe : (afterSample s).lineOe = s.lineOe := rfl
@[simp] theorem afterSample_crc : (afterSample s).crc = s.crc := rfl
@[simp] theorem afterSample_current : (afterSample s).current = s.current := rfl
@[simp] theorem afterSample_discrepancy : (afterSample s).discrepancy = s.discrepancy := rfl
@[simp] theorem afterSample_lastBranchTaken : (afterSample s).lastBranchTaken = s.lastBranchTaken := rfl
@[simp] theorem afterSample_bitIdx : (afterSample s).bitIdx = s.bitIdx := rfl
@[simp] theorem afterSample_seState : (afterSample s).seState = s.seState := rfl
@[simp] theorem afterSample_count : (afterSample s).count = s.count := rfl
@[simp] theorem afterSample_maxDev : (afterSample s).maxDev = s.maxDev := rfl
@[simp] theorem afterSample_res : (afterSample s).res = s.res := rfl
@[simp] theorem afterSample_txq : (afterSample s).txq = s.txq := rfl
@[simp] theorem afterSample_rxq : (afterSample s).rxq = s.rxq := rfl
@[simp] theorem afterSample_engState : (afterSample s).engState = s.engState := rfl
@[simp] theorem afterSample_engCmd : (afterSample s).engCmd = s.engCmd := rfl
@[simp] theorem afterSample_engBitcnt : (afterSample s).engBitcnt = s.engBitcnt := rfl
@[simp] theorem afterSample_engOsr : (afterSample s).engOsr = s.engOsr := rfl
@[simp] theorem afterSample_engIsr : (afterSample s).engIsr = s.engIsr := rfl
@[simp] theorem afterSample_engFault : (afterSample s).engFault = s.engFault := rfl
@[simp] theorem afterSample_buf : (afterSample s).buf = s.buf := rfl
@[simp] theorem afterSample_rspStatus : (afterSample s).rspStatus = s.rspStatus := rfl
@[simp] theorem afterSample_rspData : (afterSample s).rspData = s.rspData := rfl
@[simp] theorem afterSample_hostOp : (afterSample s).hostOp = s.hostOp := rfl
@[simp] theorem afterSample_inputs : (afterSample s).inputs = s.inputs := rfl
@[simp] theorem afterSample_samples : (afterSample s).samples = s.samples.tail := rfl
@[simp] theorem afterSample_turns : (afterSample s).turns = s.turns := rfl
@[simp] theorem afterSample_turnDraws : (afterSample s).turnDraws = s.turnDraws := rfl
@[simp] theorem afterSample_epoch : (afterSample s).epoch = s.epoch := rfl
@[simp] theorem afterSample_lineLog : (afterSample s).lineLog = .sample (nextLevel s) :: s.lineLog := rfl

/-! ### `txEnqueue` -/

@[simp] theorem txEnqueue_cfg (w : QWord) : (txEnqueue w s).cfg = s.cfg := rfl
@[simp] theorem txEnqueue_lifecycle (w : QWord) : (txEnqueue w s).lifecycle = s.lifecycle := rfl
@[simp] theorem txEnqueue_lineOe (w : QWord) : (txEnqueue w s).lineOe = s.lineOe := rfl
@[simp] theorem txEnqueue_crc (w : QWord) : (txEnqueue w s).crc = s.crc := rfl
@[simp] theorem txEnqueue_current (w : QWord) : (txEnqueue w s).current = s.current := rfl
@[simp] theorem txEnqueue_discrepancy (w : QWord) : (txEnqueue w s).discrepancy = s.discrepancy := rfl
@[simp] theorem txEnqueue_lastBranchTaken (w : QWord) : (txEnqueue w s).lastBranchTaken = s.lastBranchTaken := rfl
@[simp] theorem txEnqueue_bitIdx (w : QWord) : (txEnqueue w s).bitIdx = s.bitIdx := rfl
@[simp] theorem txEnqueue_seState (w : QWord) : (txEnqueue w s).seState = s.seState := rfl
@[simp] theorem txEnqueue_count (w : QWord) : (txEnqueue w s).count = s.count := rfl
@[simp] theorem txEnqueue_maxDev (w : QWord) : (txEnqueue w s).maxDev = s.maxDev := rfl
@[simp] theorem txEnqueue_res (w : QWord) : (txEnqueue w s).res = s.res := rfl
@[simp] theorem txEnqueue_txq (w : QWord) : (txEnqueue w s).txq = s.txq ++ [w] := rfl
@[simp] theorem txEnqueue_rxq (w : QWord) : (txEnqueue w s).rxq = s.rxq := rfl
@[simp] theorem txEnqueue_engState (w : QWord) : (txEnqueue w s).engState = s.engState := rfl
@[simp] theorem txEnqueue_engCmd (w : QWord) : (txEnqueue w s).engCmd = s.engCmd := rfl
@[simp] theorem txEnqueue_engBitcnt (w : QWord) : (txEnqueue w s).engBitcnt = s.engBitcnt := rfl
@[simp] theorem txEnqueue_engOsr (w : QWord) : (txEnqueue w s).engOsr = s.engOsr := rfl
@[simp] theorem txEnqueue_engIsr (w : QWord) : (txEnqueue w s).engIsr = s.engIsr := rfl
@[simp] theorem txEnqueue_engFault (w : QWord) : (txEnqueue w s).engFault = s.engFault := rfl
@[simp] theorem txEnqueue_buf (w : QWord) : (txEnqueue w s).buf = s.buf := rfl
@[simp] theorem txEnqueue_rspStatus (w : QWord) : (txEnqueue w s).rspStatus = s.rspStatus := rfl
@[simp] theorem txEnqueue_rspData (w : QWord) : (txEnqueue w s).rspData = s.rspData := rfl
@[simp] theorem txEnqueue_hostOp (w : QWord) : (txEnqueue w s).hostOp = s.hostOp := rfl
@[simp] theorem txEnqueue_inputs (w : QWord) : (txEnqueue w s).inputs = s.inputs := rfl
@[simp] theorem txEnqueue_samples (w : QWord) : (txEnqueue w s).samples = s.samples := rfl
@[simp] theorem txEnqueue_turns (w : QWord) : (txEnqueue w s).turns = s.turns := rfl
@[simp] theorem txEnqueue_turnDraws (w : QWord) : (txEnqueue w s).turnDraws = s.turnDraws := rfl
@[simp] theorem txEnqueue_epoch (w : QWord) : (txEnqueue w s).epoch = s.epoch := rfl
@[simp] theorem txEnqueue_lineLog (w : QWord) : (txEnqueue w s).lineLog = s.lineLog := rfl

/-! ### `rxDequeue` -/

@[simp] theorem rxDequeue_cfg : (rxDequeue s).cfg = s.cfg := rfl
@[simp] theorem rxDequeue_lifecycle : (rxDequeue s).lifecycle = s.lifecycle := rfl
@[simp] theorem rxDequeue_lineOe : (rxDequeue s).lineOe = s.lineOe := rfl
@[simp] theorem rxDequeue_crc : (rxDequeue s).crc = s.crc := rfl
@[simp] theorem rxDequeue_current : (rxDequeue s).current = s.current := rfl
@[simp] theorem rxDequeue_discrepancy : (rxDequeue s).discrepancy = s.discrepancy := rfl
@[simp] theorem rxDequeue_lastBranchTaken : (rxDequeue s).lastBranchTaken = s.lastBranchTaken := rfl
@[simp] theorem rxDequeue_bitIdx : (rxDequeue s).bitIdx = s.bitIdx := rfl
@[simp] theorem rxDequeue_seState : (rxDequeue s).seState = s.seState := rfl
@[simp] theorem rxDequeue_count : (rxDequeue s).count = s.count := rfl
@[simp] theorem rxDequeue_maxDev : (rxDequeue s).maxDev = s.maxDev := rfl
@[simp] theorem rxDequeue_res : (rxDequeue s).res = s.res := rfl
@[simp] theorem rxDequeue_txq : (rxDequeue s).txq = s.txq := rfl
@[simp] theorem rxDequeue_rxq : (rxDequeue s).rxq = s.rxq.tail := rfl
@[simp] theorem rxDequeue_engState : (rxDequeue s).engState = s.engState := rfl
@[simp] theorem rxDequeue_engCmd : (rxDequeue s).engCmd = s.engCmd := rfl
@[simp] theorem rxDequeue_engBitcnt : (rxDequeue s).engBitcnt = s.engBitcnt := rfl
@[simp] theorem rxDequeue_engOsr : (rxDequeue s).engOsr = s.engOsr := rfl
@[simp] theorem rxDequeue_engIsr : (rxDequeue s).engIsr = s.engIsr := rfl
@[simp] theorem rxDequeue_engFault : (rxDequeue s).engFault = s.engFault := rfl
@[simp] theorem rxDequeue_buf : (rxDequeue s).buf = s.buf := rfl
@[simp] theorem rxDequeue_rspStatus : (rxDequeue s).rspStatus = s.rspStatus := rfl
@[simp] theorem rxDequeue_rspData : (rxDequeue s).rspData = s.rspData := rfl
@[simp] theorem rxDequeue_hostOp : (rxDequeue s).hostOp = s.hostOp := rfl
@[simp] theorem rxDequeue_inputs : (rxDequeue s).inputs = s.inputs := rfl
@[simp] theorem rxDequeue_samples : (rxDequeue s).samples = s.samples := rfl
@[simp] theorem rxDequeue_turns : (rxDequeue s).turns = s.turns := rfl
@[simp] theorem rxDequeue_turnDraws : (rxDequeue s).turnDraws = s.turnDraws := rfl
@[simp] theorem rxDequeue_epoch : (rxDequeue s).epoch = s.epoch := rfl
@[simp] theorem rxDequeue_lineLog : (rxDequeue s).lineLog = s.lineLog := rfl

/-! ### `txFetch` -/

@[simp] theorem txFetch_cfg (w : QWord) (rest : List QWord) : (txFetch w rest s).cfg = s.cfg := rfl
@[simp] theorem txFetch_lifecycle (w : QWord) (rest : List QWord) : (txFetch w rest s).lifecycle = s.lifecycle := rfl
@[simp] theorem txFetch_lineOe (w : QWord) (rest : List QWord) : (txFetch w rest s).lineOe = s.lineOe := rfl
@[simp] theorem txFetch_crc (w : QWord) (rest : List QWord) : (txFetch w rest s).crc = s.crc := rfl
@[simp] theorem txFetch_current (w : QWord) (rest : List QWord) : (txFetch w rest s).current = s.current := rfl
@[simp] theorem txFetch_discrepancy (w : QWord) (rest : List QWord) : (txFetch w rest s).discrepancy = s.discrepancy := rfl
@[simp] theorem txFetch_lastBranchTaken (w : QWord) (rest : List QWord) : (txFetch w rest s).lastBranchTaken = s.lastBranchTaken := rfl
@[simp] theorem txFetch_bitIdx (w : QWord) (rest : List QWord) : (txFetch w rest s).bitIdx = s.bitIdx := rfl
@[simp] theorem txFetch_seState (w : QWord) (rest : List QWord) : (txFetch w rest s).seState = s.seState := rfl
@[simp] theorem txFetch_count (w : QWord) (rest : List QWord) : (txFetch w rest s).count = s.count := rfl
@[simp] theorem txFetch_maxDev (w : QWord) (rest : List QWord) : (txFetch w rest s).maxDev = s.maxDev := rfl
@[simp] theorem txFetch_res (w : QWord) (rest : List QWord) : (txFetch w rest s).res = s.res := rfl
@[simp] theorem txFetch_txq (w : QWord) (rest : List QWord) : (txFetch w rest s).txq = rest := rfl
@[simp] theorem txFetch_rxq (w : QWord) (rest : List QWord) : (txFetch w rest s).rxq = s.rxq := rfl
@[simp] theorem txFetch_engState (w : QWord) (rest : List QWord) : (txFetch w rest s).engState = s.engState := rfl
@[simp] theorem txFetch_engCmd (w : QWord) (rest : List QWord) : (txFetch w rest s).engCmd = w := rfl
@[simp] theorem txFetch_engBitcnt (w : QWord) (rest : List QWord) : (txFetch w rest s).engBitcnt = s.engBitcnt := rfl
@[simp] theorem txFetch_engOsr (w : QWord) (rest : List QWord) : (txFetch w rest s).engOsr = s.engOsr := rfl
@[simp] theorem txFetch_engIsr (w : QWord) (rest : List QWord) : (txFetch w rest s).engIsr = s.engIsr := rfl
@[simp] theorem txFetch_engFault (w : QWord) (rest : List QWord) : (txFetch w rest s).engFault = s.engFault := rfl
@[simp] theorem txFetch_buf (w : QWord) (rest : List QWord) : (txFetch w rest s).buf = s.buf := rfl
@[simp] theorem txFetch_rspStatus (w : QWord) (rest : List QWord) : (txFetch w rest s).rspStatus = s.rspStatus := rfl
@[simp] theorem txFetch_rspData (w : QWord) (rest : List QWord) : (txFetch w rest s).rspData = s.rspData := rfl
@[simp] theorem txFetch_hostOp (w : QWord) (rest : List QWord) : (txFetch w rest s).hostOp = s.hostOp := rfl
@[simp] theorem txFetch_inputs (w : QWord) (rest : List QWord) : (txFetch w rest s).inputs = s.inputs := rfl
@[simp] theorem txFetch_samples (w : QWord) (rest : List QWord) : (txFetch w rest s).samples = s.samples := rfl
@[simp] theorem txFetch_turns (w : QWord) (rest : List QWord) : (txFetch w rest s).turns = s.turns := rfl
@[simp] theorem txFetch_turnDraws (w : QWord) (rest : List QWord) : (txFetch w rest s).turnDraws = s.turnDraws := rfl
@[simp] theorem txFetch_epoch (w : QWord) (rest : List QWord) : (txFetch w rest s).epoch = s.epoch := rfl
@[simp] theorem txFetch_lineLog (w : QWord) (rest : List QWord) : (txFetch w rest s).lineLog = s.lineLog := rfl

/-! ### `deliverResult` -/

@[simp] theorem deliverResult_cfg : (deliverResult s).cfg = s.cfg := rfl
@[simp] theorem deliverResult_lifecycle : (deliverResult s).lifecycle = s.lifecycle := rfl
@[simp] theorem deliverResult_lineOe : (deliverResult s).lineOe = s.lineOe := rfl
@[simp] theorem deliverResult_crc : (deliverResult s).crc = s.crc := rfl
@[simp] theorem deliverResult_current : (deliverResult s).current = s.current := rfl
@[simp] theorem deliverResult_discrepancy : (deliverResult s).discrepancy = s.discrepancy := rfl
@[simp] theorem deliverResult_lastBranchTaken : (deliverResult s).lastBranchTaken = s.lastBranchTaken := rfl
@[simp] theorem deliverResult_bitIdx : (deliverResult s).bitIdx = s.bitIdx := rfl
@[simp] theorem deliverResult_seState : (deliverResult s).seState = s.seState := rfl
@[simp] theorem deliverResult_count : (deliverResult s).count = s.count := rfl
@[simp] theorem deliverResult_maxDev : (deliverResult s).maxDev = s.maxDev := rfl
@[simp] theorem deliverResult_res : (deliverResult s).res = s.res := rfl
@[simp] theorem deliverResult_txq : (deliverResult s).txq = s.txq := rfl
@[simp] theorem deliverResult_rxq : (deliverResult s).rxq = s.rxq ++ [s.engIsr] := rfl
@[simp] theorem deliverResult_engState : (deliverResult s).engState = .fetch := rfl
@[simp] theorem deliverResult_engCmd : (deliverResult s).engCmd = s.engCmd := rfl
@[simp] theorem deliverResult_engBitcnt : (deliverResult s).engBitcnt = s.engBitcnt := rfl
@[simp] theorem deliverResult_engOsr : (deliverResult s).engOsr = s.engOsr := rfl
@[simp] theorem deliverResult_engIsr : (deliverResult s).engIsr = s.engIsr := rfl
@[simp] theorem deliverResult_engFault : (deliverResult s).engFault = s.engFault := rfl
@[simp] theorem deliverResult_buf : (deliverResult s).buf = s.buf := rfl
@[simp] theorem deliverResult_rspStatus : (deliverResult s).rspStatus = s.rspStatus := rfl
@[simp] theorem deliverResult_rspData : (deliverResult s).rspData = s.rspData := rfl
@[simp] theorem deliverResult_hostOp : (deliverResult s).hostOp = s.hostOp := rfl
@[simp] theorem deliverResult_inputs : (deliverResult s).inputs = s.inputs := rfl
@[simp] theorem deliverResult_samples : (deliverResult s).samples = s.samples := rfl
@[simp] theorem deliverResult_turns : (deliverResult s).turns = s.turns := rfl
@[simp] theorem deliverResult_turnDraws : (deliverResult s).turnDraws = s.turnDraws := rfl
@[simp] theorem deliverResult_epoch : (deliverResult s).epoch = s.epoch := rfl
@[simp] theorem deliverResult_lineLog : (deliverResult s).lineLog = s.lineLog := rfl

/-! ### `hostWriteBuf` -/

@[simp] theorem hostWriteBuf_cfg (i : Fin 16) (v : Byte) : (hostWriteBuf i v s).cfg = s.cfg := rfl
@[simp] theorem hostWriteBuf_lifecycle (i : Fin 16) (v : Byte) : (hostWriteBuf i v s).lifecycle = s.lifecycle := rfl
@[simp] theorem hostWriteBuf_lineOe (i : Fin 16) (v : Byte) : (hostWriteBuf i v s).lineOe = s.lineOe := rfl
@[simp] theorem hostWriteBuf_crc (i : Fin 16) (v : Byte) : (hostWriteBuf i v s).crc = s.crc := rfl
@[simp] theorem hostWriteBuf_current (i : Fin 16) (v : Byte) : (hostWriteBuf i v s).current = s.current := rfl
@[simp] theorem hostWriteBuf_discrepancy (i : Fin 16) (v : Byte) : (hostWriteBuf i v s).discrepancy = s.discrepancy := rfl
@[simp] theorem hostWriteBuf_lastBranchTaken (i : Fin 16) (v : Byte) : (hostWriteBuf i v s).lastBranchTaken = s.lastBranchTaken := rfl
@[simp] theorem hostWriteBuf_bitIdx (i : Fin 16) (v : Byte) : (hostWriteBuf i v s).bitIdx = s.bitIdx := rfl
@[simp] theorem hostWriteBuf_seState (i : Fin 16) (v : Byte) : (hostWriteBuf i v s).seState = s.seState := rfl
@[simp] theorem hostWriteBuf_count (i : Fin 16) (v : Byte) : (hostWriteBuf i v s).count = s.count := rfl
@[simp] theorem hostWriteBuf_maxDev (i : Fin 16) (v : Byte) : (hostWriteBuf i v s).maxDev = s.maxDev := rfl
@[simp] theorem hostWriteBuf_res (i : Fin 16) (v : Byte) : (hostWriteBuf i v s).res = s.res := rfl
@[simp] theorem hostWriteBuf_txq (i : Fin 16) (v : Byte) : (hostWriteBuf i v s).txq = s.txq := rfl
@[simp] theorem hostWriteBuf_rxq (i : Fin 16) (v : Byte) : (hostWriteBuf i v s).rxq = s.rxq := rfl
@[simp] theorem hostWriteBuf_engState (i : Fin 16) (v : Byte) : (hostWriteBuf i v s).engState = s.engState := rfl
@[simp] theorem hostWriteBuf_engCmd (i : Fin 16) (v : Byte) : (hostWriteBuf i v s).engCmd = s.engCmd := rfl
@[simp] theorem hostWriteBuf_engBitcnt (i : Fin 16) (v : Byte) : (hostWriteBuf i v s).engBitcnt = s.engBitcnt := rfl
@[simp] theorem hostWriteBuf_engOsr (i : Fin 16) (v : Byte) : (hostWriteBuf i v s).engOsr = s.engOsr := rfl
@[simp] theorem hostWriteBuf_engIsr (i : Fin 16) (v : Byte) : (hostWriteBuf i v s).engIsr = s.engIsr := rfl
@[simp] theorem hostWriteBuf_engFault (i : Fin 16) (v : Byte) : (hostWriteBuf i v s).engFault = s.engFault := rfl
@[simp] theorem hostWriteBuf_buf (i : Fin 16) (v : Byte) : (hostWriteBuf i v s).buf = s.buf.set i.val v := rfl
@[simp] theorem hostWriteBuf_rspStatus (i : Fin 16) (v : Byte) : (hostWriteBuf i v s).rspStatus = s.rspStatus := rfl
@[simp] theorem hostWriteBuf_rspData (i : Fin 16) (v : Byte) : (hostWriteBuf i v s).rspData = s.rspData := rfl
@[simp] theorem hostWriteBuf_hostOp (i : Fin 16) (v : Byte) : (hostWriteBuf i v s).hostOp = s.hostOp := rfl
@[simp] theorem hostWriteBuf_inputs (i : Fin 16) (v : Byte) : (hostWriteBuf i v s).inputs = s.inputs := rfl
@[simp] theorem hostWriteBuf_samples (i : Fin 16) (v : Byte) : (hostWriteBuf i v s).samples = s.samples := rfl
@[simp] theorem hostWriteBuf_turns (i : Fin 16) (v : Byte) : (hostWriteBuf i v s).turns = s.turns := rfl
@[simp] theorem hostWriteBuf_turnDraws (i : Fin 16) (v : Byte) : (hostWriteBuf i v s).turnDraws = s.turnDraws := rfl
@[simp] theorem hostWriteBuf_epoch (i : Fin 16) (v : Byte) : (hostWriteBuf i v s).epoch = s.epoch := rfl
@[simp] theorem hostWriteBuf_lineLog (i : Fin 16) (v : Byte) : (hostWriteBuf i v s).lineLog = s.lineLog := rfl

/-! ### `hold` -/

@[simp] theorem hold_cfg (b : Bool) (a : Access) (rest : List Access) (fin : Finish) : (hold b a rest fin s).cfg = s.cfg := rfl
@[simp] theorem hold_lifecycle (b : Bool) (a : Access) (rest : List Access) (fin : Finish) : (hold b a rest fin s).lifecycle = s.lifecycle := rfl
@[simp] theorem hold_lineOe (b : Bool) (a : Access) (rest : List Access) (fin : Finish) : (hold b a rest fin s).lineOe = s.lineOe := rfl
@[simp] theorem hold_crc (b : Bool) (a : Access) (rest : List Access) (fin : Finish) : (hold b a rest fin s).crc = s.crc := rfl
@[simp] theorem hold_current (b : Bool) (a : Access) (rest : List Access) (fin : Finish) : (hold b a rest fin s).current = s.current := rfl
@[simp] theorem hold_discrepancy (b : Bool) (a : Access) (rest : List Access) (fin : Finish) : (hold b a rest fin s).discrepancy = s.discrepancy := rfl
@[simp] theorem hold_lastBranchTaken (b : Bool) (a : Access) (rest : List Access) (fin : Finish) : (hold b a rest fin s).lastBranchTaken = s.lastBranchTaken := rfl
@[simp] theorem hold_bitIdx (b : Bool) (a : Access) (rest : List Access) (fin : Finish) : (hold b a rest fin s).bitIdx = s.bitIdx := rfl
@[simp] theorem hold_seState (b : Bool) (a : Access) (rest : List Access) (fin : Finish) : (hold b a rest fin s).seState = s.seState := rfl
@[simp] theorem hold_count (b : Bool) (a : Access) (rest : List Access) (fin : Finish) : (hold b a rest fin s).count = s.count := rfl
@[simp] theorem hold_maxDev (b : Bool) (a : Access) (rest : List Access) (fin : Finish) : (hold b a rest fin s).maxDev = s.maxDev := rfl
@[simp] theorem hold_res (b : Bool) (a : Access) (rest : List Access) (fin : Finish) : (hold b a rest fin s).res = s.res := rfl
@[simp] theorem hold_txq (b : Bool) (a : Access) (rest : List Access) (fin : Finish) : (hold b a rest fin s).txq = s.txq := rfl
@[simp] theorem hold_rxq (b : Bool) (a : Access) (rest : List Access) (fin : Finish) : (hold b a rest fin s).rxq = s.rxq := rfl
@[simp] theorem hold_engState (b : Bool) (a : Access) (rest : List Access) (fin : Finish) : (hold b a rest fin s).engState = s.engState := rfl
@[simp] theorem hold_engCmd (b : Bool) (a : Access) (rest : List Access) (fin : Finish) : (hold b a rest fin s).engCmd = s.engCmd := rfl
@[simp] theorem hold_engBitcnt (b : Bool) (a : Access) (rest : List Access) (fin : Finish) : (hold b a rest fin s).engBitcnt = s.engBitcnt := rfl
@[simp] theorem hold_engOsr (b : Bool) (a : Access) (rest : List Access) (fin : Finish) : (hold b a rest fin s).engOsr = s.engOsr := rfl
@[simp] theorem hold_engIsr (b : Bool) (a : Access) (rest : List Access) (fin : Finish) : (hold b a rest fin s).engIsr = s.engIsr := rfl
@[simp] theorem hold_engFault (b : Bool) (a : Access) (rest : List Access) (fin : Finish) : (hold b a rest fin s).engFault = s.engFault := rfl
@[simp] theorem hold_buf (b : Bool) (a : Access) (rest : List Access) (fin : Finish) : (hold b a rest fin s).buf = s.buf := rfl
@[simp] theorem hold_rspStatus (b : Bool) (a : Access) (rest : List Access) (fin : Finish) : (hold b a rest fin s).rspStatus = s.rspStatus := rfl
@[simp] theorem hold_rspData (b : Bool) (a : Access) (rest : List Access) (fin : Finish) : (hold b a rest fin s).rspData = s.rspData := rfl
@[simp] theorem hold_hostOp (b : Bool) (a : Access) (rest : List Access) (fin : Finish) : (hold b a rest fin s).hostOp = .running b (a :: rest) fin := rfl
@[simp] theorem hold_inputs (b : Bool) (a : Access) (rest : List Access) (fin : Finish) : (hold b a rest fin s).inputs = s.inputs := rfl
@[simp] theorem hold_samples (b : Bool) (a : Access) (rest : List Access) (fin : Finish) : (hold b a rest fin s).samples = s.samples := rfl
@[simp] theorem hold_turns (b : Bool) (a : Access) (rest : List Access) (fin : Finish) : (hold b a rest fin s).turns = s.turns := rfl
@[simp] theorem hold_turnDraws (b : Bool) (a : Access) (rest : List Access) (fin : Finish) : (hold b a rest fin s).turnDraws = s.turnDraws := rfl
@[simp] theorem hold_epoch (b : Bool) (a : Access) (rest : List Access) (fin : Finish) : (hold b a rest fin s).epoch = s.epoch := rfl
@[simp] theorem hold_lineLog (b : Bool) (a : Access) (rest : List Access) (fin : Finish) : (hold b a rest fin s).lineLog = s.lineLog := rfl

end Sys2Proof.Machine
end

