-- ==== Sys2Proof/Laws/Line.lean ====
section
/-! SUPPORT. What each waveform does, as one equation: which line events it makes, that it ends released, and that nothing else changes. -/

namespace Sys2Proof.Machine

/-- The events of a write slot, newest first. -/
def slotLog (p : Params) (b : Bool) : List LineEvent :=
  let low := if b then p.tW1l else p.tW0l
  [.delay (p.tSlot - low), .release, .delay low, .low]

/-- A write slot makes its events and ends released. -/
theorem writeSlot_eq (b : Bool) (s : State) :
    writeSlot b s = { s with lineOe := false, lineLog := slotLog s.cfg b ++ s.lineLog } := rfl

/-- Write slots make the events of each bit in turn. -/
theorem writeSlots_eq (bs : List Bool) (s : State) :
    writeSlots bs s =
      { s with
        lineOe := if bs = [] then s.lineOe else false
        lineLog := (bs.reverse.flatMap (slotLog s.cfg)) ++ s.lineLog } := by
  induction bs generalizing s with
  | nil => rfl
  | cons b bs ih =>
    rw [writeSlots, ih, writeSlot_eq]
    simp

/-- A byte write makes eight slots and ends released. -/
theorem writeByte_eq (v : Byte) (s : State) :
    writeByte v s =
      { s with lineOe := false, lineLog := ((lowBits 8 v).reverse.flatMap (slotLog s.cfg)) ++ s.lineLog } := by
  rw [writeByte, writeSlots_eq, if_neg (by simp [lowBits])]

/-- The level a read slot samples. -/
def readLevel (s : State) : Bool :=
  nextLevel (delay s.cfg.tRds (lineRelease (delay s.cfg.tRdl (lineLow s))))

/-- A read slot samples one level, makes its events and ends released. -/
theorem readSlot_eq (s : State) :
    readSlot s =
      (readLevel s,
        { s with
          lineOe := false
          samples := s.samples.tail
          lineLog := [.delay s.cfg.tRdr, .sample (readLevel s), .delay s.cfg.tRds, .release, .delay s.cfg.tRdl, .low] ++
            s.lineLog }) := rfl

/-- With a level waiting, a read slot samples that level. -/
theorem readLevel_of_samples {s : State} {b : Bool} {bs : List Bool} (h : s.samples = b :: bs) : readLevel s = b := by
  simp [readLevel, nextLevel, h]

/-- What the polls of a bus reset do: `n` more samples, all high but perhaps the last, which is low exactly when there is presence; as
many as are allowed when there is none. -/
theorem pollPresence_spec (left k : Nat) (s : State) :
    ∃ (bs : List Bool) (p : Bool),
      ((p = true ∧ ∃ n, n < left ∧ bs = List.replicate n true ++ [false]) ∨ (p = false ∧ bs = List.replicate left true)) ∧
      (bs <+: s.samples ∨ s.samples <+: bs) ∧
      pollPresence left k s =
        (p, k + bs.length,
          { s with
            samples := s.samples.drop bs.length
            lineLog := (bs.flatMap (fun b => [.delay s.cfg.tPresPoll, .sample b])).reverse ++ s.lineLog }) := by
  induction left generalizing k s with
  | zero => exact ⟨[], false, .inr ⟨rfl, rfl⟩, .inl (List.nil_prefix), by simp [pollPresence]⟩
  | succ left ih =>
    let d := delay s.cfg.tPresPoll s
    have hpre : ∀ (b : Bool) (bs : List Bool), nextLevel d = b → (bs <+: s.samples.tail ∨ s.samples.tail <+: bs) →
        (b :: bs <+: s.samples ∨ s.samples <+: b :: bs) := by
      intro b bs hb h
      cases hs : s.samples with
      | nil => exact .inr List.nil_prefix
      | cons x xs =>
        have hx : nextLevel d = x := by simp [nextLevel, d, hs]
        rw [hx] at hb
        subst hb
        simpa [hs] using h
    have hstep : pollPresence (left + 1) k s =
        if nextLevel d then pollPresence left (k + 1) (afterSample d) else (true, k + 1, afterSample d) := rfl
    have hsamp : ∀ n, s.samples.tail.drop n = s.samples.drop (n + 1) := by intro n; cases s.samples <;> simp
    rw [hstep]
    cases hl : nextLevel d with
    | true =>
      obtain ⟨bs, p, hp, hsm, he⟩ := ih (k + 1) (afterSample d)
      have hlog : (afterSample d).lineLog = .sample true :: .delay s.cfg.tPresPoll :: s.lineLog := by
        rw [afterSample_lineLog, hl]; rfl
      refine ⟨true :: bs, p, ?_, hpre true bs hl hsm, ?_⟩
      · rcases hp with ⟨rfl, n, hn, rfl⟩ | ⟨rfl, rfl⟩
        · exact .inl ⟨rfl, n + 1, by omega, rfl⟩
        · exact .inr ⟨rfl, rfl⟩
      · rw [if_pos rfl, he, hlog]
        simp [d, afterSample, delay, hsamp, Nat.add_assoc, Nat.add_comm 1]
    | false =>
      have hlog : (afterSample d).lineLog = .sample false :: .delay s.cfg.tPresPoll :: s.lineLog := by
        rw [afterSample_lineLog, hl]; rfl
      refine ⟨[false], true, .inl ⟨rfl, 0, by omega, rfl⟩, hpre false [] hl (.inl List.nil_prefix), ?_⟩
      have : afterSample d = { afterSample d with lineLog := (afterSample d).lineLog } := rfl
      rw [if_neg (by simp), this, hlog]
      simp [d, afterSample, delay]

/-- What a bus reset does: 1 to 8 samples, its events, released at the end. -/
theorem busReset_spec (s : State) :
    ∃ (bs : List Bool) (p : Bool),
      ((p = true ∧ ∃ n, n < 8 ∧ bs = List.replicate n true ++ [false]) ∨ (p = false ∧ bs = List.replicate 8 true)) ∧
      (bs <+: s.samples ∨ s.samples <+: bs) ∧
      busReset s =
        (p,
          { s with
            lineOe := false
            samples := s.samples.drop bs.length
            lineLog := .delay (s.cfg.tRsth - bs.length * s.cfg.tPresPoll) ::
              ((bs.flatMap (fun b => [.delay s.cfg.tPresPoll, .sample b])).reverse ++
                [.release, .delay s.cfg.tRstl, .low] ++ s.lineLog) }) := by
  obtain ⟨bs, p, hp, hsm, he⟩ := pollPresence_spec 8 0 (lineRelease (delay s.cfg.tRstl (lineLow s)))
  refine ⟨bs, p, hp, hsm, ?_⟩
  rw [busReset, Config.nPresPoll, he]
  simp [delay, lineRelease, lineLow]

/-- With a low level waiting, a bus reset sees presence at its first sample. -/
theorem busReset_of_low {s : State} {bs : List Bool} (h : s.samples = false :: bs) :
    busReset s =
      (true,
        { s with
          lineOe := false
          samples := bs
          lineLog := [.delay (s.cfg.tRsth - s.cfg.tPresPoll), .sample false, .delay s.cfg.tPresPoll, .release,
            .delay s.cfg.tRstl, .low] ++ s.lineLog }) := by
  simp [busReset, Config.nPresPoll, pollPresence, lineSample, nextLevel, afterSample, delay, lineRelease, lineLow, h]

/-- The reset pulse of the engine makes four events and ends released. -/
theorem resetPulse_eq (s : State) :
    resetPulse s =
      { s with
        lineOe := false
        lineLog := [.delay s.cfg.tRsth, .release, .delay s.cfg.tRstl, .low] ++ s.lineLog } := rfl

end Sys2Proof.Machine
end

