-- ==== Sys2Proof/Laws/Host.lean ====
section
/-! SUPPORT. What a queue access of a host operation can do, said once; what it leaves alone; when the host has a step. -/

namespace Sys2Proof.Machine

/-! ### Queue levels -/

theorem txFull_iff (s : State) : s.txFull = true ↔ 4 ≤ s.txq.length := by
  simp only [State.txFull, decide_eq_true_eq]
  rfl

theorem txFull_eq_false_iff (s : State) : s.txFull = false ↔ s.txq.length < 4 := by
  simp only [State.txFull, decide_eq_false_iff_not]
  exact Nat.not_le

theorem rxFull_iff (s : State) : s.rxFull = true ↔ 4 ≤ s.rxq.length := by
  simp only [State.rxFull, decide_eq_true_eq]
  rfl

theorem rxFull_eq_false_iff (s : State) : s.rxFull = false ↔ s.rxq.length < 4 := by
  simp only [State.rxFull, decide_eq_false_iff_not]
  exact Nat.not_le

theorem txEmpty_iff (s : State) : s.txEmpty = true ↔ s.txq = [] := by
  simp [State.txEmpty, State.txLevel]

theorem rxEmpty_iff (s : State) : s.rxEmpty = true ↔ s.rxq = [] := by
  simp [State.rxEmpty, State.rxLevel]

theorem rxEmpty_eq_false_iff (s : State) : s.rxEmpty = false ↔ s.rxq ≠ [] := by
  simp [State.rxEmpty, State.rxLevel]

/-! ### One queue access -/

/-- The five things a queue access can do: raise a queue error (non-blocking only), hold (blocking only, and the host has no step), put
a word in, pass a check, take a word out. -/
theorem hostAccess_cases (b : Bool) (a : Access) (rest : List Access) (fin : Finish) (s : State) :
    (∃ e n, b = false ∧ (e = .queueFull ∨ e = .queueEmpty) ∧ hostAccess b a rest fin s = raise e n s) ∨
    (b = true ∧ accessReady b a s = false ∧ hostAccess b a rest fin s = hold b a rest fin s) ∨
    (∃ w n, a = .push w n ∧ s.txq.length < 4 ∧ hostAccess b a rest fin s = proceed b rest fin (txEnqueue w s)) ∨
    ((∃ m, (a = .room m ∧ (b = false → m ≤ 4 - s.txq.length)) ∨ (a = .ready m ∧ (b = false → m ≤ s.rxq.length))) ∧
      hostAccess b a rest fin s = proceed b rest fin s) ∨
    (∃ use n w r, a = .pop use n ∧ s.rxq = w :: r ∧
      hostAccess b a rest fin s = proceed b rest (usePopped use w fin s).1 (usePopped use w fin s).2) := by
  cases a with
  | room m =>
    by_cases h : b = false ∧ Config.txqDepth - s.txLevel < m
    · exact .inl ⟨.queueFull, 0, h.1, .inl rfl, by rw [hostAccess, if_pos h]⟩
    · refine .inr (.inr (.inr (.inl ⟨⟨m, .inl ⟨rfl, fun hb => ?_⟩⟩, by rw [hostAccess, if_neg h]⟩)))
      have : ¬ 4 - s.txq.length < m := fun hlt => h ⟨hb, hlt⟩
      omega
  | push w n =>
    cases hf : s.txFull with
    | false =>
      refine .inr (.inr (.inl ⟨w, n, rfl, (txFull_eq_false_iff s).mp hf, ?_⟩))
      simp [hostAccess, hf]
    | true =>
      cases b with
      | false => exact .inl ⟨.queueFull, n, rfl, .inl rfl, by simp [hostAccess, hf]⟩
      | true => exact .inr (.inl ⟨rfl, by simp [accessReady, hf], by simp [hostAccess, hf]⟩)
  | ready m =>
    by_cases h : b = false ∧ s.rxLevel < m
    · exact .inl ⟨.queueEmpty, m, h.1, .inr rfl, by rw [hostAccess, if_pos h]⟩
    · refine .inr (.inr (.inr (.inl ⟨⟨m, .inr ⟨rfl, fun hb => ?_⟩⟩, by rw [hostAccess, if_neg h]⟩)))
      have : ¬ s.rxq.length < m := fun hlt => h ⟨hb, hlt⟩
      omega
  | pop use n =>
    cases hr : s.rxq with
    | nil =>
      cases b with
      | false => exact .inl ⟨.queueEmpty, n, rfl, .inr rfl, by simp [hostAccess, hr]⟩
      | true =>
        exact .inr (.inl ⟨rfl, by simp [accessReady, State.rxEmpty, State.rxLevel, hr], by simp [hostAccess, hr]⟩)
    | cons w r => exact .inr (.inr (.inr (.inr ⟨use, n, w, r, rfl, rfl, by simp [hostAccess, hr]⟩)))

/-! ### What a host operation leaves alone -/

/-- `t` is `s` but for the queues, the CRC register, `BUF`, the response and the operation in progress. -/
def HostOnly (s t : State) : Prop :=
  t = { s with
    txq := t.txq
    rxq := t.rxq
    crc := t.crc
    buf := t.buf
    rspStatus := t.rspStatus
    rspData := t.rspData
    hostOp := t.hostOp }

theorem HostOnly.refl (s : State) : HostOnly s s := rfl

theorem HostOnly.trans {s t u : State} (h1 : HostOnly s t) (h2 : HostOnly t u) : HostOnly s u := by
  unfold HostOnly at *
  rw [h2, h1]

theorem hostOnly_respond (st : Status) (d : Word64) (s : State) : HostOnly s (respond st d s) := rfl

theorem hostOnly_raise (e : Status) (d : Nat) (s : State) : HostOnly s (raise e d s) := rfl

theorem hostOnly_finishOp (fin : Finish) (s : State) : HostOnly s (finishOp fin s) := by cases fin <;> rfl

theorem hostOnly_proceed (b : Bool) (rest : List Access) (fin : Finish) (s : State) : HostOnly s (proceed b rest fin s) := by
  cases rest with
  | nil => exact hostOnly_finishOp fin s
  | cons a as => rfl

theorem hostOnly_usePopped (use : PopUse) (w : QWord) (fin : Finish) (s : State) : HostOnly s (usePopped use w fin s).2 := by
  cases use <;> rfl

/-- A queue access touches the queues, `BUF`, the CRC register, the response and the operation in progress only. -/
theorem hostOnly_hostAccess (b : Bool) (a : Access) (rest : List Access) (fin : Finish) (s : State) :
    HostOnly s (hostAccess b a rest fin s) := by
  rcases hostAccess_cases b a rest fin s with ⟨e, n, -, -, h⟩ | ⟨-, -, h⟩ | ⟨w, n, -, -, h⟩ | ⟨-, h⟩ | ⟨use, n, w, r, -, -, h⟩ <;>
    rw [h]
  · exact hostOnly_raise e n s
  · rfl
  · exact HostOnly.trans (t := txEnqueue w s) rfl (hostOnly_proceed b rest fin _)
  · exact hostOnly_proceed b rest fin s
  · exact (hostOnly_usePopped use w fin s).trans (hostOnly_proceed b rest _ _)

theorem hostOnly_startOp (b : Bool) (todo : List Access) (fin : Finish) (s : State) : HostOnly s (startOp b todo fin s) := by
  cases todo with
  | nil => exact hostOnly_finishOp fin s
  | cons a rest => exact hostOnly_hostAccess b a rest fin s

/-! ### The queues under a host operation -/

theorem finishOp_txq (fin : Finish) (s : State) : (finishOp fin s).txq = s.txq := by cases fin <;> rfl

theorem finishOp_rxq (fin : Finish) (s : State) : (finishOp fin s).rxq = s.rxq := by cases fin <;> rfl

theorem finishOp_hostOp (fin : Finish) (s : State) : (finishOp fin s).hostOp = .idle := by cases fin <;> rfl

theorem proceed_txq (b : Bool) (rest : List Access) (fin : Finish) (s : State) : (proceed b rest fin s).txq = s.txq := by
  cases rest with
  | nil => exact finishOp_txq fin s
  | cons a as => rfl

theorem proceed_rxq (b : Bool) (rest : List Access) (fin : Finish) (s : State) : (proceed b rest fin s).rxq = s.rxq := by
  cases rest with
  | nil => exact finishOp_rxq fin s
  | cons a as => rfl

theorem usePopped_txq (use : PopUse) (w : QWord) (fin : Finish) (s : State) : (usePopped use w fin s).2.txq = s.txq := by
  cases use <;> rfl

theorem usePopped_rxq (use : PopUse) (w : QWord) (fin : Finish) (s : State) : (usePopped use w fin s).2.rxq = s.rxq.tail := by
  cases use <;> rfl

/-- A queue access leaves `TXQ` or puts the word of a push at its tail, and leaves `RXQ` or takes its head. -/
theorem hostAccess_queues (b : Bool) (a : Access) (rest : List Access) (fin : Finish) (s : State) :
    ((hostAccess b a rest fin s).txq = s.txq ∨
      ∃ w n, a = .push w n ∧ s.txq.length < 4 ∧ (hostAccess b a rest fin s).txq = s.txq ++ [w]) ∧
    ((hostAccess b a rest fin s).rxq = s.rxq ∨ (hostAccess b a rest fin s).rxq = s.rxq.tail) := by
  rcases hostAccess_cases b a rest fin s with ⟨e, n, -, -, h⟩ | ⟨-, -, h⟩ | ⟨w, n, ha, hl, h⟩ | ⟨-, h⟩ | ⟨use, n, w, r, -, -, h⟩ <;>
    rw [h]
  · exact ⟨.inl rfl, .inl rfl⟩
  · exact ⟨.inl rfl, .inl rfl⟩
  · exact ⟨.inr ⟨w, n, ha, hl, proceed_txq b rest fin _⟩, .inl (proceed_rxq b rest fin _)⟩
  · exact ⟨.inl (proceed_txq b rest fin s), .inl (proceed_rxq b rest fin s)⟩
  · exact ⟨.inl ((proceed_txq b rest _ _).trans (usePopped_txq use w fin s)),
      .inr ((proceed_rxq b rest _ _).trans (usePopped_rxq use w fin s))⟩

/-- After a queue access the operation is over or goes on with accesses it had before. -/
theorem hostAccess_todo (b : Bool) (a : Access) (rest : List Access) (fin : Finish) (s : State) :
    (hostAccess b a rest fin s).hostOp = .idle ∨
    ∃ a' as fin', (hostAccess b a rest fin s).hostOp = .running b (a' :: as) fin' ∧
      (a' :: as = a :: rest ∨ a' :: as = rest) := by
  have hp : ∀ fin' t, (proceed b rest fin' t).hostOp = .idle ∨
      ∃ a' as fin'', (proceed b rest fin' t).hostOp = .running b (a' :: as) fin'' ∧ (a' :: as = a :: rest ∨ a' :: as = rest) := by
    intro fin' t
    cases rest with
    | nil => exact .inl (finishOp_hostOp fin' t)
    | cons a' as => exact .inr ⟨a', as, fin', rfl, .inr rfl⟩
  rcases hostAccess_cases b a rest fin s with ⟨e, n, -, -, h⟩ | ⟨-, -, h⟩ | ⟨w, n, -, -, h⟩ | ⟨-, h⟩ | ⟨use, n, w, r, -, -, h⟩ <;>
    rw [h]
  · exact .inl rfl
  · exact .inr ⟨a, rest, fin, rfl, .inl rfl⟩
  · exact hp _ _
  · exact hp _ _
  · exact hp _ _

/-! ### Lifecycle and size checks -/

theorem needArmed_of_armed {s : State} (t : State) (h : s.lifecycle = .armed) : needArmed s t = .next t := by
  simp [needArmed, h]

theorem needArmed_of_unarmed {s : State} (t : State) (h : s.lifecycle = .unarmed) :
    needArmed s t = .next (raise .wrongState 0 s) := by
  simp [needArmed, h]

theorem needUnarmed_of_unarmed {s : State} (t : State) (h : s.lifecycle = .unarmed) : needUnarmed s t = .next t := by
  simp [needUnarmed, h]

theorem needUnarmed_of_armed {s : State} (t : State) (h : s.lifecycle = .armed) :
    needUnarmed s t = .next (raise .wrongState 0 s) := by
  simp [needUnarmed, h]

theorem bitCountOk_iff (n : Nat) : bitCountOk n = true ↔ 1 ≤ n ∧ n ≤ 32 := by
  simp only [bitCountOk, Bool.and_eq_true, decide_eq_true_eq]; rfl

theorem byteCountOk_iff (n : Nat) : byteCountOk n = true ↔ 1 ≤ n ∧ n ≤ 16 := by
  simp only [byteCountOk, Bool.and_eq_true, decide_eq_true_eq]; rfl

theorem crcLenOk_iff (n : Nat) : crcLenOk n = true ↔ n ≤ 16 := by
  simp only [crcLenOk, decide_eq_true_eq]; rfl

end Sys2Proof.Machine
end

