-- ==== Sys2Proof/Laws/Search.lean ====
section
/-! SUPPORT. The parts of a discovery run: bits of the masks, one bit step, a walk over the positions, the advance, one pass. -/

namespace Sys2Proof.Machine

/-! ### Bits -/

/-- `setBit` changes the bit it names and no other. -/
theorem setBit_getLsbD {w : Nat} (v : BitVec w) (i j : Nat) (b : Bool) (hi : i < w) :
    (setBit v i b).getLsbD j = if j = i then b else v.getLsbD j := by
  have hone : ∀ k, k < w → ((1#w <<< i).getLsbD k = decide (k = i)) := by
    intro k hk
    simp only [BitVec.getLsbD_shiftLeft, BitVec.getLsbD_one, hk, decide_true, Bool.true_and]
    by_cases h : k = i
    · simp [h]; omega
    · by_cases h2 : k < i
      · simp [h2, h]
      · simp [h]; omega
  by_cases hj : j < w
  · cases b
    · rw [setBit, if_neg Bool.false_ne_true, BitVec.getLsbD_and, BitVec.getLsbD_not, hone j hj]
      by_cases h : j = i <;> simp [h, hj]
    · simp only [setBit, if_true, BitVec.getLsbD_or, hone j hj]
      by_cases h : j = i <;> simp [h]
  · have hne : j ≠ i := by omega
    rw [if_neg hne, BitVec.getLsbD_of_ge _ _ (by omega), BitVec.getLsbD_of_ge _ _ (by omega)]

/-! ### One bit step -/

/-- `t` is `s` but for the search masks, `bit_idx` and the line. -/
def WalkOnly (s t : State) : Prop :=
  t = { s with
    current := t.current
    discrepancy := t.discrepancy
    bitIdx := t.bitIdx
    lineOe := t.lineOe
    samples := t.samples
    lineLog := t.lineLog }

theorem WalkOnly.refl (s : State) : WalkOnly s s := rfl

theorem WalkOnly.trans {s t u : State} (h1 : WalkOnly s t) (h2 : WalkOnly t u) : WalkOnly s u := by
  unfold WalkOnly at *
  rw [h2, h1]

theorem WalkOnly.count_eq {s t : State} (h : WalkOnly s t) : t.count = s.count := by unfold WalkOnly at h; rw [h]
theorem WalkOnly.maxDev_eq {s t : State} (h : WalkOnly s t) : t.maxDev = s.maxDev := by unfold WalkOnly at h; rw [h]
theorem WalkOnly.res_eq {s t : State} (h : WalkOnly s t) : t.res = s.res := by unfold WalkOnly at h; rw [h]
theorem WalkOnly.lastBranchTaken_eq {s t : State} (h : WalkOnly s t) : t.lastBranchTaken = s.lastBranchTaken := by
  unfold WalkOnly at h; rw [h]

theorem walkOnly_readSlot (s : State) : WalkOnly s (readSlot s).2 := rfl

theorem readSlot_bitIdx (s : State) : (readSlot s).2.bitIdx = s.bitIdx := rfl

theorem readSlot_lineOe (s : State) : (readSlot s).2.lineOe = false := rfl

/-- The registers after position `i` is resolved: the address bit is the bit chosen, the mark is set exactly when the pair was (0, 0), and
the bit chosen is the bit read, or 1 exactly when an exhausted position is met again. -/
theorem resolveBit_spec (i : Nat) (v c : Bool) (s : State) (hi : i < 64) (hvc : (v && c) = false) :
    ((resolveBit i v c s).1 = if v ≠ c then v else (s.discrepancy.getLsbD i && s.current.getLsbD i)) ∧
    (∀ j, (resolveBit i v c s).2.current.getLsbD j = if j = i then (resolveBit i v c s).1 else s.current.getLsbD j) ∧
    (∀ j, (resolveBit i v c s).2.discrepancy.getLsbD j = if j = i then decide (v = c) else s.discrepancy.getLsbD j) ∧
    (resolveBit i v c s).2 =
      { s with current := (resolveBit i v c s).2.current, discrepancy := (resolveBit i v c s).2.discrepancy } := by
  unfold resolveBit
  by_cases h : v = c
  · subst h
    have hv : v = false := by simpa using hvc
    subst hv
    simp only [ne_eq, not_true_eq_false, if_false]
    cases hd : s.discrepancy.getLsbD i && s.current.getLsbD i
    · simp [setBit_getLsbD, hi]
    · have ⟨h1, h2⟩ : s.discrepancy.getLsbD i = true ∧ s.current.getLsbD i = true := by simpa using hd
      refine ⟨by simp, fun j => ?_, fun j => ?_, rfl⟩
      · by_cases hj : j = i
        · subst hj; simpa using h2
        · simp [hj]
      · by_cases hj : j = i
        · subst hj; simpa using h1
        · simp [hj]
  · simp [h, setBit_getLsbD, hi]

/-- A settled position, with its slot and `bit_idx` moved on. -/
theorem settleBit_eq (v c : Bool) (s : State) :
    settleBit v c s =
      { (resolveBit s.bitIdx.toNat v c s).2 with
        lineOe := false
        lineLog := slotLog (resolveBit s.bitIdx.toNat v c s).2.cfg (resolveBit s.bitIdx.toNat v c s).1 ++
          (resolveBit s.bitIdx.toNat v c s).2.lineLog
        bitIdx := s.bitIdx + 1#7 } := rfl

theorem resolveBit_shape (i : Nat) (v c : Bool) (s : State) :
    (resolveBit i v c s).2 =
      { s with current := (resolveBit i v c s).2.current, discrepancy := (resolveBit i v c s).2.discrepancy } := by
  unfold resolveBit
  split
  · rfl
  · split <;> rfl

theorem walkOnly_settleBit (v c : Bool) (s : State) : WalkOnly s (settleBit v c s) := by
  rw [settleBit_eq, resolveBit_shape]
  rfl

theorem settleBit_bitIdx (v c : Bool) (s : State) : (settleBit v c s).bitIdx = s.bitIdx + 1#7 := rfl

theorem settleBit_lineOe (v c : Bool) (s : State) : (settleBit v c s).lineOe = false := rfl

/-! ### A walk -/

/-- What one position of a walk does. -/
theorem walkBits_succ (n : Nat) (s : State) :
    walkBits (n + 1) s =
      if (readSlot s).1 && (readSlot (readSlot s).2).1 then (false, (readSlot (readSlot s).2).2)
      else walkBits n (settleBit (readSlot s).1 (readSlot (readSlot s).2).1 (readSlot (readSlot s).2).2) := rfl

/-- A walk touches the masks, `bit_idx` and the line only; a walk that began released ends released; it ends with `bit_idx` moved on by
the positions it settled, all of them unless a pair was (1, 1). -/
theorem walkBits_spec (n : Nat) (s : State) :
    WalkOnly s (walkBits n s).2 ∧ (s.lineOe = false → (walkBits n s).2.lineOe = false) ∧
      ∃ k, k ≤ n ∧ ((walkBits n s).1 = true → k = n) ∧ (walkBits n s).2.bitIdx = s.bitIdx + BitVec.ofNat 7 k := by
  induction n generalizing s with
  | zero => exact ⟨.refl s, id, 0, by omega, fun _ => rfl, by simp [walkBits]⟩
  | succ n ih =>
    rw [walkBits_succ]
    split
    · exact ⟨(walkOnly_readSlot s).trans (walkOnly_readSlot _), fun _ => readSlot_lineOe _, 0, by omega,
        fun h => absurd h Bool.false_ne_true, by rw [BitVec.add_zero, readSlot_bitIdx, readSlot_bitIdx]⟩
    · obtain ⟨h1, h2, k, hk, hk', hb⟩ := ih (settleBit (readSlot s).1 (readSlot (readSlot s).2).1 (readSlot (readSlot s).2).2)
      refine ⟨?_, fun _ => h2 (settleBit_lineOe _ _ _), k + 1, by omega, fun h => by rw [hk' h], ?_⟩
      · exact (((walkOnly_readSlot s).trans (walkOnly_readSlot _)).trans (walkOnly_settleBit _ _ _)).trans h1
      · rw [hb, settleBit_bitIdx, readSlot_bitIdx, readSlot_bitIdx, BitVec.add_assoc, BitVec.add_comm 1#7,
          BitVec.ofNat_add]

/-! ### The advance -/

/-- The scan, over positions below `n`: with no pending bit there it clears the marks there and answers NONE. -/
theorem advanceScan_none (n : Nat) (hn : n ≤ 64) (cur disc : BitVec 64)
    (h : ∀ j, j < n → disc.getLsbD j = true → cur.getLsbD j = true) :
    ∃ disc', advanceScan n cur disc = (cur, disc', 64#7) ∧
      ∀ j, disc'.getLsbD j = (!decide (j < n) && disc.getLsbD j) := by
  induction n generalizing disc with
  | zero => exact ⟨disc, rfl, fun j => by simp⟩
  | succ i ih =>
    rw [advanceScan]
    cases hd : disc.getLsbD i with
    | true =>
      have hc := h i (by omega) hd
      simp only [hc, if_true]
      obtain ⟨d, he, hb⟩ := ih (by omega) (setBit disc i false) (fun j hj hdj => by
        rw [setBit_getLsbD _ _ _ _ (by omega), if_neg (by omega)] at hdj
        exact h j (by omega) hdj)
      refine ⟨d, he, fun j => ?_⟩
      rw [hb, setBit_getLsbD _ _ _ _ (by omega)]
      by_cases hj : j = i
      · subst hj; simp
      · rw [if_neg hj, show decide (j < i + 1) = decide (j < i) by exact decide_eq_decide.mpr (by omega)]
    | false =>
      simp only [Bool.false_eq_true, if_false]
      obtain ⟨d, he, hb⟩ := ih (by omega) disc (fun j hj hdj => h j (by omega) hdj)
      refine ⟨d, he, fun j => ?_⟩
      rw [hb]
      by_cases hj : j = i
      · subst hj; simp [hd]
      · rw [show decide (j < i + 1) = decide (j < i) by exact decide_eq_decide.mpr (by omega)]

/-- The scan, over positions below `n`, when `i` is the highest pending bit there: `i` is set, the marks above it are cleared, the rest is
kept, and `i` is the answer. -/
theorem advanceScan_some (n i : Nat) (hn : n ≤ 64) (cur disc : BitVec 64) (hi : i < n) (hd : disc.getLsbD i = true)
    (hc : cur.getLsbD i = false) (h : ∀ j, i < j → j < n → disc.getLsbD j = true → cur.getLsbD j = true) :
    ∃ disc', advanceScan n cur disc = (setBit cur i true, disc', BitVec.ofNat 7 i) ∧
      ∀ j, disc'.getLsbD j = (!decide (i < j ∧ j < n) && disc.getLsbD j) := by
  induction n generalizing disc with
  | zero => omega
  | succ m ih =>
    rw [advanceScan]
    by_cases hm : i = m
    · subst hm
      simp only [hd, hc, if_true, Bool.false_eq_true, if_false]
      exact ⟨disc, rfl, fun j => by rw [decide_eq_false (by omega)]; rfl⟩
    · cases hdm : disc.getLsbD m with
      | true =>
        have hcm := h m (by omega) (by omega) hdm
        simp only [hcm, if_true]
        obtain ⟨d, he, hb⟩ := ih (by omega) (setBit disc m false) (by omega)
          (by rw [setBit_getLsbD _ _ _ _ (by omega), if_neg hm]; exact hd)
          (fun j hij hj hdj => by
            rw [setBit_getLsbD _ _ _ _ (by omega), if_neg (by omega)] at hdj
            exact h j hij (by omega) hdj)
        refine ⟨d, he, fun j => ?_⟩
        rw [hb, setBit_getLsbD _ _ _ _ (by omega)]
        by_cases hj : j = m
        · subst hj; simp [show i < j by omega]
        · rw [if_neg hj, show decide (i < j ∧ j < m + 1) = decide (i < j ∧ j < m) by exact decide_eq_decide.mpr (by omega)]
      | false =>
        simp only [Bool.false_eq_true, if_false]
        obtain ⟨d, he, hb⟩ := ih (by omega) disc (by omega) hd (fun j hij hj hdj => h j hij (by omega) hdj)
        refine ⟨d, he, fun j => ?_⟩
        rw [hb]
        by_cases hj : j = m
        · subst hj; simp [hdm]
        · rw [show decide (i < j ∧ j < m + 1) = decide (i < j ∧ j < m) by exact decide_eq_decide.mpr (by omega)]

/-- Either a pending bit is the highest, or there is none. -/
theorem pending_or_none (cur disc : BitVec 64) :
    (∃ i, i < 64 ∧ disc.getLsbD i = true ∧ cur.getLsbD i = false ∧
      ∀ j, i < j → disc.getLsbD j = true → cur.getLsbD j = true) ∨
    (∀ j, disc.getLsbD j = true → cur.getLsbD j = true) := by
  have key : ∀ n, n ≤ 64 →
      (∃ i, i < n ∧ disc.getLsbD i = true ∧ cur.getLsbD i = false ∧
        ∀ j, i < j → j < n → disc.getLsbD j = true → cur.getLsbD j = true) ∨
      (∀ j, j < n → disc.getLsbD j = true → cur.getLsbD j = true) := by
    intro n
    induction n with
    | zero => exact fun _ => .inr (fun j hj => by omega)
    | succ n ih =>
      intro hn
      by_cases hp : disc.getLsbD n = true ∧ cur.getLsbD n = false
      · exact .inl ⟨n, by omega, hp.1, hp.2, fun j h1 h2 => by omega⟩
      · have hn' : disc.getLsbD n = true → cur.getLsbD n = true := fun hd => by
          by_contra hc
          exact hp ⟨hd, by simpa using hc⟩
        rcases ih (by omega) with ⟨i, hi, hd, hc, h⟩ | h
        · refine .inl ⟨i, by omega, hd, hc, fun j h1 h2 hdj => ?_⟩
          by_cases hj : j = n
          · exact hj ▸ hn' (hj ▸ hdj)
          · exact h j h1 (by omega) hdj
        · refine .inr (fun j hj hdj => ?_)
          by_cases hjn : j = n
          · exact hjn ▸ hn' (hjn ▸ hdj)
          · exact h j (by omega) hdj
  have hge : ∀ j, disc.getLsbD j = true → j < 64 := fun j hdj => by
    by_contra hj
    rw [BitVec.getLsbD_of_ge disc j (by omega)] at hdj
    cases hdj
  rcases key 64 (by omega) with ⟨i, hi, hd, hc, h⟩ | h
  · exact .inl ⟨i, hi, hd, hc, fun j hij hdj => h j hij (hge j hdj) hdj⟩
  · exact .inr (fun j hdj => h j (hge j hdj) hdj)

/-- The answer of the scan is a position or NONE. -/
theorem advanceScan_le (n : Nat) (hn : n ≤ 64) (cur disc : BitVec 64) : (advanceScan n cur disc).2.2.toNat ≤ 64 := by
  induction n generalizing disc with
  | zero => exact (by decide : (64#7).toNat ≤ 64)
  | succ i ih =>
    rw [advanceScan]
    split
    · split
      · exact ih (by omega) _
      · rw [BitVec.toNat_ofNat, Nat.mod_eq_of_lt (by omega)]
        omega
    · exact ih (by omega) _

/-! ### One pass -/

/-- `t` is `s` but for the search registers, `RES`, the line and the response. -/
def SearchOnly (s t : State) : Prop :=
  t = { s with
    current := t.current
    discrepancy := t.discrepancy
    lastBranchTaken := t.lastBranchTaken
    bitIdx := t.bitIdx
    seState := t.seState
    count := t.count
    maxDev := t.maxDev
    res := t.res
    lineOe := t.lineOe
    samples := t.samples
    lineLog := t.lineLog
    rspStatus := t.rspStatus
    rspData := t.rspData
    hostOp := t.hostOp }

theorem SearchOnly.refl (s : State) : SearchOnly s s := rfl

theorem SearchOnly.trans {s t u : State} (h1 : SearchOnly s t) (h2 : SearchOnly t u) : SearchOnly s u := by
  unfold SearchOnly at *
  rw [h2, h1]

theorem WalkOnly.searchOnly {s t : State} (h : WalkOnly s t) : SearchOnly s t := by
  unfold WalkOnly at h
  rw [h]
  rfl

/-- The state in which the walk of a pass begins. -/
def passStart (s : State) : State := searchCommand (busReset s).2

/-- The walk of a pass over all 64 positions. -/
def passWalk (s : State) : Bool × State := walkBits 64 (passStart s)

/-- A pass in terms of its parts. -/
theorem searchPasses_eq (room : Nat) (s : State) :
    searchPasses room s =
      if (busReset s).1 then
        if (passWalk s).1 then
          match room with
          | 0 => searchExit .discoveryOverflow (passWalk s).2
          | room' + 1 =>
            if (searchAdvance (appendFound (passWalk s).2)).lastBranchTaken = 64#7 then
              searchExit .ok (searchAdvance (appendFound (passWalk s).2))
            else searchPasses room' (searchAdvance (appendFound (passWalk s).2))
        else searchExit .protocolViolation (passWalk s).2
      else searchNoPresence (busReset s).2 := by
  cases room <;> rfl

/-- The four ways a pass can go. -/
theorem searchPasses_cases (room : Nat) (s : State) :
    ((busReset s).1 = false ∧ searchPasses room s = searchNoPresence (busReset s).2) ∨
    ((busReset s).1 = true ∧ (passWalk s).1 = false ∧ searchPasses room s = searchExit .protocolViolation (passWalk s).2) ∨
    ((busReset s).1 = true ∧ (passWalk s).1 = true ∧ room = 0 ∧
      searchPasses room s = searchExit .discoveryOverflow (passWalk s).2) ∨
    (∃ room' t, (busReset s).1 = true ∧ (passWalk s).1 = true ∧ room = room' + 1 ∧
      t = searchAdvance (appendFound (passWalk s).2) ∧
      searchPasses room s = if t.lastBranchTaken = 64#7 then searchExit .ok t else searchPasses room' t) := by
  rw [searchPasses_eq]
  cases hp : (busReset s).1 with
  | false => exact .inl ⟨rfl, rfl⟩
  | true =>
    refine .inr ?_
    cases hw : (passWalk s).1 with
    | false => exact .inl ⟨rfl, rfl, rfl⟩
    | true =>
      refine .inr ?_
      cases room with
      | zero => exact .inl ⟨rfl, rfl, rfl, rfl⟩
      | succ room' => exact .inr ⟨room', _, rfl, rfl, rfl, rfl, rfl⟩

/-- The walk of a pass touches the masks, `bit_idx` and the line only, and ends released with `bit_idx` at most 64. -/
theorem passWalk_spec (s : State) :
    WalkOnly s (passWalk s).2 ∧ (passWalk s).2.lineOe = false ∧ (passWalk s).2.bitIdx.toNat ≤ 64 ∧
      ((passWalk s).1 = true → (passWalk s).2.bitIdx = 64#7) := by
  have hb : WalkOnly s (busReset s).2 := by
    obtain ⟨bs, p, -, -, h⟩ := busReset_spec s
    rw [h]; rfl
  have hc : WalkOnly (busReset s).2 (passStart s) := by
    rw [passStart, searchCommand, writeByte_eq]
    rfl
  have hi : (passStart s).bitIdx = 0#7 := rfl
  have hl : (passStart s).lineOe = false := by rw [passStart, searchCommand, writeByte_eq]
  obtain ⟨h1, h2, k, hk, hk', hbit⟩ := walkBits_spec 64 (passStart s)
  refine ⟨(hb.trans hc).trans h1, h2 hl, ?_, ?_⟩
  · rw [passWalk, hbit, hi]
    simp [BitVec.toNat_ofNat]
    omega
  · intro h
    rw [passWalk, hbit, hi, hk' h]
    rfl

/-! ### A run -/

/-- How a run can end (42_search_engine R172): no presence, completed with no branch left, conflict, no room. -/
inductive SearchEnd (maxDev : Nat) (t : State) : Prop where
  | empty (h : t.rspStatus = Status.ok.code ∧ t.count = 0)
  | done (h : t.rspStatus = Status.ok.code ∧ 1 ≤ t.count ∧ t.count ≤ maxDev ∧ t.discrepancy = 0#64 ∧ t.lastBranchTaken = 64#7)
  | conflict (h : t.rspStatus = Status.protocolViolation.code ∧ t.count ≤ maxDev)
  | overflow (h : t.rspStatus = Status.discoveryOverflow.code ∧ t.count = maxDev)

/-- What every run leaves, from a state with room for `room` more addresses. -/
structure SearchRun (s t : State) : Prop where
  frame : SearchOnly s t
  released : t.lineOe = false
  idle : t.seState = .idle
  noOp : t.hostOp = .idle
  maxDev : t.maxDev = s.maxDev
  data : t.rspData = BitVec.ofNat 64 t.count
  resLength : t.res.length = s.res.length
  resAbove : ∀ i, s.maxDev ≤ i → t.res[i]? = s.res[i]?
  bitIdx : s.bitIdx.toNat ≤ 64 → t.bitIdx.toNat ≤ 64
  lastBranch : s.lastBranchTaken.toNat ≤ 64 → t.lastBranchTaken.toNat ≤ 64
  ends : SearchEnd s.maxDev t

/-- The advance answers a position or NONE, and with NONE no mark is left. -/
theorem searchAdvance_spec (s : State) :
    (searchAdvance s).lastBranchTaken.toNat ≤ 64 ∧
      ((searchAdvance s).lastBranchTaken = 64#7 → (searchAdvance s).discrepancy = 0#64) := by
  refine ⟨advanceScan_le 64 (by omega) _ _, fun h => ?_⟩
  rcases pending_or_none s.current s.discrepancy with ⟨i, hi, hd, hc, hj⟩ | hn
  · obtain ⟨d, he, -⟩ := advanceScan_some 64 i (by omega) s.current s.discrepancy hi hd hc (fun j h1 _ => hj j h1)
    have he' : advanceScan Config.addrBits s.current s.discrepancy = _ := he
    rw [searchAdvance, he'] at h
    have ht := congrArg BitVec.toNat h
    rw [BitVec.toNat_ofNat, Nat.mod_eq_of_lt (by omega)] at ht
    have : (64#7).toNat = 64 := rfl
    omega
  · obtain ⟨d, he, hb⟩ := advanceScan_none 64 (by omega) s.current s.discrepancy (fun j _ => hn j)
    have he' : advanceScan Config.addrBits s.current s.discrepancy = _ := he
    rw [searchAdvance, he']
    apply BitVec.eq_of_getLsbD_eq
    intro j hj
    rw [hb, decide_eq_true hj]
    simp

theorem searchOnly_exit (st : Status) (s : State) : SearchOnly s (searchExit st s) := rfl

theorem searchOnly_found (s : State) : SearchOnly s (searchAdvance (appendFound s)) := rfl

/-- A run that ends at once, with no presence. -/
theorem searchRun_noPresence (s : State) : SearchRun s (searchNoPresence (busReset s).2) := by
  obtain ⟨bs, p, -, -, h⟩ := busReset_spec s
  rw [h]
  exact ⟨rfl, rfl, rfl, rfl, rfl, rfl, rfl, fun _ _ => rfl, id, id, .empty ⟨rfl, rfl⟩⟩

/-- A run that ends after a walk. -/
theorem searchRun_exit (st : Status) (s : State) (h : SearchEnd s.maxDev (searchExit st (passWalk s).2)) :
    SearchRun s (searchExit st (passWalk s).2) := by
  obtain ⟨hw, hl, hb, -⟩ := passWalk_spec s
  exact {
    frame := hw.searchOnly.trans (searchOnly_exit st _)
    released := hl
    idle := rfl
    noOp := rfl
    maxDev := hw.maxDev_eq
    data := rfl
    resLength := congrArg List.length hw.res_eq
    resAbove := fun i _ => congrArg (·[i]?) hw.res_eq
    bitIdx := fun _ => hb
    lastBranch := fun h => by
      show (passWalk s).2.lastBranchTaken.toNat ≤ 64
      rw [hw.lastBranchTaken_eq]
      exact h
    ends := h }

/-- What one address found and the advance after it leave. -/
theorem searchFound_spec (s : State) :
    (searchAdvance (appendFound (passWalk s).2)).lineOe = false ∧
    (searchAdvance (appendFound (passWalk s).2)).maxDev = s.maxDev ∧
    (searchAdvance (appendFound (passWalk s).2)).count = s.count + 1 ∧
    (searchAdvance (appendFound (passWalk s).2)).res = s.res.set s.count (passWalk s).2.current ∧
    (searchAdvance (appendFound (passWalk s).2)).bitIdx.toNat ≤ 64 ∧
    SearchOnly s (searchAdvance (appendFound (passWalk s).2)) := by
  obtain ⟨hw, hl, hb, -⟩ := passWalk_spec s
  have hc : (passWalk s).2.count = s.count := hw.count_eq
  have hr : (passWalk s).2.res = s.res := hw.res_eq
  refine ⟨hl, hw.maxDev_eq, ?_, ?_, hb, hw.searchOnly.trans (searchOnly_found _)⟩
  · show (passWalk s).2.count + 1 = _
    rw [hc]
  · show (passWalk s).2.res.set (passWalk s).2.count (passWalk s).2.current = _
    rw [hc, hr]

/-- A run leaves what `SearchRun` says, whatever the line answers. -/
theorem searchPasses_spec (room : Nat) (s : State) (h : s.count + room = s.maxDev) : SearchRun s (searchPasses room s) := by
  induction room generalizing s with
  | zero =>
    have hc : (passWalk s).2.count = s.count := (passWalk_spec s).1.count_eq
    rcases searchPasses_cases 0 s with ⟨-, he⟩ | ⟨-, -, he⟩ | ⟨-, -, -, he⟩ | ⟨room', t, -, -, hr, -⟩
    · exact he ▸ searchRun_noPresence s
    · exact he ▸ searchRun_exit _ s (.conflict ⟨rfl, show (passWalk s).2.count ≤ _ by omega⟩)
    · exact he ▸ searchRun_exit _ s (.overflow ⟨rfl, show (passWalk s).2.count = _ by omega⟩)
    · cases hr
  | succ room ih =>
    have hc : (passWalk s).2.count = s.count := (passWalk_spec s).1.count_eq
    rcases searchPasses_cases (room + 1) s with ⟨-, he⟩ | ⟨-, -, he⟩ | ⟨-, -, hr, -⟩ | ⟨room', t, -, -, hr, ht, he⟩
    · exact he ▸ searchRun_noPresence s
    · exact he ▸ searchRun_exit _ s (.conflict ⟨rfl, show (passWalk s).2.count ≤ _ by omega⟩)
    · cases hr
    · obtain rfl : room = room' := by omega
      obtain ⟨f1, f2, f3, f4, f5, f6⟩ := searchFound_spec s
      obtain ⟨g1, g2⟩ := searchAdvance_spec (appendFound (passWalk s).2)
      rw [← ht] at f1 f2 f3 f4 f5 f6 g1 g2
      have hres : ∀ i, s.maxDev ≤ i → t.res[i]? = s.res[i]? := fun i hi => by
        rw [f4, List.getElem?_set_ne (by omega)]
      rw [he]
      split
      · rename_i hn
        exact {
          frame := f6.trans (searchOnly_exit _ _)
          released := f1
          idle := rfl
          noOp := rfl
          maxDev := f2
          data := rfl
          resLength := by show t.res.length = _; rw [f4, List.length_set]
          resAbove := hres
          bitIdx := fun _ => f5
          lastBranch := fun _ => g1
          ends := .done ⟨rfl, show 1 ≤ t.count by omega, show t.count ≤ _ by omega, g2 hn, hn⟩ }
      · have r := ih t (by omega)
        exact {
          frame := f6.trans r.frame
          released := r.released
          idle := r.idle
          noOp := r.noOp
          maxDev := r.maxDev.trans f2
          data := r.data
          resLength := by rw [r.resLength, f4, List.length_set]
          resAbove := fun i hi => (r.resAbove i (by omega)).trans (hres i hi)
          bitIdx := fun _ => r.bitIdx f5
          lastBranch := fun _ => r.lastBranch g1
          ends := f2 ▸ r.ends }

end Sys2Proof.Machine
end

