-- ==== Sys2Proof/Laws/Engine.lean ====
section
/-! SUPPORT. What a command word does in each phase of the engine, and what an engine step can do, said once. -/

namespace Sys2Proof.Machine

/-- The bits of the shift register after a sample is shifted in at the top. -/
theorem shiftIn_getLsbD (b : Bool) (isr : QWord) (k : Nat) (hk : k < 32) :
    (shiftIn b isr).getLsbD k = if k = 31 then b else isr.getLsbD (k + 1) := by
  have h : shiftIn b isr = (BitVec.ofBool b ++ isr.extractLsb' 1 31 : BitVec (1 + 31)) := rfl
  have he : (BitVec.ofBool b ++ isr.extractLsb' 1 31 : BitVec (1 + 31)).getLsbD k =
      if k = 31 then b else isr.getLsbD (k + 1) := by
    rw [BitVec.getLsbD_append]
    by_cases h31 : k = 31
    · subst h31; cases b <;> rfl
    · rw [if_pos (show k < 31 by omega), if_neg h31, BitVec.getLsbD_extractLsb', decide_eq_true (show k < 31 by omega), Bool.true_and,
        Nat.add_comm]
  exact he

/-- One slot less to run. -/
theorem engBitcnt_pred (x : BitVec 6) (h : 1 ≤ x.toNat) : (x - 1#6).toNat + 1 = x.toNat := by revert x; decide

/-- `t` is `s` but for the queues, the engine registers and the line. -/
def EngineOnly (s t : State) : Prop :=
  t = { s with
    txq := t.txq
    rxq := t.rxq
    engState := t.engState
    engCmd := t.engCmd
    engBitcnt := t.engBitcnt
    engOsr := t.engOsr
    engIsr := t.engIsr
    engFault := t.engFault
    lineOe := t.lineOe
    samples := t.samples
    lineLog := t.lineLog }

theorem EngineOnly.refl (s : State) : EngineOnly s s := rfl

theorem EngineOnly.trans {s t u : State} (h1 : EngineOnly s t) (h2 : EngineOnly t u) : EngineOnly s u := by
  unfold EngineOnly at *
  rw [h2, h1]

/-- A command word is executed to a next state in which only the engine registers, `RXQ` and the line may differ. -/
theorem exec_command {w : QWord} {i : Instr} (h : decodeCommand w = .ok i) (s : State) :
    ∃ t, exec i s = .next t ∧ EngineOnly s t ∧ t.txq = s.txq ∧ t.engCmd = s.engCmd ∧ t.engFault = s.engFault := by
  rcases decodeCommand_cases h with ⟨-, rfl⟩ | ⟨-, rfl⟩ | ⟨-, rfl⟩ | ⟨-, rfl⟩
  · refine ⟨_, rfl, ?_⟩
    split <;> exact ⟨rfl, rfl, rfl, rfl⟩
  · refine ⟨_, rfl, ?_⟩
    split
    · exact ⟨rfl, rfl, rfl, rfl⟩
    · unfold waitIdleStep lineSample
      dsimp only
      split <;> exact ⟨rfl, rfl, rfl, rfl⟩
    all_goals exact ⟨rfl, rfl, rfl, rfl⟩
  · refine ⟨_, rfl, ?_⟩
    split <;> exact ⟨rfl, rfl, rfl, rfl⟩
  · refine ⟨_, rfl, ?_⟩
    split
    · exact ⟨rfl, rfl, rfl, rfl⟩
    · exact ⟨rfl, rfl, rfl, rfl⟩
    · unfold pushStep
      split <;> exact ⟨rfl, rfl, rfl, rfl⟩
    all_goals exact ⟨rfl, rfl, rfl, rfl⟩

/-- What an engine step can be: nothing, a fetch of a reserved word, a fetch that starts a command, a step of the command in `eng_cmd`, the
delivery of a result. -/
theorem engineStep_cases {s t : State} (h : engineStep s = .next t) :
    t = s ∨
    (∃ w r, s.engState = .fetch ∧ s.txq = w :: r ∧ decodeCommand w = .error (.reservedCommand w) ∧
      t = reservedFetched (txFetch w r s)) ∨
    (∃ w r i, s.engState = .fetch ∧ s.txq = w :: r ∧ decodeCommand w = .ok i ∧ exec i (txFetch w r s) = .next t) ∨
    (∃ i, s.engState = .exec ∧ decodeCommand s.engCmd = .ok i ∧ exec i s = .next t) ∨
    (s.engState = .push ∧ s.rxq.length < 4 ∧ t = deliverResult s) := by
  unfold engineStep at h
  cases hs : s.engState with
  | off => rw [hs] at h; injection h with h; exact .inl h.symm
  | fault => rw [hs] at h; injection h with h; exact .inl h.symm
  | fetch =>
    rw [hs] at h
    simp only [fetchStep] at h
    cases hq : s.txq with
    | nil => rw [hq] at h; injection h with h; exact .inl h.symm
    | cons w r =>
      rw [hq] at h
      simp only at h
      cases hd : decodeCommand w with
      | ok i => rw [hd] at h; exact .inr (.inr (.inl ⟨w, r, i, rfl, rfl, hd, h⟩))
      | error e =>
        rw [hd] at h
        injection h with h
        exact .inr (.inl ⟨w, r, rfl, rfl, decodeCommand_error hd ▸ hd, h.symm⟩)
  | exec =>
    rw [hs] at h
    simp only at h
    cases hd : decodeCommand s.engCmd with
    | ok i => rw [hd] at h; exact .inr (.inr (.inr (.inl ⟨i, rfl, rfl, h⟩)))
    | error e => rw [hd] at h; injection h with h; exact .inl h.symm
  | push =>
    rw [hs] at h
    injection h with h
    unfold pushStep at h
    cases hf : s.rxFull with
    | true => rw [hf] at h; exact .inl h.symm
    | false => rw [hf] at h; exact .inr (.inr (.inr (.inr ⟨rfl, (rxFull_eq_false_iff s).mp hf, h.symm⟩)))

/-- The engine always answers a next state. -/
theorem engineStep_next (s : State) : ∃ t, engineStep s = .next t := by
  unfold engineStep
  split
  · exact ⟨s, rfl⟩
  · exact ⟨s, rfl⟩
  · unfold fetchStep
    split
    · exact ⟨s, rfl⟩
    · split
      · rename_i hd
        obtain ⟨t, ht, -⟩ := exec_command hd (txFetch _ _ s)
        exact ⟨t, ht⟩
      · exact ⟨_, rfl⟩
  · split
    · rename_i hd
      obtain ⟨t, ht, -⟩ := exec_command hd s
      exact ⟨t, ht⟩
    · exact ⟨s, rfl⟩
  · exact ⟨_, rfl⟩

end Sys2Proof.Machine
end

