-- ==== Sys2Proof/Laws/PerInstr.lean ====
section
/-! SUPPORT. One family of statements about every instruction as syntax: the encoding of a well-formed instruction is no reserved one. -/

namespace Sys2Proof.Laws.EncodingFits

/-- An encoding that is not reserved: a request whose zero bits are 0 and whose operation number is one of the map (30_encoding R95), or a
command word of a known code with its zero fields 0 (30_encoding R105). -/
def notReserved : Encoded → Prop
  | .request code _ => reqZero code = 0#2 ∧ (reqOp code).toNat ≤ 0x12
  | .command w => decodeCommand w ≠ .error (.reservedCommand w)

/-- The encoding of `i`, if `i` is well-formed, is not reserved. -/
def Statement (i : Instr) : Prop := i.wf = true → notReserved (encode i)

/-- A request built from a flag and an operation number of the map is not reserved. -/
theorem request_notReserved (b : Bool) (op : BitVec 5) (arg : Word64) (h : op.toNat ≤ 0x12) :
    notReserved (.request (reqCode b op) arg) :=
  ⟨reqZero_reqCode b op, by rw [reqOp_reqCode]; exact h⟩

theorem crcCompute (len : Nat) : Statement (.crcCompute len) := fun _ => request_notReserved _ _ _ (by decide)
theorem crcCheck (len : Nat) : Statement (.crcCheck len) := fun _ => request_notReserved _ _ _ (by decide)
theorem btReset : Statement .btReset := fun _ => request_notReserved _ _ _ (by decide)
theorem btWriteBit (bit : Bool) : Statement (.btWriteBit bit) := fun _ => request_notReserved _ _ _ (by decide)
theorem btWriteByte (byte : Byte) : Statement (.btWriteByte byte) := fun _ => request_notReserved _ _ _ (by decide)
theorem btReadBit : Statement .btReadBit := fun _ => request_notReserved _ _ _ (by decide)
theorem discover (maxDevices : Nat) : Statement (.discover maxDevices) := fun _ => request_notReserved _ _ _ (by decide)
theorem arm : Statement .arm := fun _ => request_notReserved _ _ _ (by decide)
theorem llReset (blocking : Bool) : Statement (.llReset blocking) := fun _ => request_notReserved _ _ _ (by decide)
theorem llWaitIdle (blocking : Bool) : Statement (.llWaitIdle blocking) := fun _ => request_notReserved _ _ _ (by decide)
theorem llWriteByte (blocking : Bool) (value : Byte) : Statement (.llWriteByte blocking value) :=
  fun _ => request_notReserved _ _ _ (by decide)
theorem llWriteWord (blocking : Bool) (value : BitVec 16) : Statement (.llWriteWord blocking value) :=
  fun _ => request_notReserved _ _ _ (by decide)
theorem llReadBits (blocking : Bool) (count : Nat) : Statement (.llReadBits blocking count) :=
  fun _ => request_notReserved _ _ _ (by decide)
theorem llPull (blocking : Bool) (count : Nat) : Statement (.llPull blocking count) :=
  fun _ => request_notReserved _ _ _ (by decide)
theorem llReadBytes (blocking : Bool) (count : Nat) : Statement (.llReadBytes blocking count) :=
  fun _ => request_notReserved _ _ _ (by decide)
theorem llMatchRom (blocking : Bool) (address : Word64) : Statement (.llMatchRom blocking address) :=
  fun _ => request_notReserved _ _ _ (by decide)
theorem llSkipRom (blocking : Bool) : Statement (.llSkipRom blocking) := fun _ => request_notReserved _ _ _ (by decide)
theorem llReadByte (blocking : Bool) : Statement (.llReadByte blocking) := fun _ => request_notReserved _ _ _ (by decide)
theorem llReadWord (blocking : Bool) : Statement (.llReadWord blocking) := fun _ => request_notReserved _ _ _ (by decide)
theorem reset : Statement .reset := fun _ h => by cases h
theorem waitIdle : Statement .waitIdle := fun _ h => by cases h
theorem wrBits (n : Nat) (value : BitVec 16) : Statement (.wrBits n value) := fun hw h => by
  rw [decodeCommand_wrBitsWord n value hw] at h
  cases h
theorem rdBits (n : Nat) : Statement (.rdBits n) := fun hw h => by
  rw [decodeCommand_rdBitsWord n hw] at h
  cases h

end Sys2Proof.Laws.EncodingFits
end

