-- ==== Sys2Proof/Laws/Step.lean ====
section
/-! SUPPORT. What a served request can do, and what a step can be, said once. -/

namespace Sys2Proof.Machine

/-- What executing a host operation can leave: an error response; the CRC register and a response; the line and a response, unarmed; a
discovery run, unarmed; the arming; the first queue access of an armed operation, of which at least one is to be made. -/
inductive Served (s t : State) : Prop where
  | error (e : Status) (h : t = raise e 0 s)
  | crc (st : Status) (d : Word64) (c : Byte) (h : t = respond st d { s with crc := c })
  | line (d : Word64) (n : Nat) (new : List LineEvent) (hl : s.lifecycle = .unarmed)
      (h : t = respond .ok d { s with lineOe := false, samples := s.samples.drop n, lineLog := new ++ s.lineLog })
  | search (m : Nat) (hl : s.lifecycle = .unarmed) (hm : m ≤ s.cfg.resDepth) (h : t = searchPasses m (searchStart m s))
  | armed (hl : s.lifecycle = .unarmed) (h : t = armBlock s)
  | access (b : Bool) (todo : List Access) (fin : Finish) (hl : s.lifecycle = .armed) (hne : todo ≠ [])
      (h : t = startOp b todo fin s)

theorem served_needUnarmed {s served t : State} (h : needUnarmed s served = .next t)
    (hs : s.lifecycle = .unarmed → Served s served) : Served s t := by
  cases hl : s.lifecycle with
  | unarmed => rw [needUnarmed_of_unarmed _ hl] at h; injection h with h; exact h ▸ hs hl
  | armed => rw [needUnarmed_of_armed _ hl] at h; injection h with h; exact .error _ h.symm

theorem served_needArmed {s served t : State} (h : needArmed s served = .next t) (hs : s.lifecycle = .armed → Served s served) :
    Served s t := by
  cases hl : s.lifecycle with
  | unarmed => rw [needArmed_of_unarmed _ hl] at h; injection h with h; exact .error _ h.symm
  | armed => rw [needArmed_of_armed _ hl] at h; injection h with h; exact h ▸ hs hl

theorem served_checkSize {s served : State} (legal : Bool) (hs : legal = true → Served s served) :
    Served s (checkSize legal s served) := by
  cases legal with
  | true => exact hs rfl
  | false => exact .error _ rfl

theorem readBytesAccesses_ne_nil (b : Bool) (count : Nat) (h : byteCountOk count = true) : readBytesAccesses b count ≠ [] := by
  cases b with
  | false => exact List.cons_ne_nil _ _
  | true =>
    obtain ⟨h1, h2⟩ := (byteCountOk_iff count).mp h
    interval_cases count <;> exact List.cons_ne_nil _ _

/-- An operation of a host request leaves what `Served` says. -/
theorem exec_served {code : BitVec 8} {arg : Word64} {i : Instr} (hd : decodeRequest code arg = .ok i) {s t : State}
    (h : exec i s = .next t) : Served s t := by
  have pushed : ∀ b w, s.lifecycle = .armed → Served s (pushOne b w s) := fun b w hl =>
    .access b [.push w 0] (.reply 0#64) hl (List.cons_ne_nil _ _) rfl
  have read : ∀ b n, s.lifecycle = .armed → Served s (readUnit b n s) := fun b n hl =>
    .access b [.push (encRdBits n) 0, .pop (.answer n) 1] (.reply 0#64) hl (List.cons_ne_nil _ _) rfl
  obtain ⟨code', arg', he⟩ := encode_of_decodeRequest hd
  cases i with
  | crcCompute len =>
    injection h with h
    exact h ▸ served_checkSize _ fun _ => .crc _ _ _ rfl
  | crcCheck len =>
    injection h with h
    exact h ▸ served_checkSize _ fun _ => .crc _ _ _ rfl
  | btReset =>
    refine served_needUnarmed h fun hl => ?_
    obtain ⟨bs, p, -, -, hb⟩ := busReset_spec s
    rw [hb]
    exact .line _ _ (.delay (s.cfg.tRsth - bs.length * s.cfg.tPresPoll) ::
      ((bs.flatMap (fun b => [.delay s.cfg.tPresPoll, .sample b])).reverse ++ [.release, .delay s.cfg.tRstl, .low])) hl rfl
  | btWriteBit bit => exact served_needUnarmed h fun hl => .line _ 0 (slotLog s.cfg bit) hl rfl
  | btWriteByte byte =>
    refine served_needUnarmed h fun hl => ?_
    rw [writeByte_eq]
    exact .line _ 0 _ hl rfl
  | btReadBit =>
    refine served_needUnarmed h fun hl => ?_
    rw [readSlot_eq, ← List.drop_one]
    exact .line _ 1 _ hl rfl
  | discover m => exact served_needUnarmed h fun hl => served_checkSize _ fun hm => .search m hl (of_decide_eq_true hm) rfl
  | arm => exact served_needUnarmed h fun hl => .armed hl rfl
  | llReset b => exact served_needArmed h (pushed b _)
  | llWaitIdle b => exact served_needArmed h (pushed b _)
  | llWriteByte b v => exact served_needArmed h (pushed b _)
  | llWriteWord b v => exact served_needArmed h (pushed b _)
  | llReadBits b n => exact served_needArmed h fun hl => served_checkSize _ fun _ => pushed b _ hl
  | llPull b n =>
    exact served_needArmed h fun hl => served_checkSize _ fun _ => .access b [.pop (.answer n) 0] _ hl (List.cons_ne_nil _ _) rfl
  | llReadBytes b n =>
    exact served_needArmed h fun hl => served_checkSize _ fun hc => .access b _ _ hl (readBytesAccesses_ne_nil b n hc) rfl
  | llMatchRom b a => exact served_needArmed h fun hl => .access b _ _ hl (by simp [matchRomAccesses, matchRomWords]) rfl
  | llSkipRom b => exact served_needArmed h (pushed b _)
  | llReadByte b => exact served_needArmed h (read b _)
  | llReadWord b => exact served_needArmed h (read b _)
  | reset => cases he
  | waitIdle => cases he
  | wrBits n v => cases he
  | rdBits n => cases he

/-- What a host step can be: nothing, an access of the operation in progress, its end, a request served or answered `IllegalOp`, a byte
written to `BUF`. -/
theorem hostStep_cases {s t : State} (h : hostStep s = .next t) :
    (s.hostOp = .idle ∧ t = s) ∨
    (∃ b a rest fin, s.hostOp = .running b (a :: rest) fin ∧ t = hostAccess b a rest fin s) ∨
    (∃ b fin, s.hostOp = .running b [] fin ∧ t = finishOp fin s) ∨
    (∃ code arg is i, s.hostOp = .idle ∧ s.inputs = .request code arg :: is ∧ decodeRequest code arg = .ok i ∧
      exec i { s with inputs := is } = .next t) ∨
    (∃ code arg is, s.hostOp = .idle ∧ s.inputs = .request code arg :: is ∧ t = raise .illegalOp 0 { s with inputs := is }) ∨
    (∃ i v is, s.hostOp = .idle ∧ s.inputs = .bufWrite i v :: is ∧ t = hostWriteBuf i v { s with inputs := is }) := by
  unfold hostStep at h
  split at h
  · injection h with h
    exact .inr (.inl ⟨_, _, _, _, ‹_›, h.symm⟩)
  · injection h with h
    exact .inr (.inr (.inl ⟨_, _, ‹_›, h.symm⟩))
  · split at h
    · unfold serveRequest at h
      split at h
      · exact .inr (.inr (.inr (.inl ⟨_, _, _, _, ‹_›, ‹_›, ‹_›, h⟩)))
      · injection h with h
        exact .inr (.inr (.inr (.inr (.inl ⟨_, _, _, ‹_›, ‹_›, h.symm⟩))))
    · injection h with h
      exact .inr (.inr (.inr (.inr (.inr ⟨_, _, _, ‹_›, ‹_›, h.symm⟩))))
    · injection h with h
      exact .inl ⟨‹_›, h.symm⟩
    · injection h with h
      exact .inl ⟨‹_›, h.symm⟩

/-- What a platform step can be: nothing, or block reset. -/
theorem platformStep_cases {s t : State} (h : platformStep s = .next t) :
    t = s ∨ ∃ is, s.inputs = .blockReset :: is ∧ t = blockReset { s with inputs := is } := by
  unfold platformStep at h
  split at h <;> injection h with h
  · exact .inr ⟨_, ‹_›, h.symm⟩
  all_goals exact .inl h.symm

/-- The state an agent moves from: a choice of an agent may have been used up. -/
theorem pickAgent_cases {s u : State} {a : Agent} (h : pickAgent s = (some a, u)) :
    agentReady s a = true ∧ (u = s ∨ u = afterTurn s) := by
  have hr : ∀ x, x ∈ readyAgents s → agentReady s x = true := fun x hx => (List.mem_filter.mp hx).2
  unfold pickAgent at h
  split at h
  · simp at h
  · rename_i x hx
    injection h with h1 h2
    injection h1 with h1
    exact ⟨hr a (by rw [hx, h1]; exact List.mem_cons_self), .inl h2.symm⟩
  · rename_i x xs _ hx
    injection h with h1 h2
    injection h1 with h1
    refine ⟨?_, .inr h2.symm⟩
    subst h1
    split
    · assumption
    · exact hr x (by rw [hx]; exact List.mem_cons_self)

theorem afterTurn_eq (s : State) : afterTurn s = { s with turns := (afterTurn s).turns, turnDraws := (afterTurn s).turnDraws } := by
  unfold afterTurn
  split <;> rfl

/-- What a step to a next state can be: a step of an agent that has one, from the state or the state with a choice used up; or nothing, when no
agent has a step and no operation is in progress. -/
theorem step_cases {s t : State} (h : step s = .next t) :
    (∃ a u, agentReady s a = true ∧ (u = s ∨ u = afterTurn s) ∧ agentStep a u = .next t) ∨ (s.hostOp = .idle ∧ t = s) := by
  unfold step at h
  split at h
  · obtain ⟨h1, h2⟩ := pickAgent_cases ‹_›
    exact .inl ⟨_, _, h1, h2, h⟩
  · rename_i u hu
    have : u = s := by
      unfold pickAgent at hu
      split at hu
      · injection hu with _ hu; exact hu.symm
      · simp at hu
      · simp at hu
    subst this
    unfold noStep at h
    split at h
    · injection h with h; exact .inr ⟨‹_›, h.symm⟩
    · cases h

end Sys2Proof.Machine
end

