-- ==== Sys2Proof/Tests/Slice0.lean ====
section
/-! SUPPORT. Tests on fixed values: ill-formed terms refused; words written out from the spec's encodings decoded; one step of each
instruction against the vectors of spec/95_test_vectors.md; and, for each statement with hypotheses, a state that meets them. -/

namespace Sys2Proof.Tests

open Sys2Proof.Machine Sys2Proof.Claims

/-! ### Helpers -/

/-- The state after block reset with `BUF` and `RES` written with zeros, so that states can be compared. -/
def rested : State := { State.reset with res := List.replicate 4 0#64, buf := Vector.replicate 16 0x00#8 }

/-- `rested`, armed and idle, with these queues. -/
def armedWith (tx rx : List QWord) : State := { rested with lifecycle := .armed, engState := .fetch, txq := tx, rxq := rx }

/-- Armed, with these queues and this operation in progress. -/
def running (tx rx : List QWord) (op : HostOp) : State := { armedWith tx rx with hostOp := op }

/-- `BUF` with these bytes from index 0 on. -/
def bufOf (bytes : List Byte) : Vector Byte 16 := Vector.ofFn (fun i => bytes.getD i.val 0x00#8)

/-- A part of the next state. -/
def look {α : Type} (r : Result) (f : State → α) : Option α :=
  match r with
  | .next t => some (f t)
  | _ => none

/-- The response in the next state. -/
def answer (r : Result) : Option (BitVec 4 × Word64) := look r (fun t => (t.rspStatus, t.rspData))

/-- A list of four full slots. -/
def fullTx : List QWord := [0x30070011#32, 0x30070022#32, 0x30070033#32, 0x30070044#32]

/-- The request `(code, arg)` as the host's next input. -/
def asking (code : BitVec 8) (arg : Word64) (s : State) : State := { s with inputs := [.request code arg] }

/-! ### Well-formedness: 30_encoding R91, R97 -/

theorem test_ill_len : (Instr.crcCompute (2 ^ 64)).wf = false ∧ (Instr.crcCheck (2 ^ 64)).wf = false := by decide
theorem test_ill_max_devices : (Instr.discover (2 ^ 64)).wf = false := by decide
theorem test_ill_count :
    (Instr.llReadBits true (2 ^ 64)).wf = false ∧ (Instr.llPull true (2 ^ 64)).wf = false ∧
      (Instr.llReadBytes true (2 ^ 64)).wf = false := by decide
theorem test_ill_wrBits : (Instr.wrBits 0 0#16).wf = false ∧ (Instr.wrBits 17 0#16).wf = false := by decide
theorem test_ill_rdBits : (Instr.rdBits 0).wf = false ∧ (Instr.rdBits 33).wf = false := by decide
theorem test_well_formed :
    (Instr.crcCompute (2 ^ 64 - 1)).wf = true ∧ (Instr.wrBits 16 0xFFFF#16).wf = true ∧ (Instr.rdBits 32).wf = true := by decide

/-! ### Decoding: the codes of 30_encoding R94 and the words of R97, written out bit by bit; operands from the argument as R92 -/

theorem test_decode_crc :
    decodeTableWord 8 0b00000000 = some (.crcCompute 0) ∧ decodeTableWord 8 0b00000001 = some (.crcCheck 0) ∧
    decode (.request 0b00000000#8 9#64) = .ok (.crcCompute 9) ∧ decode (.request 0b00000001#8 17#64) = .ok (.crcCheck 17) := by decide
theorem test_decode_bt :
    decodeTableWord 8 0b00000010 = some .btReset ∧ decode (.request 0b00000011#8 0xFF#64) = .ok (.btWriteBit true) ∧
    decode (.request 0b00000011#8 0xFE#64) = .ok (.btWriteBit false) ∧
    decode (.request 0b00000100#8 0x1F0#64) = .ok (.btWriteByte 0xF0#8) ∧ decodeTableWord 8 0b00000101 = some .btReadBit := by decide
theorem test_decode_discover_arm :
    decode (.request 0b00000110#8 4#64) = .ok (.discover 4) ∧ decodeTableWord 8 0b00000111 = some .arm := by decide
/-- 30_encoding R96: the flag is not read below 0x08. -/
theorem test_decode_flag_not_read :
    decodeTableWord 8 0b10000010 = some .btReset ∧ decode (.request 0b10000110#8 4#64) = .ok (.discover 4) := by decide
theorem test_decode_ll_plain :
    decodeTableWord 8 0b10001000 = some (.llReset true) ∧ decodeTableWord 8 0b00001001 = some (.llWaitIdle false) ∧
    decodeTableWord 8 0b10010000 = some (.llSkipRom true) ∧ decodeTableWord 8 0b00010001 = some (.llReadByte false) ∧
    decodeTableWord 8 0b10010010 = some (.llReadWord true) := by decide
theorem test_decode_ll_operands :
    decode (.request 0b10001010#8 0xBE#64) = .ok (.llWriteByte true 0xBE#8) ∧
    decode (.request 0b10001011#8 0x1128#64) = .ok (.llWriteWord true 0x1128#16) ∧
    decode (.request 0b00001100#8 12#64) = .ok (.llReadBits false 12) ∧
    decode (.request 0b10001101#8 8#64) = .ok (.llPull true 8) ∧
    decode (.request 0b00001110#8 9#64) = .ok (.llReadBytes false 9) ∧
    decode (.request 0b10001111#8 0x5666554433221128#64) = .ok (.llMatchRom true 0x5666554433221128#64) := by decide
/-- 95 section 5: `0x300F0000`, `0x30000000`, `0x40000000` and the words of V5.1 to V5.8. -/
theorem test_decode_commands :
    decodeTableWord 32 0b00010000000000000000000000000000 = some .reset ∧
    decodeTableWord 32 0b00100000000000000000000000000000 = some .waitIdle ∧
    decodeTableWord 32 0b00110000000011110000000000000000 = some (.wrBits 16 0x0000#16) ∧
    decodeTableWord 32 0b00110000000000000000000000000000 = some (.wrBits 1 0x0000#16) ∧
    decodeTableWord 32 0b00110000000001110000000011001100 = some (.wrBits 8 0x00CC#16) ∧
    decodeTableWord 32 0b01000000000000000000000000000000 = some (.rdBits 1) ∧
    decodeTableWord 32 0b01000000000000000000000000011111 = some (.rdBits 32) := by decide
/-- 95 section 5 and V7.1, V7.2. -/
theorem test_decode_reserved :
    decodeTableWord 32 0x10000001 = none ∧ decodeTableWord 32 0x30100000 = none ∧ decodeTableWord 32 0x40000020 = none ∧
    decodeTableWord 32 0x00000000 = none ∧ decodeTableWord 32 0xFFFFFFFF = none ∧
    decodeTableWord 8 0x13 = none ∧ decodeTableWord 8 0x1F = none ∧ decodeTableWord 8 0x9F = none ∧ decodeTableWord 8 0x21 = none := by
  decide
/-- The words of 95 V6.4 to V6.6, V6.16 are what the link layer builds (30_encoding R99). -/
theorem test_built_words :
    encWrBits 8 0x00BE#16 = 0x300700BE#32 ∧ encWrBits 16 0x1128#16 = 0x300F1128#32 ∧ encRdBits 12 = 0x4000000B#32 ∧
    matchRomWords 0x55#8 0x5666554433221128#64 =
      [0x30070055#32, 0x300F1128#32, 0x300F3322#32, 0x300F5544#32, 0x300F5666#32] := by decide

/-! ### The CRC unit: 95 section 2 -/

/-- V2.3, V2.5, V2.7, V2.18. -/
theorem test_crc8 :
    crc8 [0x01#8] = 0x5E#8 ∧ crc8 [0xFF#8] = 0x35#8 ∧
    crc8 [0x31#8, 0x32#8, 0x33#8, 0x34#8, 0x35#8, 0x36#8, 0x37#8, 0x38#8, 0x39#8] = 0xA1#8 ∧
    crc8 [0x28#8, 0x11#8, 0x22#8, 0x33#8, 0x44#8, 0x55#8, 0x66#8] = 0x56#8 := by decide +kernel
/-- The single steps of 95 section 2. -/
theorem test_crcStep :
    crcStep 0x00#8 true = 0x8C#8 ∧ crcStep 0x8C#8 false = 0x46#8 ∧ crcStep 0x01#8 false = 0x8C#8 ∧ crcStep 0x01#8 true = 0x00#8 := by
  decide
/-- V2.13. -/
theorem test_crcCompute :
    answer (exec (.crcCompute 8) { rested with buf := bufOf [0x50#8, 0x05#8, 0x4B#8, 0x46#8, 0x7F#8, 0xFF#8, 0x0C#8, 0x10#8] }) =
      some (0#4, 0x1C#64) := by decide +kernel
theorem test_crcCompute_too_long : answer (exec (.crcCompute 17) rested) = some (3#4, 0#64) := by decide
/-- V2.14 and V2.15. -/
theorem test_crcCheck :
    answer (exec (.crcCheck 9) { rested with buf := bufOf [0x50#8, 0x05#8, 0x4B#8, 0x46#8, 0x7F#8, 0xFF#8, 0x0C#8, 0x10#8, 0x1C#8] }) =
      some (0#4, 0x00#64) ∧
    answer (exec (.crcCheck 9) { rested with buf := bufOf [0x50#8, 0x05#8, 0x4B#8, 0x46#8, 0x7F#8, 0xFF#8, 0x0C#8, 0x10#8, 0x1D#8] }) =
      some (4#4, 0x5E#64) := by decide +kernel
theorem test_crcCheck_one_byte : answer (exec (.crcCheck 1) { rested with buf := bufOf [0x01#8] }) = some (4#4, 0x5E#64) := by decide

/-! ### The bit-timing controller: 95 section 3 -/

/-- V3.2. -/
theorem test_btReset :
    look (exec .btReset { rested with samples := [true, true, false] }) (fun t => (t.rspData, t.lineLog.reverse)) =
      some (1#64, [.low, .delay 500, .release, .delay 30, .sample true, .delay 30, .sample true, .delay 30, .sample false,
        .delay 410]) := by decide
/-- V3.3. -/
theorem test_btReset_no_presence :
    look (exec .btReset { rested with samples := List.replicate 9 true }) (fun t => (t.rspStatus, t.rspData, t.samples, t.lineLog.head?)) =
      some (0#4, 0#64, [true], some (.delay 260)) := by decide
/-- V3.4 and V3.5. -/
theorem test_btWriteBit :
    look (exec (.btWriteBit true) rested) (fun t => t.lineLog.reverse) = some [.low, .delay 5, .release, .delay 60] ∧
    look (exec (.btWriteBit false) rested) (fun t => t.lineLog.reverse) = some [.low, .delay 60, .release, .delay 5] := by decide
/-- V3.7. -/
theorem test_btWriteByte :
    look (exec (.btWriteByte 0xF0#8) rested) (fun t => t.lineLog.reverse) =
      some ((List.replicate 4 [LineEvent.low, .delay 60, .release, .delay 5]).flatten ++
        (List.replicate 4 [LineEvent.low, .delay 5, .release, .delay 60]).flatten) := by decide
/-- V3.8 and V3.9. -/
theorem test_btReadBit :
    look (exec .btReadBit { rested with samples := [false] }) (fun t => (t.rspData, t.lineLog.reverse)) =
      some (0#64, [.low, .delay 4, .release, .delay 8, .sample false, .delay 53]) ∧
    answer (exec .btReadBit { rested with samples := [true] }) = some (0#4, 1#64) := by decide
/-- V3.10. -/
theorem test_bt_armed : answer (exec .btReset (armedWith [] [])) = some (7#4, 0#64) := by decide

/-! ### The search engine: 95 section 4 -/

/-- V4.15: 50 line events. -/
theorem test_discover_conflict :
    look (exec (.discover 4) { rested with samples := [false, true, true] })
      (fun t => (t.rspStatus, t.rspData, t.lineLog.length, t.seState)) = some (5#4, 0#64, 50, .idle) := by decide
/-- V4.11: 20 line events, no presence. -/
theorem test_discover_empty :
    look (exec (.discover 0) { rested with samples := List.replicate 8 true })
      (fun t => (t.rspStatus, t.rspData, t.lineLog.length)) = some (0#4, 0#64, 20) := by decide
/-- The advance after pass 2 of V4.7: mark 1 cleared, bit 0 flipped. -/
theorem test_searchAdvance :
    (searchAdvance { rested with current := 2#64, discrepancy := 3#64 }).current = 3#64 ∧
    (searchAdvance { rested with current := 2#64, discrepancy := 3#64 }).discrepancy = 1#64 ∧
    (searchAdvance { rested with current := 2#64, discrepancy := 3#64 }).lastBranchTaken = 0#7 := by decide
/-- V4.12. -/
theorem test_discover_too_many : look (exec (.discover 5) rested) (fun t => (t.rspStatus, t.lineLog)) = some (3#4, []) := by decide

/-! ### The link layer: 95 section 6 -/

/-- V6.1. -/
theorem test_arm : look (exec .arm rested) (fun t => (t.rspStatus, t.status, t.engState)) = some (0#4, 0x0001#16, .fetch) := by decide
/-- V6.2. -/
theorem test_arm_twice : answer (exec .arm (armedWith [] [])) = some (7#4, 0#64) := by decide
/-- V6.6. -/
theorem test_llReset : look (exec (.llReset true) (armedWith [] [])) State.txq = some [0x10000000#32] := by decide
theorem test_llWaitIdle : look (exec (.llWaitIdle false) (armedWith [] [])) State.txq = some [0x20000000#32] := by decide
theorem test_llSkipRom : look (exec (.llSkipRom true) (armedWith [] [])) State.txq = some [0x300700CC#32] := by decide
theorem test_llReadBits : look (exec (.llReadBits true 12) (armedWith [] [])) State.txq = some [0x4000000B#32] := by decide
/-- V6.7. -/
theorem test_llReadBits_sizes :
    answer (exec (.llReadBits true 0) (armedWith [] [])) = some (3#4, 0#64) ∧
    answer (exec (.llReadBits true 33) (armedWith [] [])) = some (3#4, 0#64) := by decide
/-- V6.3. -/
theorem test_llWriteByte_full :
    look (exec (.llWriteByte false 0x55#8) (armedWith fullTx [])) (fun t => (t.rspStatus, t.txq, t.status)) =
      some (1#4, fullTx, 0x0009#16) := by decide
/-- V6.4. -/
theorem test_llWriteByte : look (exec (.llWriteByte true 0xBE#8) (armedWith [] [])) State.txq = some [0x300700BE#32] := by decide
/-- V6.5. -/
theorem test_llWriteWord : look (exec (.llWriteWord true 0x1128#16) (armedWith [] [])) State.txq = some [0x300F1128#32] := by decide
/-- V6.18, V6.20. -/
theorem test_llPull :
    answer (exec (.llPull true 8) (armedWith [] [0x0A000000#32])) = some (0#4, 0x0A#64) ∧
    answer (exec (.llPull true 12) (armedWith [] [0xA5000000#32])) = some (0#4, 0xA50#64) := by decide
/-- V6.14, the last pull. -/
theorem test_llPull_empty : answer (exec (.llPull false 8) (armedWith [] [])) = some (2#4, 0#64) := by decide
/-- V7.4: size before queue. -/
theorem test_llReadBytes_size : answer (exec (.llReadBytes false 17) (armedWith fullTx [])) = some (3#4, 0#64) := by decide
/-- V6.9, the last of its steps: the word 1C000000 popped, the CRC 0x00, `BUF[8] = 1C`. -/
theorem test_llReadBytes_last :
    look (hostStep { armedWith [] [0x1C000000#32] with
        hostOp := .running true [.pop (.store 8 1) 0] (.check 9)
        buf := bufOf [0x50#8, 0x05#8, 0x4B#8, 0x46#8, 0x7F#8, 0xFF#8, 0x0C#8, 0x10#8] })
      (fun t => (t.rspStatus, t.rspData, t.buf[8], t.rxq)) = some (0#4, 0x00#64, 0x1C#8, []) := by decide +kernel
/-- V6.16: the first of the five pushes. -/
theorem test_llMatchRom :
    look (exec (.llMatchRom false 0x5666554433221128#64) (armedWith [] [])) State.txq = some [0x30070055#32] := by decide
/-- 95 P4 row 8. -/
theorem test_llMatchRom_full :
    answer (exec (.llMatchRom false 0x5666554433221128#64) (armedWith fullTx [])) = some (1#4, 0#64) := by decide
/-- V6.21: the push, and the pop of a result A5000000. -/
theorem test_llReadByte :
    look (exec (.llReadByte true) (armedWith [] [])) State.txq = some [0x40000007#32] ∧
    answer (hostStep { armedWith [] [0xA5000000#32] with hostOp := .running true [.pop (.answer 8) 1] (.reply 0#64) }) =
      some (0#4, 0xA5#64) := by decide
/-- V6.22. -/
theorem test_llReadWord :
    look (exec (.llReadWord true) (armedWith [] [])) State.txq = some [0x4000000F#32] ∧
    answer (hostStep { armedWith [] [0x12340000#32] with hostOp := .running true [.pop (.answer 16) 1] (.reply 0#64) }) =
      some (0#4, 0x1234#64) := by decide
/-- V6.24. -/
theorem test_ll_unarmed : answer (exec (.llReadBytes true 17) rested) = some (7#4, 0#64) := by decide
/-- V7.2. -/
theorem test_reserved_request : answer (step (asking 0x21#8 9#64 rested)) = some (8#4, 0#64) := by decide

/-! ### The transfer engine: 95 section 5 -/

/-- V5.1. -/
theorem test_reset :
    look (step (armedWith [0x10000000#32] [])) (fun t => (t.lineLog.reverse, t.engState, t.txq)) =
      some ([.low, .delay 500, .release, .delay 500], .fetch, []) := by decide
/-- V5.2: a low sample, a high sample. -/
theorem test_waitIdle :
    look (step { armedWith [] [] with engState := .exec, engCmd := 0x20000000#32, samples := [false] }) State.engState = some .exec ∧
    look (step { armedWith [] [] with engState := .exec, engCmd := 0x20000000#32, samples := [true] }) State.engState = some .fetch := by
  decide
/-- V5.3: the fetch. -/
theorem test_wrBits_fetch :
    look (step (armedWith [0x300700CC#32] [])) (fun t => (t.engOsr, t.engBitcnt, t.engState)) = some (0x00CC#16, 8#6, .exec) := by decide
/-- V5.5: the one slot. -/
theorem test_wrBits_slot :
    look (step { armedWith [] [] with engState := .exec, engCmd := 0x30000001#32, engOsr := 1#16, engBitcnt := 1#6 })
      (fun t => (t.lineLog.reverse, t.engState, t.engOsr)) = some ([.low, .delay 5, .release, .delay 60], .fetch, 0#16) := by decide
/-- V5.6: the fourth slot. -/
theorem test_rdBits_slot :
    look (step { armedWith [] [] with
        engState := .exec, engCmd := 0x40000007#32, engIsr := 0x40000000#32, engBitcnt := 5#6, samples := [true] })
      (fun t => (t.engIsr, t.engBitcnt, t.engState)) = some (0xA0000000#32, 4#6, .exec) := by decide
/-- V5.6: the push. -/
theorem test_rdBits_push :
    look (step { armedWith [] [] with engState := .push, engCmd := 0x40000007#32, engIsr := 0x0A000000#32 })
      (fun t => (t.rxq, t.engState)) = some ([0x0A000000#32], .fetch) := by decide
/-- V5.11. -/
theorem test_engine_fault :
    look (step (armedWith [0x50000000#32, 0x10000000#32] [])) (fun t => (t.txq, t.status, t.lineLog)) =
      some ([0x10000000#32], 0x0103#16, []) := by decide
/-- 95 P5: the deadlock. -/
def deadlocked : State :=
  { armedWith (List.replicate 4 0x40000007#32) (List.replicate 4 0xFF000000#32) with
    engState := .push, engCmd := 0x40000007#32, engIsr := 0xFF000000#32
    hostOp := .running true [.push 0x40000007#32 0] (.reply 0#64) }
theorem test_deadlock : step deadlocked = .fault .hostHeldForever ∧ deadlocked.status = 0x00C9#16 := ⟨by rfl, by decide⟩
/-- `withFetchWord` makes the next step run the word, a command and a request. -/
theorem test_withFetchWord :
    look (step (State.reset.withFetchWord 32 0x10000000)) (fun t => t.lineLog.length) = some 4 ∧
    look (step (State.reset.withFetchWord 8 0x07)) State.lifecycle = some .armed := by decide

/-! ### Witnesses: for each statement with hypotheses, a state and operands that meet them, at the boundary of each clause -/

theorem test_witness_DecodeUndoesEncode :
    (Instr.wrBits 16 0xFFFF#16).wf = true ∧ (Instr.wrBits 1 0#16).wf = true ∧ (Instr.rdBits 32).wf = true ∧
      (Instr.crcCheck (2 ^ 64 - 1)).wf = true := by decide
theorem test_witness_DecodedEncodingsAreCanonical :
    decode (.request 0x0E#8 17#64) = .ok (.llReadBytes false 17) ∧ decodeCommand 0x300F1128#32 = .ok (.wrBits 16 0x1128#16) ∧
      decodeRequest 0x88#8 1#64 = .ok (.llReset true) ∧ 8 ≤ (reqOp 0x88#8).toNat := by decide
theorem test_witness_ReservedRequestAnswered :
    (0x13 ≤ (reqOp 0x13#8).toNat ∨ reqZero 0x13#8 ≠ 0#2) ∧ (0x13 ≤ (reqOp 0x21#8).toNat ∨ reqZero 0x21#8 ≠ 0#2) ∧
      rested.hostOp = .idle ∧ (asking 0x13#8 5#64 rested).inputs = [.request 0x13#8 5#64] := by decide
theorem test_witness_BuiltWordsDecode : 1 ≤ 1 ∧ 1 ≤ 16 ∧ 16 ≤ 16 ∧ 32 ≤ 32 := by decide
theorem test_witness_CrcIsLinear : [0x01#8, 0x02#8].length = [0xFF#8, 0x80#8].length := rfl
/-- V2.12. -/
theorem test_witness_CrcRoundTrip : addressCrc 0xA200000001B81C02#64 = crc8 ((addressBytes 0xA200000001B81C02#64).take 7) := by
  decide +kernel
/-- V2.9. -/
theorem test_witness_CrcDetectsSingleBit :
    crc8 [0x01#8, 0x5E#8] = 0x00#8 ∧ 0 < [0x01#8, 0x5E#8].length ∧ 1 < [0x01#8, 0x5E#8].length ∧ 0 < 8 ∧ 7 < 8 := by decide +kernel
theorem test_witness_CrcComputeEffect : 0 ≤ 16 ∧ 16 ≤ 16 ∧ 16 < 17 := by decide
theorem test_witness_CrcCheckEffect : 0 ≤ 16 ∧ 16 ≤ 16 ∧ 16 < 17 := by decide
theorem test_witness_BtResetEffect : rested.lifecycle = .unarmed := rfl
theorem test_witness_BtWriteEffect : rested.lifecycle = .unarmed := rfl
theorem test_witness_BtReadBitEffect : { rested with samples := [true] }.lifecycle = .unarmed := rfl
theorem test_witness_WrongLifecycleRefused :
    (needsUnarmed (.discover 5) = true ∧ (armedWith [] []).lifecycle = .armed) ∧
      (needsArmed (.llReadBytes false 17) = true ∧ rested.lifecycle = .unarmed) := by decide
theorem test_witness_DiscoverExits : rested.lifecycle = .unarmed ∧ 0 ≤ rested.cfg.resDepth ∧ 4 ≤ rested.cfg.resDepth := by decide

/-- The pair of reads of a bit step with these two levels waiting, at position `i`. -/
def atBit (i : BitVec 7) (v c : Bool) : State := { rested with bitIdx := i, samples := [v, c] }

theorem test_witness_BitStepTable :
    ((atBit 0#7 true true).bitIdx.toNat = 0 ∧ readSlot (atBit 0#7 true true) = (true, (readSlot (atBit 0#7 true true)).2) ∧
      readSlot (readSlot (atBit 0#7 true true)).2 = (true, (readSlot (readSlot (atBit 0#7 true true)).2).2)) ∧
    ((atBit 63#7 false true).bitIdx.toNat = 63 ∧ readSlot (atBit 63#7 false true) = (false, (readSlot (atBit 63#7 false true)).2) ∧
      readSlot (readSlot (atBit 63#7 false true)).2 = (true, (readSlot (readSlot (atBit 63#7 false true)).2).2)) ∧
    (readSlot (atBit 63#7 false false) = (false, (readSlot (atBit 63#7 false false)).2) ∧
      readSlot (readSlot (atBit 63#7 false false)).2 = (false, (readSlot (readSlot (atBit 63#7 false false)).2).2)) :=
  ⟨⟨rfl, rfl, rfl⟩, ⟨rfl, rfl, rfl⟩, ⟨rfl, rfl⟩⟩

/-- A register with no bit at or above 64. -/
theorem test_no_bit_above (v : BitVec 64) (j : Nat) (h : v.getLsbD j = true) : j < 64 := by
  by_contra hj
  rw [BitVec.getLsbD_of_ge v j (by omega)] at h
  cases h

/-- Position 63, position 0 under an exhausted mark, and no mark at all. -/
theorem test_witness_AdvanceFindsHighestPending :
    (((1#64 <<< 63).getLsbD 63 = true ∧ (0#64).getLsbD 63 = false ∧
      ∀ j, 63 < j → (1#64 <<< 63).getLsbD j = true → (0#64).getLsbD j = true) ∧
    ((3#64).getLsbD 0 = true ∧ (2#64).getLsbD 0 = false ∧ ∀ j, 0 < j → (3#64).getLsbD j = true → (2#64).getLsbD j = true)) ∧
    (∀ j, (0#64).getLsbD j = true → (0#64).getLsbD j = true) := by
  refine ⟨⟨⟨by decide, by decide, fun j h hj => ?_⟩, by decide, by decide, fun j h hj => ?_⟩, fun j h => h⟩
  · have := test_no_bit_above _ j hj
    omega
  · have hlt := test_no_bit_above _ j hj
    have key : ∀ k, k < 64 → 0 < k → (3#64).getLsbD k = true → (2#64).getLsbD k = true := by decide
    exact key j hlt h hj

theorem test_witness_SearchMachineFollowsText : rested.lifecycle = .unarmed ∧ 4 ≤ rested.cfg.resDepth := by decide
theorem test_witness_DiscoverBounded : rested.lifecycle = .unarmed ∧ 0 ≤ rested.cfg.resDepth := by decide

/-- The devices 0, 2, 1, 3 of V4.7 stand in the order R175 gives. -/
theorem test_devices_in_order : [0#64, 2#64, 1#64, 3#64].Pairwise foundBefore := by
  simp only [List.pairwise_cons, List.mem_cons, List.not_mem_nil, or_false, forall_eq_or_imp, forall_eq]
  unfold foundBefore
  exact ⟨⟨⟨1, by decide⟩, ⟨0, by decide⟩, ⟨0, by decide⟩⟩, ⟨⟨0, by decide⟩, ⟨0, by decide⟩⟩, ⟨1, by decide⟩,
    by simp, List.Pairwise.nil⟩
/-- The block at rest with these levels to sample. -/
def sampling (levels : List Bool) : State := { rested with samples := levels }
/-- One state that meets the hypotheses: V4.9, four devices and room for two; V4.7, room for all; V4.11, no device. -/
theorem test_witness_ReferenceBusDiscovery :
    (∃ s : State, s.lifecycle = .unarmed ∧ 2 ≤ s.cfg.resDepth ∧ s.res.length = s.cfg.resDepth ∧
      [0#64, 2#64, 1#64, 3#64].Pairwise foundBefore ∧
      s.samples = (if [0#64, 2#64, 1#64, 3#64] = [] then List.replicate 8 true
        else ([0#64, 2#64, 1#64, 3#64].take (2 + 1)).flatMap (passLevels [0#64, 2#64, 1#64, 3#64])) ++ [true]) ∧
    (∃ s : State, s.lifecycle = .unarmed ∧ 4 ≤ s.cfg.resDepth ∧ s.res.length = s.cfg.resDepth ∧
      [0#64, 2#64, 1#64, 3#64].Pairwise foundBefore ∧
      s.samples = (if [0#64, 2#64, 1#64, 3#64] = [] then List.replicate 8 true
        else ([0#64, 2#64, 1#64, 3#64].take (4 + 1)).flatMap (passLevels [0#64, 2#64, 1#64, 3#64])) ++ []) ∧
    (∃ s : State, s.lifecycle = .unarmed ∧ 0 ≤ s.cfg.resDepth ∧ s.res.length = s.cfg.resDepth ∧
      ([] : List Word64).Pairwise foundBefore ∧
      s.samples = (if ([] : List Word64) = [] then List.replicate 8 true
        else (([] : List Word64).take (0 + 1)).flatMap (passLevels [])) ++ []) :=
  ⟨⟨sampling _, rfl, by decide, rfl, test_devices_in_order, rfl⟩, ⟨sampling _, rfl, by decide, rfl, test_devices_in_order, rfl⟩,
    ⟨sampling _, rfl, by decide, rfl, List.Pairwise.nil, rfl⟩⟩

theorem test_witness_ArmEffect : rested.lifecycle = .unarmed := rfl
theorem test_witness_LifecycleOneWay :
    (look (step (asking 0x07#8 0#64 rested)) State.lifecycle = some .armed ∧ rested.lifecycle = .unarmed) ∧
    (look (step { armedWith [] [] with inputs := [.blockReset] }) State.lifecycle = some .unarmed ∧
      (armedWith [] []).lifecycle = .armed) := by decide

/-- The words of a one-word operation, each form. -/
theorem test_witness_OneWordOperationsEnqueue :
    (pushesOne Config.defaults true (.llReset true) 0x10000000#32 ∧ pushesOne Config.defaults true (.llWaitIdle true) 0x20000000#32 ∧
      pushesOne Config.defaults false (.llWriteByte false 0xBE#8) 0x300700BE#32 ∧
      pushesOne Config.defaults false (.llWriteWord false 0x1128#16) 0x300F1128#32 ∧
      pushesOne Config.defaults true (.llSkipRom true) 0x300700CC#32 ∧
      pushesOne Config.defaults true (.llReadBits true 1) 0x40000000#32 ∧
      pushesOne Config.defaults true (.llReadBits true 32) 0x4000001F#32) ∧
    (armedWith [] []).lifecycle = .armed ∧ (armedWith [] []).cfg = Config.defaults ∧
    (armedWith [1#32, 2#32, 3#32] []).txq.length < 4 := by
  refine ⟨⟨.inl ⟨rfl, rfl⟩, .inr (.inl ⟨rfl, rfl⟩), .inr (.inr (.inl ⟨_, rfl, rfl⟩)), .inr (.inr (.inr (.inl ⟨_, rfl, rfl⟩))),
    .inr (.inr (.inr (.inr (.inl ⟨rfl, rfl⟩)))), .inr (.inr (.inr (.inr (.inr ⟨1, by decide, by decide, rfl, rfl⟩)))),
    .inr (.inr (.inr (.inr (.inr ⟨32, by decide, by decide, rfl, rfl⟩))))⟩, rfl, rfl, by decide⟩
theorem test_witness_FullQueueRefusesNonBlocking :
    (armedWith fullTx []).lifecycle = .armed ∧ (armedWith fullTx []).txq.length = 4 ∧
      ∃ w, pushesOne (armedWith fullTx []).cfg false (.llReadBits false 32) w :=
  ⟨rfl, rfl, _, .inr (.inr (.inr (.inr (.inr ⟨32, by decide, by decide, rfl, rfl⟩))))⟩
/-- `TXQ` full, an operation of each clause, and a state of it that holds and one that can go on. -/
theorem test_witness_FullQueueHoldsBlocking :
    ((armedWith fullTx []).lifecycle = .armed ∧ (armedWith fullTx []).txq.length = 4) ∧
    pushesOne (armedWith fullTx []).cfg true (.llReset true) 0x10000000#32 ∧
    ((Instr.llReadByte true = .llReadByte true ∧ 8 = 8) ∨ (Instr.llReadByte true = .llReadWord true ∧ 8 = 16)) ∧
    ((Instr.llReadWord true = .llReadByte true ∧ 16 = 8) ∨ (Instr.llReadWord true = .llReadWord true ∧ 16 = 16)) ∧
    (∃ u v : State, u.hostOp = matchOp Config.defaults true 0x5666554433221128#64 0 ∧ u.txq.length = 4 ∧
      v.hostOp = matchOp Config.defaults true 0x5666554433221128#64 0 ∧ v.txq.length < 4) ∧
    (∃ u v : State, u.hostOp = readOp true 1 0 ∧ u.txq.length = 4 ∧ v.hostOp = readOp true 16 0 ∧ v.txq.length < 4) :=
  ⟨⟨rfl, rfl⟩, .inl ⟨rfl, rfl⟩, .inl ⟨rfl, rfl⟩, .inr ⟨rfl, rfl⟩,
    ⟨running fullTx [] _, running [] [] _, rfl, rfl, rfl, by decide⟩,
    ⟨running fullTx [] _, running [] [] _, rfl, rfl, rfl, by decide⟩⟩
theorem test_witness_PullEffect :
    (armedWith [] []).lifecycle = .armed ∧ 1 ≤ 1 ∧ 32 ≤ 32 ∧ (armedWith [] []).rxq = [] ∧
      (armedWith [] [0xABC00000#32]).rxq = [0xABC00000#32] := by decide
theorem test_witness_UnitReadsEffect :
    ((Instr.llReadByte true = .llReadByte true ∧ 8 = 8) ∨ (Instr.llReadByte true = .llReadWord true ∧ 8 = 16)) ∧
      (armedWith [1#32, 2#32, 3#32] []).lifecycle = .armed ∧ (armedWith [1#32, 2#32, 3#32] []).txq.length < 4 ∧
      (∃ u v : State, u.hostOp = unitOp true 8 ∧ u.rxq = [0xA5000000#32] ∧ v.hostOp = unitOp false 16 ∧ v.rxq = []) :=
  ⟨.inl ⟨rfl, rfl⟩, rfl, by decide, ⟨running [] [_] _, running [] [] _, rfl, rfl, rfl, rfl⟩⟩
theorem test_witness_IllegalSizesRefused :
    (armedWith fullTx []).lifecycle = .armed ∧ 32 < 33 ∧ 16 < 17 ∧ rested.lifecycle = .unarmed ∧ rested.cfg.resDepth < 5 := by decide
theorem test_witness_NonBlockingReadBytes :
    (armedWith [] []).lifecycle = .armed ∧ 1 ≤ 1 ∧ 16 ≤ 16 ∧
      4 - (armedWith [1#32] []).txq.length < (readTable 16).length ∧
      (readTable 16).length ≤ 4 - (armedWith [] []).txq.length ∧
      (armedWith [] [7#32, 7#32, 7#32]).rxq.length < (readTable 16).length ∧
      (readTable 16).length ≤ (armedWith [] [7#32, 7#32, 7#32, 7#32]).rxq.length := by decide
theorem test_witness_BlockingReadBytes :
    ((armedWith [1#32, 2#32, 3#32] []).lifecycle = .armed ∧ 1 ≤ 1 ∧ 16 ≤ 16 ∧ (armedWith [1#32, 2#32, 3#32] []).txq.length < 4 ∧
      (readTable 16).length ≤ 4 - (armedWith [] []).txq.length ∧ (readTable 1).length ≤ 4 - (armedWith [1#32, 2#32, 3#32] []).txq.length) ∧
    (∃ u v : State, (readTable 16)[1]? = some 32 ∧ u.hostOp = readOp true 16 1 ∧ u.txq.length = 4 ∧
      (readTable 15)[3]? = some 24 ∧ v.hostOp = readOp true 15 3 ∧ v.txq.length < 4) ∧
    (∃ u v : State, 0 < (readTable 1).length ∧ u.hostOp = .running true ((readBytesPops 1).drop 0) (.check 1) ∧ u.rxq = [] ∧
      3 < (readTable 16).length ∧ v.hostOp = .running true ((readBytesPops 16).drop 3) (.check 16) ∧ v.rxq ≠ []) :=
  ⟨by decide, ⟨running fullTx [] _, running [] [] _, by decide, rfl, rfl, by decide, rfl, by decide⟩,
    ⟨running [] [] _, running [] [7#32] _, by decide, rfl, rfl, by decide, rfl, by decide⟩⟩
/-- V6.9 and the table after V6.24: 1, 9 and 16 bytes. -/
theorem test_witness_ReadBytesReassembles :
    slotsOf [0x00#8] = [0x00000000#32] ∧
    slotsOf [0x50#8, 0x05#8, 0x4B#8, 0x46#8, 0x7F#8, 0xFF#8, 0x0C#8, 0x10#8, 0x1C#8] =
      [0x464B0550#32, 0x100CFF7F#32, 0x1C000000#32] ∧
    (∃ s : State, s.hostOp = .running true (readBytesPops 9) (.check 9) ∧
      s.rxq = slotsOf [0x50#8, 0x05#8, 0x4B#8, 0x46#8, 0x7F#8, 0xFF#8, 0x0C#8, 0x10#8, 0x1C#8] ++ [0x5A000000#32]) ∧
    (∃ s : State, s.hostOp = .running false (readBytesPops 16) (.check 16) ∧ s.rxq = slotsOf (List.replicate 16 0xFF#8) ++ []) :=
  ⟨by decide, by decide, ⟨{ armedWith [] _ with hostOp := _ }, rfl, rfl⟩, ⟨{ armedWith [] _ with hostOp := _ }, rfl, rfl⟩⟩

/-- A non-blocking `LL_READ_BYTES 4` past its first check, with one slot free. -/
def checkedRead : State :=
  { armedWith [0x10000000#32, 0x10000000#32, 0x10000000#32] [] with
    hostOp := .running false [.push 0x4000001F#32 0, .ready 1, .pop (.store 0 4) 0] (.check 4) }
theorem test_witness_CheckedReadNeverFails :
    checkedReadFits checkedRead ∧ look (hostStep checkedRead) (fun t => t.txq.length) = some 4 ∧
      checkedReadFits (armedWith [] []) := by
  refine ⟨fun todo count h => ?_, by decide, fun todo count h => by cases h⟩
  injection h with _ h _
  subst h
  exact ⟨by decide, by decide, [.pop (.store 0 4) 0], rfl, .inr ⟨[.push 0x4000001F#32 0], 1, rfl, rfl, .inl rfl⟩⟩
theorem test_witness_MatchRomEffect :
    (armedWith [] []).lifecycle = .armed ∧ (armedWith [] []).txq.length < 4 ∧ (armedWith [1#32, 2#32, 3#32] []).txq.length < 4 ∧
    (matchWords Config.defaults 0x5666554433221128#64)[1]? = some 0x300F1128#32 ∧
    (matchWords Config.defaults 0x5666554433221128#64)[4]? = some 0x300F5666#32 ∧
    (∃ u : State, u.hostOp = matchOp Config.defaults true 0x5666554433221128#64 4 ∧ u.txq.length < 4) ∧
    (∃ u : State, u.hostOp = matchOp Config.defaults false 0x5666554433221128#64 1 ∧ u.txq.length = 4) :=
  ⟨rfl, by decide, by decide, by decide, by decide, ⟨{ armedWith [] [] with hostOp := _ }, rfl, by decide⟩,
    ⟨{ armedWith fullTx [] with hostOp := _ }, rfl, rfl⟩⟩
/-- As it starts: a blocking pull that ends, a blocking push that holds, a non-blocking push refused, a non-blocking read that goes on. Then
a blocking pull in progress that ends, and a non-blocking operation in progress. -/
theorem test_witness_BlockingDisciplines :
    (llFlag (.llPull true 8) = some true ∧
      look (exec (.llPull true 8) (armedWith [] [0x0A000000#32])) (fun t => (t.hostOp, t.rspStatus)) = some (.idle, 0#4) ∧
      look (exec (.llMatchRom true 0#64) (armedWith fullTx [])) (fun t => (t.hostOp.todo.length, t.txq)) = some (5, fullTx)) ∧
    (llFlag (.llReadByte false) = some false ∧
      look (exec (.llReadByte false) (armedWith fullTx [])) (fun t => (t.hostOp, t.rspStatus)) = some (.idle, 1#4) ∧
      look (exec (.llReadByte false) (armedWith [] [])) (fun t => (t.hostOp, hostReady t)) = some (unitOp false 8, true)) ∧
    look (hostStep (running [] [0x0A000000#32] (.running true [.pop (.answer 8) 0] (.reply 0#64)))) (fun t => t.hostOp) = some .idle ∧
    (∃ s : State, s.hostOp = unitOp false 8 ∧ look (hostStep s) (fun t => (t.hostOp, t.rspStatus)) = some (.idle, 2#4)) :=
  ⟨by decide, by decide, by decide, running [] [] _, rfl, by decide⟩
theorem test_witness_FetchStep :
    (armedWith [0x50000000#32] []).engState = .fetch ∧ decodeCommand 0x50000000#32 = .error (.reservedCommand 0x50000000#32) ∧
      decodeCommand 0x300F1128#32 = .ok (.wrBits 16 0x1128#16) := by decide
/-- An engine in `ENG_FAULT`, with a host operation that can step, and with a block reset next. -/
theorem test_witness_EngineFaultIsForGood :
    (∃ s : State, s.engState = .fault ∧ s.lifecycle = .armed ∧ look (step s) (fun t => t.txq.length) = some 1) ∧
    (∃ s : State, s.engState = .fault ∧ s.lifecycle = .armed ∧ look (step s) (fun t => (t.engState, t.inputs.length, t.epoch)) =
      some (.off, 0, 1)) :=
  ⟨⟨{ asking 0x88#8 0#64 (armedWith [] []) with engState := .fault, engFault := true }, rfl, rfl, by decide⟩,
    ⟨{ armedWith [] [] with engState := .fault, engFault := true, inputs := [.blockReset] }, rfl, rfl, by decide⟩⟩
theorem test_witness_EngineResetEffect : (armedWith [] []).engState = .fetch := rfl
theorem test_witness_WaitIdleEffect :
    (armedWith [] []).engState = .fetch ∧ { armedWith [] [] with engState := EngState.exec, samples := [true] }.engState = .exec :=
  ⟨rfl, rfl⟩
theorem test_witness_WrBitsEffect :
    1 ≤ 1 ∧ 16 ≤ 16 ∧ (armedWith [] []).engState = .fetch ∧
      (∃ s : State, s.engState = .exec ∧ s.engBitcnt = 1#6) ∧ (∃ s : State, s.engState = .exec ∧ s.engBitcnt = 16#6) :=
  ⟨by decide, by decide, rfl, ⟨{ rested with engState := .exec, engBitcnt := 1#6 }, rfl, rfl⟩,
    ⟨{ rested with engState := .exec, engBitcnt := 16#6 }, rfl, rfl⟩⟩
theorem test_witness_RdBitsEffect :
    1 ≤ 1 ∧ 32 ≤ 32 ∧ (armedWith [] []).engState = .fetch ∧ (∃ s : State, s.engState = .exec ∧ 1 ≤ s.engBitcnt.toNat) ∧
      (∃ s : State, s.engState = .push ∧ s.rxq.length < 4) ∧ deadlocked.engState = .push ∧ deadlocked.rxq.length = 4 :=
  ⟨by decide, by decide, rfl, ⟨{ rested with engState := .exec, engBitcnt := 32#6 }, rfl, by decide⟩,
    ⟨{ rested with engState := .push, rxq := [1#32, 2#32, 3#32] }, rfl, by decide⟩, rfl, rfl⟩
theorem test_witness_WriteCommandRuns :
    ∃ s : State, s.engState = .fetch ∧ decodeCommand s.engCmd = .ok (.wrBits 16 0x1128#16) :=
  ⟨{ armedWith [] [] with engCmd := 0x300F1128#32 }, rfl, by decide⟩
/-- V5.9: five samples, all high. -/
theorem test_witness_ReadCommandPacks :
    ∃ s : State, s.engState = .fetch ∧ decodeCommand s.engCmd = .ok (.rdBits 5) ∧ (List.replicate 5 true).length = 5 ∧
      s.samples = List.replicate 5 true ++ [false] :=
  ⟨{ armedWith [] [] with engCmd := 0x40000004#32, samples := _ }, rfl, by decide, rfl, rfl⟩
theorem test_witness_EngineTransitions :
    engineReady (armedWith [0x50000000#32] []) = true ∧
    engineReady { armedWith [] [] with engState := .exec, engCmd := 0x40000004#32, engBitcnt := 1#6 } = true ∧
    engineReady { armedWith [] [1#32, 2#32, 3#32] with engState := .push } = true := by decide
theorem test_witness_StepRunsDecodedInstruction :
    (decodeRequest 0x8A#8 0xBE#64 = .ok (.llWriteByte true 0xBE#8) ∧ engineReady (asking 0x8A#8 0xBE#64 (armedWith [] [])) = false ∧
      engineReady { asking 0x8A#8 0xBE#64 (armedWith [0x10000000#32] []) with turns := [.host] } = true) ∧
    (decodeCommand 0x10000000#32 = .ok .reset ∧ hostReady (armedWith [0x10000000#32] []) = false ∧
      platformReady (armedWith [0x10000000#32] []) = false ∧
      hostReady { asking 0x8A#8 0xBE#64 (armedWith [0x10000000#32] []) with turns := [.engine] } = true) ∧
    (decodeTableWord 8 0x07 = some .arm ∧ decodeTableWord 32 0x40000000 = some (.rdBits 1)) := by decide
theorem test_witness_BlockResetState : { armedWith fullTx [] with inputs := [Input.blockReset] }.inputs = [.blockReset] := rfl
theorem test_witness_StatusFields : deadlocked.txq.length ≤ 4 ∧ deadlocked.rxq.length ≤ 4 := by decide

/-- The state of 95 P3 in which the engine runs the byte 0x55 with `TXQ` full. -/
def writing : State :=
  { armedWith [0x300F1128#32, 0x300F3322#32, 0x300F5544#32, 0x300F5666#32] [] with
    engState := .exec, engCmd := 0x30070055#32, engOsr := 0x0055#16, engBitcnt := 8#6, rspData := 5#64 }
theorem test_writing_status : writing.status = 0x0089#16 := by decide
theorem test_writing_shape : Inv writing where
  depth := by decide
  released := rfl
  queues := ⟨by decide, by decide⟩
  search := ⟨by decide, by decide, rfl, by decide, by decide, rfl⟩
  lifecycle := ⟨by decide, fun h => by cases h⟩
  engine := ⟨by decide, fun _ => ⟨.wrBits 8 0x0055#16, by decide, by decide⟩, (fun h => by cases h), by decide⟩
  live := rfl
  status := by decide
theorem test_writing_no_reserved_word : NoReservedWord writing where
  queued := by
    show ∀ w ∈ [0x300F1128#32, 0x300F3322#32, 0x300F5544#32, 0x300F5666#32], legalWord w = true
    simp only [List.mem_cons, List.not_mem_nil, or_false, forall_eq_or_imp, forall_eq]
    exact ⟨rfl, rfl, rfl, rfl⟩
  pending := fun a h => by cases h
  noFault := rfl
  running := by decide
theorem test_witness_StepKeepsShape : Inv writing ∧ look (step writing) (fun t => t.engBitcnt) = some 7#6 :=
  ⟨test_writing_shape, by decide⟩
theorem test_witness_StepKeepsNoReservedWord : NoReservedWord writing ∧ look (step writing) (fun t => t.engBitcnt) = some 7#6 :=
  ⟨test_writing_no_reserved_word, by decide⟩
theorem test_witness_LineDriversApart :
    (look (step writing) (fun t => t.lineLog.length) = some 4 ∧ Inv writing ∧ engineReady writing = true) ∧
    ((armedWith [] []).lifecycle = .armed ∧
      look (hostStep (asking 0x88#8 0#64 (armedWith [] []))) (fun t => t.lineLog.length) = some 0) :=
  ⟨⟨by decide, test_writing_shape, by decide⟩, rfl, by decide⟩
theorem test_witness_QueuesAreFifo :
    look (hostStep (asking 0x88#8 0#64 (armedWith [0x20000000#32] []))) State.txq = some [0x20000000#32, 0x10000000#32] ∧
    look (hostStep (asking 0x8D#8 8#64 (armedWith [] [1#32, 2#32]))) State.rxq = some [2#32] ∧
    look (engineStep (armedWith [0x10000000#32, 0x20000000#32] [])) State.txq = some [0x20000000#32] := by decide
theorem test_witness_AgentsTouchOnlyTheirOwn :
    look (engineStep writing) State.engState = some .exec ∧
    look (hostStep (asking 0x01#8 16#64 (armedWith [] []))) (fun t => t.rspStatus) = some 0#4 := by decide +kernel
theorem test_witness_OutstandingReadsConserved :
    outstandingReads deadlocked = 9 ∧ outstandingReads (armedWith [0x40000007#32] [0x0A000000#32]) = 2 ∧
    look (engineStep (armedWith [0x40000007#32] [0x0A000000#32])) outstandingReads = some 2 := by decide
theorem test_witness_UnmatchedPullHoldsForever :
    ∃ s : State, s.hostOp = .running true [.pop (.answer 8) 0] (.reply 0#64) ∧ outstandingReads s = 0 ∧
      look (runSteps engineStep 1 s) State.txq = some [] :=
  ⟨{ armedWith [0x10000000#32] [] with hostOp := _ }, rfl, by decide, by decide⟩
theorem test_witness_UnpulledReadsDeadlock :
    deadlocked.hostOp = .running true [.push 0x40000007#32 0] (.reply 0#64) ∧ deadlocked.txq.length = 4 ∧
      deadlocked.engState = .push ∧ deadlocked.rxq.length = 4 ∧ platformReady deadlocked = false := ⟨rfl, rfl, rfl, rfl, rfl⟩
theorem test_witness_StepStopsOnlyWhenHeld : step deadlocked = .fault .hostHeldForever := rfl
/-- Armed and idle, with these inputs waiting. -/
def awaiting (is : List Input) : State := { armedWith [] [] with inputs := is }
/-- 70 R311: a `BUF` write is no request, and a request after a block reset is of another run. -/
theorem test_runEnded :
    runEnded (awaiting [.bufWrite 0 1#8]) = true ∧ runEnded (awaiting [.blockReset, .request 0x07#8 0#64]) = true ∧
    runEnded (awaiting [.bufWrite 0 1#8, .request 0x07#8 0#64]) = false ∧ cleanEnd (awaiting [.bufWrite 0 1#8, .blockReset]) = true ∧
    runEnded { writing with hostOp := .idle } = false := by decide
theorem test_awaiting_shape (is : List Input) : Inv (awaiting is) where
  depth := by show 1 ≤ rested.cfg.resDepth; decide
  released := rfl
  queues := ⟨Nat.zero_le _, Nat.zero_le _⟩
  search := ⟨by show rested.lastBranchTaken.toNat ≤ 64; decide, Nat.zero_le _, rfl, Nat.le_refl _, Nat.zero_le _, rfl⟩
  lifecycle := ⟨⟨(fun h => by cases h), (fun h => by cases h)⟩, (fun h => by cases h)⟩
  engine := ⟨Nat.zero_le _, (fun h => by cases h), (fun h => by cases h), ⟨(fun h => by cases h), (fun h => by cases h)⟩⟩
  live := rfl
  status := Nat.zero_le _
/-- Running; quiescent with a request waiting; ended with writes and a reset waiting; ended, but not clean. -/
theorem test_witness_QuiescenceByStatus :
    (Inv writing ∧ quiescent writing = false) ∧
    (Inv (awaiting [.request 0x88#8 0#64]) ∧ quiescent (awaiting [.request 0x88#8 0#64]) = true ∧
      runEnded (awaiting [.request 0x88#8 0#64]) = false) ∧
    (Inv (awaiting [.bufWrite 15 0x1C#8, .blockReset]) ∧ cleanEnd (awaiting [.bufWrite 15 0x1C#8, .blockReset]) = true) ∧
    (runEnded (armedWith [] [0x0A000000#32]) = true ∧ cleanEnd (armedWith [] [0x0A000000#32]) = false) :=
  ⟨⟨test_writing_shape, by decide⟩, ⟨test_awaiting_shape _, by decide, by decide⟩, ⟨test_awaiting_shape _, by decide⟩,
    by decide, by decide⟩
theorem test_witness_HostBufWrite :
    ∃ s : State, s.hostOp = .idle ∧ s.inputs = [.bufWrite 15 0x1C#8] := ⟨{ rested with inputs := _ }, rfl, rfl⟩

end Sys2Proof.Tests
end

section
/-! PROOF. What the next step is when the agent that moves is known (00_scope R16), and the step of a host that serves a request and of
an engine that fetches a command word. -/

namespace Sys2Proof.Machine

variable {s : State}

/-! ### Which agent moves -/

theorem mem_readyAgents_iff {a : Agent} : a ∈ readyAgents s ↔ agentReady s a = true := by
  cases a <;> simp [readyAgents]

/-- The only agent that has a step takes it, and no choice is used up. -/
theorem step_of_only_agentReady {a : Agent} (ha : agentReady s a = true) (ho : ∀ b, b ≠ a → agentReady s b = false) :
    step s = agentStep a s := by
  have hr : readyAgents s = [a] := by
    cases a <;> simp [readyAgents, ha, ho]
  simp only [step, pickAgent, hr]

/-- Between two agents that have a step the next choice decides, and is used up. -/
theorem step_of_turn {a b : Agent} {ts : List Agent} (ht : s.turns = a :: ts) (ha : agentReady s a = true)
    (hb : agentReady s b = true) (hab : b ≠ a) : step s = agentStep a { s with turns := ts } := by
  have hma := mem_readyAgents_iff.mpr ha
  have hmb := mem_readyAgents_iff.mpr hb
  have hp : pickAgent s = (some a, { s with turns := ts }) := by
    unfold pickAgent
    split
    case h_1 hr => simp [hr] at hma
    case h_2 x hr =>
      rw [hr, List.mem_singleton] at hma hmb
      exact absurd (hmb.trans hma.symm) hab
    case h_3 => simp [nextTurn, afterTurn, ht, ha]
  simp only [step, hp]

/-! ### The host serves a request -/

section Request

variable {code : BitVec 8} {arg : Word64} {is : List Input} {i : Instr}

theorem hostReady_of_request (hop : s.hostOp = .idle) (hin : s.inputs = .request code arg :: is) : hostReady s = true := by
  simp [hostReady, hop, hin]

theorem platformReady_of_request (hin : s.inputs = .request code arg :: is) : platformReady s = false := by
  simp [platformReady, hin]

theorem hostStep_of_request (hop : s.hostOp = .idle) (hin : s.inputs = .request code arg :: is)
    (hd : decodeRequest code arg = .ok i) : hostStep s = exec i { s with inputs := is } := by
  simp [hostStep, serveRequest, hop, hin, hd]

theorem step_of_request_of_engine_not_ready (hop : s.hostOp = .idle) (hin : s.inputs = .request code arg :: is)
    (hd : decodeRequest code arg = .ok i) (he : engineReady s = false) : step s = exec i { s with inputs := is } := by
  rw [← hostStep_of_request hop hin hd]
  refine step_of_only_agentReady (a := .host) (hostReady_of_request hop hin) fun b hb => ?_
  cases b with
  | host => exact absurd rfl hb
  | engine => exact he
  | platform => exact platformReady_of_request hin

theorem step_of_request_of_host_turn {ts : List Agent} (hop : s.hostOp = .idle) (hin : s.inputs = .request code arg :: is)
    (hd : decodeRequest code arg = .ok i) (he : engineReady s = true) (ht : s.turns = .host :: ts) :
    step s = exec i { s with inputs := is, turns := ts } := by
  rw [step_of_turn (b := .engine) ht (hostReady_of_request hop hin) he (by decide)]
  exact hostStep_of_request (s := { s with turns := ts }) hop hin hd

/-- A placed request is run by the very next step, which gives back the choice the placing added. -/
theorem step_placeRequest (s : State) (hd : decodeRequest code arg = .ok i) :
    step (placeRequest code arg s) = exec i { s with hostOp := .idle } := by
  simp only [placeRequest]
  split
  case isTrue he => exact step_of_request_of_host_turn rfl rfl hd he rfl
  case isFalse he => exact step_of_request_of_engine_not_ready rfl rfl hd (eq_false_of_ne_true he)

end Request

/-! ### The engine fetches a command word -/

section Fetch

variable {w : QWord} {r : List QWord} {i : Instr}

theorem engineReady_of_fetch (hs : s.engState = .fetch) (hq : s.txq = w :: r) : engineReady s = true := by
  simp [engineReady, Bool.eq_false_iff, txEmpty_iff, hs, hq]

theorem engineStep_of_fetch (hs : s.engState = .fetch) (hq : s.txq = w :: r) (hd : decodeCommand w = .ok i) :
    engineStep s = exec i { s with txq := r, engCmd := w } := by
  simp [engineStep, fetchStep, txFetch, hs, hq, hd]

theorem step_of_fetch_of_others_not_ready (hs : s.engState = .fetch) (hq : s.txq = w :: r) (hd : decodeCommand w = .ok i)
    (hh : hostReady s = false) (hp : platformReady s = false) : step s = exec i { s with txq := r, engCmd := w } := by
  rw [← engineStep_of_fetch hs hq hd]
  refine step_of_only_agentReady (a := .engine) (engineReady_of_fetch hs hq) fun b hb => ?_
  cases b with
  | host => exact hh
  | engine => exact absurd rfl hb
  | platform => exact hp

theorem step_of_fetch_of_engine_turn {ts : List Agent} (hs : s.engState = .fetch) (hq : s.txq = w :: r)
    (hd : decodeCommand w = .ok i) (ho : (hostReady s || platformReady s) = true) (ht : s.turns = .engine :: ts) :
    step s = exec i { s with txq := r, engCmd := w, turns := ts } := by
  have he : agentReady s .engine = true := engineReady_of_fetch hs hq
  have hstep : step s = engineStep { s with turns := ts } := by
    rcases Bool.or_eq_true_iff.mp ho with hh | hp
    · exact step_of_turn (b := .host) ht he hh (by decide)
    · exact step_of_turn (b := .platform) ht he hp (by decide)
  rw [hstep]
  exact engineStep_of_fetch (s := { s with turns := ts }) hs hq hd

/-- A placed command word is run by the very next step, which gives back the choice the placing added. -/
theorem step_placeCommand (s : State) (hd : decodeCommand w = .ok i) :
    step (placeCommand w s) = exec i { s with lifecycle := .armed, engState := .fetch, txq := s.txq.tail, engCmd := w } := by
  simp only [placeCommand]
  split
  case isTrue ho => exact step_of_fetch_of_engine_turn rfl rfl hd ho rfl
  case isFalse ho =>
    obtain ⟨hh, hp⟩ := Bool.or_eq_false_iff.mp (eq_false_of_ne_true ho)
    exact step_of_fetch_of_others_not_ready rfl rfl hd hh hp

end Fetch

/-! ### Words numbered as the opcode table numbers them -/

theorem decodeTableWord_eq_some_iff {nbits w : Nat} {i : Instr} :
    decodeTableWord nbits w = some i ↔ decode (tableEncoding nbits w) = .ok i := by
  unfold decodeTableWord
  cases decode (tableEncoding nbits w) <;> simp [Except.toOption]

theorem tableEncoding_of_ne {nbits : Nat} (h : nbits ≠ 32) (w : Nat) :
    ∃ code arg, tableEncoding nbits w = .request code arg := by
  simp [tableEncoding, h]

theorem tableEncoding_32 (w : Nat) : tableEncoding 32 w = .command (BitVec.ofNat 32 w) := by
  have hw : BitVec.ofNat 32 (w % 2 ^ 32) = BitVec.ofNat 32 w := BitVec.eq_of_toNat_eq (by simp)
  simp only [tableEncoding, if_true, hw]

end Sys2Proof.Machine

namespace Sys2Proof.Claims

open Sys2Proof.Machine

/-- Settles O46: the request and the fetch each by the agent that moves, and the placing by the two of them. -/
theorem stepRunsDecodedInstruction : Obligations.StepRunsDecodedInstruction := by
  refine ⟨fun s code arg is i hop hin hd => ⟨?_, ?_⟩, fun s w r i hs hq hd => ⟨?_, ?_⟩, fun s nbits w i h => ⟨?_, ?_⟩⟩
  · exact step_of_request_of_engine_not_ready hop hin hd
  · exact fun he ts ht => step_of_request_of_host_turn hop hin hd he ht
  · exact step_of_fetch_of_others_not_ready hs hq hd
  · exact fun ho ts ht => step_of_fetch_of_engine_turn hs hq hd ho ht
  · intro hn
    obtain ⟨code, arg, he⟩ := tableEncoding_of_ne hn w
    rw [decodeTableWord_eq_some_iff, he] at h
    rw [State.withFetchWord, he]
    exact step_placeRequest s h
  · rintro rfl
    rw [decodeTableWord_eq_some_iff, tableEncoding_32] at h
    rw [State.withFetchWord, tableEncoding_32]
    exact step_placeCommand s h

end Sys2Proof.Claims
end

section
/-! PROOF. What a command word does in the phase it is fetched in and in its slots, and how an engine step leaves the other state. -/

namespace Sys2Proof.Machine

variable {s t : State} {w : QWord} {i : Instr}

theorem isReadWord_iff : isReadWord w = true ↔ ∃ n, decodeCommand w = .ok (.rdBits n) := by
  unfold isReadWord
  split
  · simp [*]
  case h_2 hne => simpa using hne

@[simp] theorem execShape_wrBits (n left : Nat) (v : BitVec 16) :
    execShape (.wrBits n v) left = true ↔ 1 ≤ left ∧ left ≤ n := by simp [execShape]

@[simp] theorem execShape_rdBits (n left : Nat) : execShape (.rdBits n) left = true ↔ 1 ≤ left ∧ left ≤ n := by
  simp [execShape]

/-- One slot fewer: still in range, unless it was the last. -/
theorem slotsLeft_pred (x : BitVec 6) (n : Nat) (h : 1 ≤ x.toNat ∧ x.toNat ≤ n) :
    (x - 1#6).toNat ≤ x.toNat ∧ (x - 1#6 ≠ 0#6 → 1 ≤ (x - 1#6).toNat ∧ (x - 1#6).toNat ≤ n) := by
  have hpred := engBitcnt_pred x h.1
  refine ⟨by omega, fun hne => ?_⟩
  have : (x - 1#6).toNat ≠ 0 := fun h0 => hne (BitVec.eq_of_toNat_eq h0)
  omega

/-- `RESET` is complete with its fetch; another command enters `ENG_EXEC` with its slots still to run (43_transfer_engine R192). -/
theorem exec_of_fetch (hd : decodeCommand w = .ok i) (hs : s.engState = .fetch) (h : exec i s = .next t) :
    t.rxq = s.rxq ∧ (s.lineOe = false → t.lineOe = false) ∧
      ((i = .reset ∧ t.engState = .fetch ∧ t.engBitcnt = s.engBitcnt) ∨
        (t.engState = .exec ∧ execShape i t.engBitcnt.toNat = true ∧
          (t.engBitcnt = s.engBitcnt ∨ t.engBitcnt.toNat ≤ 32))) := by
  rcases decodeCommand_cases hd with ⟨-, rfl⟩ | ⟨-, rfl⟩ | ⟨-, rfl⟩ | ⟨-, rfl⟩
  · simp only [exec, execReset, hs, Host.Outcome.next.injEq] at h
    subst h
    exact ⟨rfl, fun _ => rfl, .inl ⟨rfl, hs, rfl⟩⟩
  · simp only [exec, execWaitIdle, hs, Host.Outcome.next.injEq] at h
    subst h
    exact ⟨rfl, id, .inr ⟨rfl, rfl, .inl rfl⟩⟩
  · simp only [exec, execWrBits, hs, Host.Outcome.next.injEq] at h
    have hlt := (w.extractLsb' 16 4).isLt
    subst h
    exact ⟨rfl, id, .inr ⟨rfl, by simp; omega, .inr (by simp; omega)⟩⟩
  · simp only [exec, execRdBits, hs, Host.Outcome.next.injEq] at h
    have hlt := (w.extractLsb' 0 5).isLt
    subst h
    exact ⟨rfl, id, .inr ⟨rfl, by simp; omega, .inr (by simp; omega)⟩⟩

/-- A slot leaves the engine in `ENG_EXEC` with slots still to run, or is the last one: `ENG_PUSH` follows a read, `ENG_FETCH` any other
command (43_transfer_engine R195, R196, R198). -/
theorem exec_of_exec (hd : decodeCommand w = .ok i) (hs : s.engState = .exec) (h : exec i s = .next t) :
    t.rxq = s.rxq ∧ (s.lineOe = false → t.lineOe = false) ∧
      (execShape i s.engBitcnt.toNat = true → t.engBitcnt.toNat ≤ s.engBitcnt.toNat) ∧
      ((t.engState = .exec ∧ (execShape i s.engBitcnt.toNat = true → execShape i t.engBitcnt.toNat = true)) ∨
        (t.engState = .fetch ∧ ∀ n, i ≠ .rdBits n) ∨ (t.engState = .push ∧ ∃ n, i = .rdBits n)) := by
  rcases decodeCommand_cases hd with ⟨-, rfl⟩ | ⟨-, rfl⟩ | ⟨-, rfl⟩ | ⟨-, rfl⟩
  · simp only [exec, execReset, hs, Host.Outcome.next.injEq] at h
    subst h
    exact ⟨rfl, id, fun _ => le_rfl, .inl ⟨hs, id⟩⟩
  · simp only [exec, execWaitIdle, hs, Host.Outcome.next.injEq, waitIdleStep] at h
    split at h <;> subst h
    · exact ⟨rfl, id, fun _ => le_rfl, .inr (.inl ⟨rfl, fun _ => Instr.noConfusion⟩)⟩
    · exact ⟨rfl, id, fun _ => le_rfl, .inl ⟨hs, id⟩⟩
  · simp only [exec, execWrBits, hs, Host.Outcome.next.injEq] at h
    subst h
    simp only [execShape_wrBits]
    refine ⟨rfl, fun _ => rfl, fun hb => (slotsLeft_pred _ _ hb).1, ?_⟩
    by_cases h0 : s.engBitcnt - 1#6 = 0#6
    · exact .inr (.inl ⟨if_pos h0, fun _ => Instr.noConfusion⟩)
    · exact .inl ⟨if_neg h0, fun hb => (slotsLeft_pred _ _ hb).2 h0⟩
  · simp only [exec, execRdBits, hs, Host.Outcome.next.injEq] at h
    subst h
    simp only [execShape_rdBits]
    refine ⟨rfl, fun _ => rfl, fun hb => (slotsLeft_pred _ _ hb).1, ?_⟩
    by_cases h0 : s.engBitcnt - 1#6 = 0#6
    · exact .inr (.inr ⟨if_pos h0, _, rfl⟩)
    · exact .inl ⟨if_neg h0, fun hb => (slotsLeft_pred _ _ hb).2 h0⟩

/-- What executing a command word leaves alone, of the state it answers. -/
theorem exec_command_next (hd : decodeCommand w = .ok i) (h : exec i s = .next t) :
    EngineOnly s t ∧ t.txq = s.txq ∧ t.engCmd = s.engCmd ∧ t.engFault = s.engFault := by
  obtain ⟨u, hu, hfacts⟩ := exec_command hd s
  obtain rfl : u = t := by rw [hu] at h; injection h
  exact hfacts

/-- An engine step touches the queues, the engine registers and the line only. -/
theorem engineOnly_engineStep (h : engineStep s = .next t) : EngineOnly s t := by
  rcases engineStep_cases h with rfl | ⟨w, r, -, -, -, rfl⟩ | ⟨w, r, i, -, -, hd, he⟩ | ⟨i, -, hd, he⟩ | ⟨-, -, rfl⟩
  · exact .refl _
  · rfl
  · exact .trans (t := txFetch w r s) rfl (exec_command_next hd he).1
  · exact (exec_command_next hd he).1
  · rfl

end Sys2Proof.Machine
end

section
/-! PROOF. Outstanding reads (10_state R38 (c)): a read moves from `TXQ` through the engine to `RXQ`, and the fields of `STATUS`. -/

namespace Sys2Proof.Machine

variable {s t : State}

theorem readInEngine_of_fetch (h : s.engState = .fetch) : readInEngine s = false := by simp [readInEngine, h]

theorem readInEngine_of_exec (h : s.engState = .exec) : readInEngine s = isReadWord s.engCmd := by simp [readInEngine, h]

theorem readInEngine_of_push (h : s.engState = .push) : readInEngine s = true := by simp [readInEngine, h]

theorem isReadWord_eq_false {w : QWord} (h : ∀ n, decodeCommand w ≠ .ok (.rdBits n)) : isReadWord w = false :=
  eq_false_of_ne_true fun hr => (isReadWord_iff.mp hr).elim h

/-- A fetch moves the word from `TXQ` into the engine: it counts in both or in neither. -/
theorem outstandingReads_fetch {w : QWord} {r : List QWord} (hs : s.engState = .fetch) (hq : s.txq = w :: r)
    (htq : t.txq = r) (hrq : t.rxq = s.rxq) (he : readInEngine t = isReadWord w) :
    outstandingReads t = outstandingReads s := by
  simp only [outstandingReads, State.rxLevel, htq, hrq, hq, he, readInEngine_of_fetch hs, List.countP_cons]
  simp

/-- With the queues kept, the count is kept when the engine keeps its read or has none. -/
theorem outstandingReads_slot (htq : t.txq = s.txq) (hrq : t.rxq = s.rxq) (he : readInEngine t = readInEngine s) :
    outstandingReads t = outstandingReads s := by
  simp only [outstandingReads, State.rxLevel, htq, hrq, he]

theorem engineStep_outstandingReads (h : engineStep s = .next t) : outstandingReads t = outstandingReads s := by
  rcases engineStep_cases h with rfl | ⟨w, r, hs, hq, hd, rfl⟩ | ⟨w, r, i, hs, hq, hd, he⟩ | ⟨i, hs, hd, he⟩ | ⟨hs, -, rfl⟩
  · rfl
  · have hw : isReadWord w = false := isReadWord_eq_false (by simp [hd])
    exact outstandingReads_fetch hs hq rfl rfl hw.symm
  · obtain ⟨-, htq, hcmd, -⟩ := exec_command_next hd he
    obtain ⟨hrq, -, ⟨rfl, ht, -⟩ | ⟨ht, -⟩⟩ := exec_of_fetch hd (s := txFetch w r s) hs he
    · have hw : isReadWord w = false := isReadWord_eq_false (by simp [hd])
      exact outstandingReads_fetch hs hq htq hrq (by rw [readInEngine_of_fetch ht, hw])
    · exact outstandingReads_fetch hs hq htq hrq (by rw [readInEngine_of_exec ht, hcmd, txFetch_engCmd])
  · obtain ⟨-, htq, hcmd, -⟩ := exec_command_next hd he
    obtain ⟨hrq, -, -, ⟨ht, -⟩ | ⟨ht, hi⟩ | ⟨ht, n, rfl⟩⟩ := exec_of_exec hd hs he
    · exact outstandingReads_slot htq hrq (by rw [readInEngine_of_exec ht, readInEngine_of_exec hs, hcmd])
    · have hw : isReadWord s.engCmd = false := isReadWord_eq_false (by simp [hd, hi])
      exact outstandingReads_slot htq hrq (by rw [readInEngine_of_fetch ht, readInEngine_of_exec hs, hw])
    · have hw : isReadWord s.engCmd = true := isReadWord_iff.mpr ⟨n, hd⟩
      exact outstandingReads_slot htq hrq (by rw [readInEngine_of_push ht, readInEngine_of_exec hs, hw])
  · have ht : readInEngine (deliverResult s) = false := readInEngine_of_fetch rfl
    simp only [outstandingReads, State.rxLevel, readInEngine_of_push hs, ht, deliverResult_txq, deliverResult_rxq]
    simp
    omega

/-- A stalled engine holds one read beside the four in `RXQ`. -/
theorem outstandingReads_of_engineStalled (h : engineStalled s = true) : 5 ≤ outstandingReads s := by
  simp only [engineStalled, Bool.and_eq_true, decide_eq_true_eq, rxFull_iff] at h
  obtain ⟨hs, hfull⟩ := h
  simp only [outstandingReads, State.rxLevel, readInEngine_of_push hs, if_true]
  omega

end Sys2Proof.Machine

namespace Sys2Proof.Claims

open Sys2Proof.Machine

/-- Settles O55: each case of an engine step moves a read on by one place, and a stall needs five. -/
theorem outstandingReadsConserved : Obligations.OutstandingReadsConserved := by
  refine ⟨fun s t h => engineStep_outstandingReads h, fun s hle => eq_false_of_ne_true fun hst => ?_⟩
  have := outstandingReads_of_engineStalled hst
  omega

end Sys2Proof.Claims
end

section
/-! PROOF. The fields of `STATUS` (10_state R35). -/

namespace Sys2Proof.Machine

theorem Lifecycle.bit_eq (l : Lifecycle) : l.bit = BitVec.ofBool (decide (l = .armed)) := by cases l <;> rfl

/-- Bit `i` of `STATUS` is a bit of the field it falls in. -/
theorem status_getLsbD (s : State) (i : Nat) :
    s.status.getLsbD i =
      if i < 1 then decide (s.lifecycle = .armed)
      else if i < 4 then (BitVec.ofNat 3 s.txLevel).getLsbD (i - 1)
      else if i < 7 then (BitVec.ofNat 3 s.rxLevel).getLsbD (i - 4)
      else if i < 8 then s.engBusy
      else if i < 9 then s.engFault
      else decide (i < 10) && s.lineOe := by
  unfold State.status
  iterate 6 rw [BitVec.getLsbD_append]
  by_cases hi : i < 10
  · interval_cases i <;> simp [Lifecycle.bit_eq]
  · obtain ⟨k, rfl⟩ : ∃ k, i = k + 10 := ⟨i - 10, by omega⟩
    simp

theorem status_extract_txLevel (s : State) : s.status.extractLsb' 1 3 = BitVec.ofNat 3 s.txLevel := by
  apply BitVec.eq_of_getLsbD_eq
  intro i hi
  rw [BitVec.getLsbD_extractLsb', status_getLsbD]
  interval_cases i <;> simp

theorem status_extract_rxLevel (s : State) : s.status.extractLsb' 4 3 = BitVec.ofNat 3 s.rxLevel := by
  apply BitVec.eq_of_getLsbD_eq
  intro i hi
  rw [BitVec.getLsbD_extractLsb', status_getLsbD]
  interval_cases i <;> simp

theorem status_extract_reserved (s : State) : s.status.extractLsb' 10 6 = 0#6 := by
  apply BitVec.eq_of_getLsbD_eq
  intro i hi
  rw [BitVec.getLsbD_extractLsb', status_getLsbD]
  interval_cases i <;> simp

end Sys2Proof.Machine

namespace Sys2Proof.Claims

open Sys2Proof.Machine

/-- Settles O48: the flags are single bits, and a level of at most 4 fits its field of three bits. -/
theorem statusFields : Obligations.StatusFields := by
  intro s htx hrx
  refine ⟨?_, ?_, ?_, ?_, ?_, ?_, status_extract_reserved s⟩
  · rw [status_getLsbD, if_pos (by omega)]
  · rw [status_extract_txLevel, BitVec.toNat_ofNat]
    exact Nat.mod_eq_of_lt (show s.txq.length < 8 by omega)
  · rw [status_extract_rxLevel, BitVec.toNat_ofNat]
    exact Nat.mod_eq_of_lt (show s.rxq.length < 8 by omega)
  · rw [status_getLsbD]
    simp [State.engBusy]
  · rw [status_getLsbD]
    simp
  · rw [status_getLsbD]
    simp

end Sys2Proof.Claims
end

section
/-! PROOF. The lifecycle (10_state R22): which requests the other state refuses (60_exceptions R270), and what can change it. -/

namespace Sys2Proof.Machine

open Claims

variable {s t : State} {i : Instr} {code : BitVec 8} {arg : Word64}

/-- The operations of a host request: those that need the block armed, those that need it unarmed, and the two of the CRC unit. -/
theorem decodeRequest_cases (h : decodeRequest code arg = .ok i) :
    needsArmed i = true ∨ needsUnarmed i = true ∨ ((∃ n, i = .crcCompute n) ∨ ∃ n, i = .crcCheck n) := by
  rcases hostOperation_cases (decodeRequest_ok h).2 with
    ⟨-, rfl⟩ | ⟨-, rfl⟩ | ⟨-, rfl⟩ | ⟨-, rfl⟩ | ⟨-, rfl⟩ | ⟨-, rfl⟩ | ⟨-, rfl⟩ | ⟨-, rfl⟩ | ⟨-, rfl⟩ | ⟨-, rfl⟩ | ⟨-, rfl⟩ |
    ⟨-, rfl⟩ | ⟨-, rfl⟩ | ⟨-, rfl⟩ | ⟨-, rfl⟩ | ⟨-, rfl⟩ | ⟨-, rfl⟩ | ⟨-, rfl⟩ | ⟨-, rfl⟩ <;> simp [needsArmed, needsUnarmed]

theorem exec_needsArmed_of_unarmed (hi : needsArmed i = true) (hl : s.lifecycle = .unarmed) :
    exec i s = .next (raise .wrongState 0 s) := by
  cases i <;> simp [needsArmed] at hi <;> exact needArmed_of_unarmed _ hl

theorem exec_needsUnarmed_of_armed (hi : needsUnarmed i = true) (hl : s.lifecycle = .armed) :
    exec i s = .next (raise .wrongState 0 s) := by
  cases i <;> simp [needsUnarmed] at hi <;> exact needUnarmed_of_armed _ hl

theorem needUnarmed_lifecycle {served : State} (h : needUnarmed s served = .next t) (hs : served.lifecycle = s.lifecycle) :
    t.lifecycle = s.lifecycle := by
  cases hl : s.lifecycle with
  | unarmed => rw [needUnarmed_of_unarmed _ hl] at h; injection h with h; rw [← h, hs, hl]
  | armed => rw [needUnarmed_of_armed _ hl] at h; injection h with h; rw [← h]; exact hl

theorem checkSize_lifecycle {served : State} (legal : Bool) (hs : served.lifecycle = s.lifecycle) :
    (checkSize legal s served).lifecycle = s.lifecycle := by
  cases legal with
  | true => exact hs
  | false => rfl

theorem SearchOnly.lifecycle_eq (h : SearchOnly s t) : t.lifecycle = s.lifecycle := by unfold SearchOnly at h; rw [h]

theorem HostOnly.lifecycle_eq (h : HostOnly s t) : t.lifecycle = s.lifecycle := by unfold HostOnly at h; rw [h]

theorem EngineOnly.lifecycle_eq (h : EngineOnly s t) : t.lifecycle = s.lifecycle := by unfold EngineOnly at h; rw [h]

/-- A discovery run leaves what `SearchRun` says of the state with its registers set up. -/
theorem searchRun_discover (m : Nat) (s : State) : SearchRun (searchStart m s) (searchPasses m (searchStart m s)) :=
  searchPasses_spec m (searchStart m s) (Nat.zero_add m)

/-- No request but `ARM` arms the block. -/
theorem exec_lifecycle_of_unarmed (hd : decodeRequest code arg = .ok i) (hne : i ≠ .arm) (hl : s.lifecycle = .unarmed)
    (h : exec i s = .next t) : t.lifecycle = s.lifecycle := by
  rcases decodeRequest_cases hd with hi | hi | ⟨n, rfl⟩ | ⟨n, rfl⟩
  · rw [exec_needsArmed_of_unarmed hi hl] at h
    injection h with h
    rw [← h]; rfl
  · cases i with
    | btReset =>
      obtain ⟨bs, p, -, -, hb⟩ := busReset_spec s
      exact needUnarmed_lifecycle h (by rw [hb]; rfl)
    | btWriteBit b => exact needUnarmed_lifecycle h rfl
    | btWriteByte v => exact needUnarmed_lifecycle h (by rw [writeByte_eq]; rfl)
    | btReadBit => exact needUnarmed_lifecycle h rfl
    | discover m => exact needUnarmed_lifecycle h (checkSize_lifecycle _ (searchRun_discover m s).frame.lifecycle_eq)
    | arm => exact absurd rfl hne
    | _ => cases hi
  · injection h with h
    rw [← h]
    exact checkSize_lifecycle _ rfl
  · injection h with h
    rw [← h]
    exact checkSize_lifecycle _ rfl

/-- No request disarms the block. -/
theorem exec_lifecycle_of_armed (hd : decodeRequest code arg = .ok i) (hl : s.lifecycle = .armed) (h : exec i s = .next t) :
    t.lifecycle = s.lifecycle := by
  have hu : s.lifecycle ≠ .unarmed := by simp [hl]
  cases exec_served hd h with
  | error e h => rw [h]; rfl
  | crc st d c h => rw [h]; rfl
  | line d n new hl' h => exact absurd hl' hu
  | search m hl' hm h => exact absurd hl' hu
  | armed hl' h => exact absurd hl' hu
  | access b todo fin hl' hne h => rw [h]; exact (hostOnly_startOp b todo fin s).lifecycle_eq

/-- A host step changes the lifecycle only when it serves `ARM` unarmed. -/
theorem hostStep_lifecycle (h : hostStep s = .next t) :
    t.lifecycle = s.lifecycle ∨
      (s.lifecycle = .unarmed ∧
        ∃ code arg is, s.hostOp = .idle ∧ s.inputs = .request code arg :: is ∧ decodeRequest code arg = .ok .arm) := by
  rcases hostStep_cases h with ⟨-, rfl⟩ | ⟨b, a, rest, fin, -, rfl⟩ | ⟨b, fin, -, rfl⟩ | ⟨code, arg, is, i, hop, hin, hd, he⟩ |
    ⟨code, arg, is, -, -, rfl⟩ | ⟨i, v, is, -, -, rfl⟩
  · exact .inl rfl
  · exact .inl (hostOnly_hostAccess b a rest fin s).lifecycle_eq
  · exact .inl (hostOnly_finishOp fin s).lifecycle_eq
  · cases hl : s.lifecycle with
    | armed => exact .inl ((exec_lifecycle_of_armed (s := { s with inputs := is }) hd hl he).trans hl)
    | unarmed =>
      by_cases hi : i = .arm
      · exact .inr ⟨rfl, code, arg, is, hop, hin, hi ▸ hd⟩
      · exact .inl ((exec_lifecycle_of_unarmed (s := { s with inputs := is }) hd hi hl he).trans hl)
  · exact .inl rfl
  · exact .inl rfl

theorem platformStep_lifecycle (h : platformStep s = .next t) :
    t = s ∨ (t.lifecycle = .unarmed ∧ ∃ is, s.inputs = .blockReset :: is ∧ t.inputs = is ∧ t.epoch = s.epoch + 1) := by
  rcases platformStep_cases h with rfl | ⟨is, hin, rfl⟩
  · exact .inl rfl
  · exact .inr ⟨rfl, is, hin, rfl, rfl⟩

/-- A step changes the lifecycle only by `ARM`, from UNARMED, or by block reset, to UNARMED. -/
theorem step_lifecycle (h : step s = .next t) :
    t.lifecycle = s.lifecycle ∨
      (s.lifecycle = .unarmed ∧
        ∃ code arg is, s.hostOp = .idle ∧ s.inputs = .request code arg :: is ∧ decodeRequest code arg = .ok .arm) ∨
      (t.lifecycle = .unarmed ∧ ∃ is, s.inputs = .blockReset :: is ∧ t.inputs = is ∧ t.epoch = s.epoch + 1) := by
  rcases step_cases h with ⟨a, u, -, hu, ha⟩ | ⟨-, rfl⟩
  · have hturn : u = { s with turns := u.turns, turnDraws := u.turnDraws } := by
      rcases hu with rfl | rfl
      · rfl
      · exact afterTurn_eq s
    rw [hturn] at ha
    cases a with
    | host => exact (hostStep_lifecycle ha).imp_right .inl
    | engine => exact .inl (engineOnly_engineStep ha).lifecycle_eq
    | platform =>
      rcases platformStep_lifecycle ha with rfl | hr
      · exact .inl rfl
      · exact .inr (.inr hr)
  · exact .inl rfl

end Sys2Proof.Machine

namespace Sys2Proof.Claims

open Sys2Proof.Machine

/-- Settles O24: of the two ways a step changes the lifecycle, only `ARM` starts UNARMED and only block reset ends there. -/
theorem lifecycleOneWay : Obligations.LifecycleOneWay := by
  intro s t h
  rcases step_lifecycle h with hk | ⟨hs, harm⟩ | ⟨ht, hreset⟩
  · exact ⟨fun hs ht => by simp [hk, hs] at ht, fun hs ht => by simp [hk, hs] at ht⟩
  · exact ⟨fun _ _ => harm, fun hs' => by simp [hs] at hs'⟩
  · exact ⟨fun _ ht' => by simp [ht] at ht', fun _ _ => hreset⟩

end Sys2Proof.Claims
end

section
/-! PROOF. An invariant from its agents (00_scope R16), and the shape of the state (10_state R20): each part of it under the frames of an
update, then each kind of step. -/

namespace Sys2Proof.Machine

/-! ### An invariant of the step from one of each agent -/

/-- What the agents keep, and the use of a choice keeps, every step keeps. -/
theorem step_keeps {P : State → Prop} (turn : ∀ s, P s → P (afterTurn s)) (host : ∀ s t, P s → hostStep s = .next t → P t)
    (engine : ∀ s t, P s → engineStep s = .next t → P t) (platform : ∀ s t, P s → platformStep s = .next t → P t)
    {s t : State} (hs : P s) (h : step s = .next t) : P t := by
  rcases step_cases h with ⟨a, u, -, hu, ha⟩ | ⟨-, rfl⟩
  · have hP : P u := by
      rcases hu with rfl | rfl
      · exact hs
      · exact turn s hs
    cases a with
    | host => exact host u t hP ha
    | engine => exact engine u t hP ha
    | platform => exact platform u t hP ha
  · exact hs

variable {s t : State}

/-! ### What the shape says nothing of -/

theorem Inv.todo_ne_nil {b : Bool} {todo : List Access} {fin : Finish} (hi : Inv s) (h : s.hostOp = .running b todo fin) :
    todo ≠ [] := by
  have hv := hi.live
  rw [h] at hv
  simpa [HostOp.live] using hv

theorem Inv.armed_of_running {b : Bool} {todo : List Access} {fin : Finish} (hi : Inv s)
    (h : s.hostOp = .running b todo fin) : s.lifecycle = .armed := by
  cases hl : s.lifecycle with
  | armed => rfl
  | unarmed =>
    obtain ⟨-, -, hop⟩ := hi.lifecycle.empty hl
    rw [h] at hop
    cases hop

theorem Inv.armed_of_engine_on (hi : Inv s) (h : s.engState ≠ .off) : s.lifecycle = .armed := by
  cases hl : s.lifecycle with
  | armed => rfl
  | unarmed => exact absurd (hi.lifecycle.off.mp hl) h

/-- The shape of `s` is that of `s` with any CRC register, `BUF`, inputs, samples, turns and history, and a released line. -/
theorem Inv.elsewhere (hi : Inv s) {oe : Bool} (ho : oe = false) (c : Byte) (bf : Vector Byte 16) (is : List Input) (sm : List Bool)
    (ts : List Agent) (n : Nat) (log : List LineEvent) :
    Inv { s with
      lineOe := oe, crc := c, buf := bf, inputs := is, samples := sm, turns := ts, turnDraws := n, lineLog := log } where
  depth := hi.depth
  released := ho
  queues := ⟨hi.queues.tx, hi.queues.rx⟩
  search := ⟨hi.search.lastBranch, hi.search.bitIdx, hi.search.idle, hi.search.count, hi.search.maxDev, hi.search.res⟩
  lifecycle := ⟨hi.lifecycle.off, hi.lifecycle.empty⟩
  engine := ⟨hi.engine.slots, hi.engine.exec, hi.engine.push, hi.engine.fault⟩
  live := hi.live
  status := hi.status

theorem Inv.withInputs (hi : Inv s) (is : List Input) : Inv { s with inputs := is } := hi.elsewhere hi.released _ _ _ _ _ _ _

theorem inv_afterTurn (hi : Inv s) : Inv (afterTurn s) := by
  rw [afterTurn_eq]
  exact hi.elsewhere hi.released _ _ _ _ _ _ _

/-! ### The engine registers -/

theorem EngineShape.noFault (he : EngineShape s) (hs : s.engState ≠ .fault) : s.engFault = false :=
  eq_false_of_ne_true fun hf => hs (he.fault.mp hf)

/-- The engine registers have their shape in each of the three phases in which the engine runs. -/
theorem EngineShape.of_running (hslots : s.engBitcnt.toNat ≤ 32) (hf : s.engFault = false)
    (hphase : s.engState = .fetch ∨
      (s.engState = .exec ∧ ∃ i, decodeCommand s.engCmd = .ok i ∧ execShape i s.engBitcnt.toNat = true) ∨
      (s.engState = .push ∧ ∃ n, decodeCommand s.engCmd = .ok (.rdBits n))) : EngineShape s := by
  rcases hphase with hs | ⟨hs, hexec⟩ | ⟨hs, hpush⟩
  · exact ⟨hslots, by simp [hs], by simp [hs], by simp [hs, hf]⟩
  · exact ⟨hslots, fun _ => hexec, by simp [hs], by simp [hs, hf]⟩
  · exact ⟨hslots, by simp [hs], fun _ => hpush, by simp [hs, hf]⟩

/-! ### A response and a queue access -/

theorem Status.code_le (st : Status) : st.code.toNat ≤ 8 := by cases st <;> decide

/-- A host operation keeps the shape when it keeps the queues bounded, and empty unarmed, an operation in progress live and the status code
one that exists. -/
theorem Inv.of_hostOnly (hi : Inv s) (h : HostOnly s t)
    (hempty : s.lifecycle = .unarmed → t.txq = [] ∧ t.rxq = [] ∧ t.hostOp = .idle) (hq : QueuesBounded t)
    (hv : t.hostOp.live = true) (hst : t.rspStatus.toNat ≤ 8) : Inv t := by
  refine ⟨?_, ?_, hq, ?_, ?_, ?_, hv, hst⟩ <;> (unfold HostOnly at h; rw [h])
  · exact hi.depth
  · exact hi.released
  · exact ⟨hi.search.lastBranch, hi.search.bitIdx, hi.search.idle, hi.search.count, hi.search.maxDev, hi.search.res⟩
  · exact ⟨hi.lifecycle.off, hempty⟩
  · exact ⟨hi.engine.slots, hi.engine.exec, hi.engine.push, hi.engine.fault⟩

theorem inv_respond (hi : Inv s) (st : Status) (d : Word64) : Inv (respond st d s) := by
  refine hi.of_hostOnly (hostOnly_respond st d s) (fun hl => ?_) ⟨hi.queues.tx, hi.queues.rx⟩ rfl st.code_le
  obtain ⟨htx, hrx, -⟩ := hi.lifecycle.empty hl
  exact ⟨htx, hrx, rfl⟩

theorem finishOp_rspStatus (fin : Finish) (s : State) : ∃ st : Status, (finishOp fin s).rspStatus = st.code := by
  cases fin with
  | reply d => exact ⟨.ok, rfl⟩
  | check n => exact ⟨_, rfl⟩

theorem proceed_rspStatus (b : Bool) (rest : List Access) (fin : Finish) (s : State) :
    (proceed b rest fin s).rspStatus = s.rspStatus ∨ ∃ st : Status, (proceed b rest fin s).rspStatus = st.code := by
  cases rest with
  | nil => exact .inr (finishOp_rspStatus fin s)
  | cons a as => exact .inl rfl

theorem usePopped_rspStatus (use : PopUse) (w : QWord) (fin : Finish) (s : State) :
    (usePopped use w fin s).2.rspStatus = s.rspStatus := by cases use <;> rfl

/-- A queue access leaves the status, or writes the code of one. -/
theorem hostAccess_rspStatus (b : Bool) (a : Access) (rest : List Access) (fin : Finish) (s : State) :
    (hostAccess b a rest fin s).rspStatus = s.rspStatus ∨ ∃ st : Status, (hostAccess b a rest fin s).rspStatus = st.code := by
  rcases hostAccess_cases b a rest fin s with ⟨e, n, -, -, h⟩ | ⟨-, -, h⟩ | ⟨w, n, -, -, h⟩ | ⟨-, h⟩ | ⟨use, n, w, r, -, -, h⟩ <;>
    rw [h]
  · exact .inr ⟨e, rfl⟩
  · exact .inl rfl
  · exact proceed_rspStatus b rest fin (txEnqueue w s)
  · exact proceed_rspStatus b rest fin s
  · rw [← usePopped_rspStatus use w fin s]
    exact proceed_rspStatus b rest _ _

theorem inv_hostAccess (hi : Inv s) (hl : s.lifecycle = .armed) (b : Bool) (a : Access) (rest : List Access) (fin : Finish) :
    Inv (hostAccess b a rest fin s) := by
  obtain ⟨htx, hrx⟩ := hostAccess_queues b a rest fin s
  refine hi.of_hostOnly (hostOnly_hostAccess b a rest fin s) (fun hu => by simp [hl] at hu) ⟨?_, ?_⟩ ?_ ?_
  · have := hi.queues.tx
    rcases htx with h | ⟨w, n, -, hroom, h⟩ <;> simp [h] <;> omega
  · have := hi.queues.rx
    rcases hrx with h | h <;> simp [h] <;> omega
  · rcases hostAccess_todo b a rest fin s with h | ⟨a', as, fin', h, -⟩ <;> simp [h, HostOp.live]
  · rcases hostAccess_rspStatus b a rest fin s with h | ⟨st, h⟩ <;> rw [h]
    · exact hi.status
    · exact st.code_le

/-! ### A request served -/

/-- A discovery run ends with `count` at most `max_dev` and a status code that exists (42_search_engine R172). -/
theorem SearchEnd.bounds {m : Nat} (h : SearchEnd m t) : t.count ≤ m ∧ t.rspStatus.toNat ≤ 8 := by
  rcases h with ⟨hst, hc⟩ | ⟨hst, -, hc, -⟩ | ⟨hst, hc⟩ | ⟨hst, hc⟩ <;> exact ⟨by omega, hst ▸ Status.code_le _⟩

theorem inv_discover (hi : Inv s) {m : Nat} (hm : m ≤ s.cfg.resDepth) : Inv (searchPasses m (searchStart m s)) := by
  have run := searchRun_discover m s
  obtain ⟨hcount, hstatus⟩ := run.ends.bounds
  have hframe := run.frame
  generalize searchPasses m (searchStart m s) = t at run hcount hstatus hframe ⊢
  have hcfg : t.cfg = s.cfg := by unfold SearchOnly at hframe; rw [hframe]; rfl
  exact {
    depth := hcfg ▸ hi.depth
    released := run.released
    queues := by unfold SearchOnly at hframe; rw [hframe]; exact ⟨hi.queues.tx, hi.queues.rx⟩
    search := {
      lastBranch := run.lastBranch (show (64#7).toNat ≤ 64 by decide)
      bitIdx := run.bitIdx hi.search.bitIdx
      idle := run.idle
      count := run.maxDev ▸ hcount
      maxDev := by rw [run.maxDev, hcfg]; exact hm
      res := by rw [run.resLength, hcfg]; exact hi.search.res }
    lifecycle := by
      have hop := run.noOp
      unfold SearchOnly at hframe
      rw [hframe]
      exact ⟨hi.lifecycle.off, fun hl => ⟨(hi.lifecycle.empty hl).1, (hi.lifecycle.empty hl).2.1, hop⟩⟩
    engine := by
      unfold SearchOnly at hframe
      rw [hframe]
      exact ⟨hi.engine.slots, hi.engine.exec, hi.engine.push, hi.engine.fault⟩
    live := by rw [run.noOp]; rfl
    status := hstatus }

theorem inv_armBlock (hi : Inv s) (hl : s.lifecycle = .unarmed) : Inv (armBlock s) where
  depth := hi.depth
  released := rfl
  queues := ⟨Nat.zero_le _, Nat.zero_le _⟩
  search := ⟨hi.search.lastBranch, hi.search.bitIdx, hi.search.idle, hi.search.count, hi.search.maxDev, hi.search.res⟩
  lifecycle := ⟨⟨nofun, nofun⟩, nofun⟩
  engine := .of_running (Nat.zero_le _) (hi.engine.noFault (by simp [hi.lifecycle.off.mp hl])) (.inl rfl)
  live := rfl
  status := Status.code_le _

theorem inv_served (hi : Inv s) (h : Served s t) : Inv t := by
  cases h with
  | error e h => exact h ▸ inv_respond hi e _
  | crc st d c h => exact h ▸ inv_respond (hi.elsewhere hi.released c _ _ _ _ _ _) st d
  | line d n new hl h => exact h ▸ inv_respond (hi.elsewhere rfl _ _ _ _ _ _ _) .ok d
  | search m hl hm h => exact h ▸ inv_discover hi hm
  | armed hl h => exact h ▸ inv_armBlock hi hl
  | access b todo fin hl hne h =>
    obtain ⟨a, rest, rfl⟩ := List.exists_cons_of_ne_nil hne
    exact h ▸ inv_hostAccess hi hl b a rest fin

/-! ### The agents -/

theorem inv_hostStep (hi : Inv s) (h : hostStep s = .next t) : Inv t := by
  rcases hostStep_cases h with ⟨-, rfl⟩ | ⟨b, a, rest, fin, hop, rfl⟩ | ⟨b, fin, hop, -⟩ | ⟨code, arg, is, i, -, -, hd, he⟩ |
    ⟨code, arg, is, -, -, rfl⟩ | ⟨i, v, is, -, -, rfl⟩
  · exact hi
  · exact inv_hostAccess hi (hi.armed_of_running hop) b a rest fin
  · exact absurd rfl (hi.todo_ne_nil hop)
  · exact inv_served (hi.withInputs is) (exec_served hd he)
  · exact inv_respond (hi.withInputs is) _ _
  · exact hi.elsewhere hi.released _ _ _ _ _ _ _

/-- An engine step keeps the shape when the engine stays on and the parts that say something of it hold. -/
theorem Inv.of_engineOnly (hi : Inv s) (hon : s.engState ≠ .off) (h : EngineOnly s t) (hoff : t.engState ≠ .off)
    (ho : t.lineOe = false) (hq : QueuesBounded t) (he : EngineShape t) : Inv t := by
  have hl := hi.armed_of_engine_on hon
  have hlt := h.lifecycle_eq.trans hl
  have hlife : LifecycleShape t := ⟨⟨fun hu => by simp [hlt] at hu, fun hu => absurd hu hoff⟩, fun hu => by simp [hlt] at hu⟩
  refine ⟨?_, ho, hq, ?_, hlife, he, ?_, ?_⟩ <;> (unfold EngineOnly at h; rw [h])
  · exact hi.depth
  · exact ⟨hi.search.lastBranch, hi.search.bitIdx, hi.search.idle, hi.search.count, hi.search.maxDev, hi.search.res⟩
  · exact hi.live
  · exact hi.status

/-- A fetch keeps the shape: one word fewer in `TXQ`, and the engine in the phase the word asks for. -/
theorem inv_fetch (hi : Inv s) {w : QWord} {r : List QWord} {i : Instr} (hs : s.engState = .fetch) (hq : s.txq = w :: r)
    (hd : decodeCommand w = .ok i) (he : exec i (txFetch w r s) = .next t) : Inv t := by
  obtain ⟨hframe, htq, hcmd, hfault⟩ := exec_command_next hd he
  obtain ⟨hrq, hoe, hcase⟩ := exec_of_fetch hd (s := txFetch w r s) hs he
  have hf : t.engFault = false := hfault.trans (hi.engine.noFault (by simp [hs]))
  have htx := hi.queues.tx
  rw [hq, List.length_cons] at htx
  have hbounds : QueuesBounded t := ⟨by rw [htq, txFetch_txq]; omega, by rw [hrq]; exact hi.queues.rx⟩
  refine hi.of_engineOnly (by simp [hs]) (.trans (t := txFetch w r s) rfl hframe) ?_ (hoe hi.released) hbounds ?_
  · rcases hcase with ⟨-, ht, -⟩ | ⟨ht, -⟩ <;> simp [ht]
  · rcases hcase with ⟨-, ht, hb⟩ | ⟨ht, hshape, hb⟩
    · exact .of_running (by rw [hb]; exact hi.engine.slots) hf (.inl ht)
    · refine .of_running ?_ hf (.inr (.inl ⟨ht, i, by rw [hcmd]; exact hd, hshape⟩))
      rcases hb with hb | hb
      · rw [hb]; exact hi.engine.slots
      · exact hb

/-- A slot keeps the shape: the queues as they were, and one slot fewer to run unless it was the last. -/
theorem inv_slot (hi : Inv s) {i : Instr} (hs : s.engState = .exec) (hd : decodeCommand s.engCmd = .ok i)
    (he : exec i s = .next t) : Inv t := by
  obtain ⟨i', hd', hshape⟩ := hi.engine.exec hs
  obtain rfl : i = i' := by rw [hd] at hd'; injection hd'
  obtain ⟨hframe, htq, hcmd, hfault⟩ := exec_command_next hd he
  obtain ⟨hrq, hoe, hle, hcase⟩ := exec_of_exec hd hs he
  have hf : t.engFault = false := hfault.trans (hi.engine.noFault (by simp [hs]))
  have hslots : t.engBitcnt.toNat ≤ 32 := (hle hshape).trans hi.engine.slots
  have hbounds : QueuesBounded t := ⟨by rw [htq]; exact hi.queues.tx, by rw [hrq]; exact hi.queues.rx⟩
  rw [← hcmd] at hd
  refine hi.of_engineOnly (by simp [hs]) hframe ?_ (hoe hi.released) hbounds (.of_running hslots hf ?_)
  · rcases hcase with ⟨ht, -⟩ | ⟨ht, -⟩ | ⟨ht, -⟩ <;> simp [ht]
  · rcases hcase with ⟨ht, hkeep⟩ | ⟨ht, -⟩ | ⟨ht, n, rfl⟩
    · exact .inr (.inl ⟨ht, i, hd, hkeep hshape⟩)
    · exact .inl ht
    · exact .inr (.inr ⟨ht, n, hd⟩)

theorem inv_engineStep (hi : Inv s) (h : engineStep s = .next t) : Inv t := by
  have hframe := engineOnly_engineStep h
  have hslots := hi.engine.slots
  rcases engineStep_cases h with rfl | ⟨w, r, hs, hq, -, rfl⟩ | ⟨w, r, i, hs, hq, hd, he⟩ | ⟨i, hs, hd, he⟩ | ⟨hs, hroom, rfl⟩
  · exact hi
  · have htx := hi.queues.tx
    rw [hq] at htx
    exact hi.of_engineOnly (by simp [hs]) hframe nofun hi.released ⟨Nat.le_of_succ_le htx, hi.queues.rx⟩
      ⟨hslots, nofun, nofun, ⟨fun _ => rfl, fun _ => rfl⟩⟩
  · exact inv_fetch hi hs hq hd he
  · exact inv_slot hi hs hd he
  · have hf : s.engFault = false := hi.engine.noFault (by simp [hs])
    exact hi.of_engineOnly (by simp [hs]) hframe nofun hi.released ⟨hi.queues.tx, by simp; omega⟩
      (.of_running hslots hf (.inl rfl))

/-- Block reset has the shape from any state with `RES_DEPTH ≥ 1` (70_reset_and_hazards R291). -/
theorem inv_blockReset (hd : 1 ≤ s.cfg.resDepth) : Inv (blockReset s) where
  depth := hd
  released := rfl
  queues := ⟨Nat.zero_le _, Nat.zero_le _⟩
  search := ⟨show (64#7).toNat ≤ 64 by decide, Nat.zero_le _, rfl, le_rfl, Nat.zero_le _, by simp [blockReset, unspecifiedRes]⟩
  lifecycle := ⟨⟨fun _ => rfl, fun _ => rfl⟩, fun _ => ⟨rfl, rfl, rfl⟩⟩
  engine := ⟨Nat.zero_le _, nofun, nofun, ⟨nofun, nofun⟩⟩
  live := rfl
  status := Nat.zero_le _

theorem inv_platformStep (hi : Inv s) (h : platformStep s = .next t) : Inv t := by
  rcases platformStep_cases h with rfl | ⟨is, -, rfl⟩
  · exact hi
  · exact inv_blockReset hi.depth

end Sys2Proof.Machine

namespace Sys2Proof.Claims

open Sys2Proof.Machine

/-- Settles O50: each agent keeps the shape, and a choice of an agent is no part of it. -/
theorem stepKeepsShape : Obligations.StepKeepsShape := fun _ _ hi h =>
  step_keeps (P := Inv) (fun _ => inv_afterTurn) (fun _ _ => inv_hostStep) (fun _ _ => inv_engineStep)
    (fun _ _ => inv_platformStep) hi h

end Sys2Proof.Claims
end

section
/-! PROOF. No reserved word on its way to the engine (30_encoding R106): every word the link layer pushes is legal, and a word in `TXQ` was
pushed. -/

namespace Sys2Proof.Machine

open Claims

variable {s t : State} {i : Instr} {code : BitVec 8} {arg : Word64}

/-! ### The words the link layer pushes -/

theorem legalWord_of_decode {w : QWord} (h : decodeCommand w = .ok i) : legalWord w = true := by
  rw [legalWord, h]; rfl

theorem legalWord_encWrBits (n : Nat) (v : BitVec 16) (h1 : 1 ≤ n) (h2 : n ≤ 16) : legalWord (encWrBits n v) = true :=
  legalWord_of_decode (decodeCommand_encWrBits n v h1 h2)

theorem legalWord_encRdBits (n : Nat) (h1 : 1 ≤ n) (h2 : n ≤ 32) : legalWord (encRdBits n) = true :=
  legalWord_of_decode (decodeCommand_encRdBits n h1 h2)

theorem matchRomWords_legal (cmdMatch : Byte) (a : Word64) : ∀ w ∈ matchRomWords cmdMatch a, legalWord w = true := by
  simp only [matchRomWords, List.mem_cons, List.not_mem_nil, or_false]
  rintro w (rfl | rfl | rfl | rfl | rfl) <;> exact legalWord_encWrBits _ _ (by omega) (by omega)

theorem matchRomAccesses_legal (cmdMatch : Byte) (a : Word64) : ∀ x ∈ matchRomAccesses cmdMatch a, x.legal = true := by
  intro x hx
  obtain ⟨j, hj, rfl⟩ := List.mem_mapIdx.mp hx
  exact matchRomWords_legal cmdMatch a _ (List.getElem_mem hj)

/-- The reads of a byte read are of 8 to 32 bits (44_link_layer R234). -/
theorem readSizes_bounds (count : Nat) : ∀ n ∈ readSizes count, 1 ≤ n ∧ n ≤ 32 := by
  intro n hn
  rcases List.mem_append.mp hn with h | h
  · obtain ⟨-, rfl⟩ := List.mem_replicate.mp h
    omega
  · split at h
    · obtain rfl := List.mem_singleton.mp h
      have : restBytes count < 4 := Nat.mod_lt _ (by omega)
      omega
    · cases h

theorem readBytesPushes_legal (count : Nat) : ∀ x ∈ readBytesPushes count, x.legal = true := by
  intro x hx
  obtain ⟨n, hn, rfl⟩ := List.mem_map.mp hx
  obtain ⟨h1, h2⟩ := readSizes_bounds count n hn
  exact legalWord_encRdBits n h1 h2

theorem readBytesPops_legal (count : Nat) : ∀ x ∈ readBytesPops count, x.legal = true := by
  intro x hx
  obtain ⟨p, -, rfl⟩ := List.mem_map.mp hx
  rfl

theorem readBytesAccesses_legal (b : Bool) (count : Nat) : ∀ x ∈ readBytesAccesses b count, x.legal = true := by
  simp only [readBytesAccesses, List.mem_append]
  rintro x (((hx | hx) | hx) | hx)
  · cases b
    · obtain rfl := List.mem_singleton.mp hx
      rfl
    · cases hx
  · exact readBytesPushes_legal count x hx
  · cases b
    · obtain rfl := List.mem_singleton.mp hx
      rfl
    · cases hx
  · exact readBytesPops_legal count x hx

/-! ### Armed requests -/

/-- `t` is `s` with a response and perhaps the CRC register written, or with an operation started that pushes no reserved word. -/
def StartsLegal (s t : State) : Prop :=
  (∃ st d c, t = respond st d { s with crc := c }) ∨
    ∃ b todo fin, (∀ a ∈ todo, a.legal = true) ∧ t = startOp b todo fin s

theorem startsLegal_raise (e : Status) (s : State) : StartsLegal s (raise e 0 s) := .inl ⟨e, _, s.crc, rfl⟩

theorem startsLegal_checkSize {served : State} (legal : Bool) (hs : legal = true → StartsLegal s served) :
    StartsLegal s (checkSize legal s served) := by
  cases legal with
  | true => exact hs rfl
  | false => exact startsLegal_raise _ s

theorem startsLegal_pushOne (b : Bool) {w : QWord} (hw : legalWord w = true) (s : State) : StartsLegal s (pushOne b w s) :=
  .inr ⟨b, [.push w 0], .reply 0#64, by simpa [Access.legal] using hw, rfl⟩

theorem startsLegal_readUnit (b : Bool) (n : Nat) (h1 : 1 ≤ n) (h2 : n ≤ 32) (s : State) : StartsLegal s (readUnit b n s) :=
  .inr ⟨b, [.push (encRdBits n) 0, .pop (.answer n) 1], .reply 0#64,
    by simpa [Access.legal] using legalWord_encRdBits n h1 h2, rfl⟩

theorem exec_startsLegal_of_needsArmed (hi : needsArmed i = true) (hl : s.lifecycle = .armed) (h : exec i s = .next t) :
    StartsLegal s t := by
  have serve : ∀ {served : State}, needArmed s served = .next t → StartsLegal s served → StartsLegal s t := fun hn hs => by
    rw [needArmed_of_armed _ hl] at hn
    injection hn with hn
    exact hn ▸ hs
  cases i with
  | llReset b => exact serve h (startsLegal_pushOne b (by decide) s)
  | llWaitIdle b => exact serve h (startsLegal_pushOne b (by decide) s)
  | llWriteByte b v => exact serve h (startsLegal_pushOne b (legalWord_encWrBits _ _ (by omega) (by omega)) s)
  | llWriteWord b v => exact serve h (startsLegal_pushOne b (legalWord_encWrBits _ _ (by omega) (by omega)) s)
  | llReadBits b n =>
    refine serve h (startsLegal_checkSize _ fun hn => ?_)
    obtain ⟨h1, h2⟩ := (bitCountOk_iff n).mp hn
    exact startsLegal_pushOne b (legalWord_encRdBits n h1 h2) s
  | llPull b n =>
    exact serve h (startsLegal_checkSize _ fun _ => .inr ⟨b, [.pop (.answer n) 0], _, by simp [Access.legal], rfl⟩)
  | llReadBytes b n =>
    exact serve h (startsLegal_checkSize _ fun _ => .inr ⟨b, _, _, readBytesAccesses_legal b n, rfl⟩)
  | llMatchRom b a => exact serve h (.inr ⟨b, _, _, matchRomAccesses_legal _ a, rfl⟩)
  | llSkipRom b => exact serve h (startsLegal_pushOne b (legalWord_encWrBits _ _ (by omega) (by omega)) s)
  | llReadByte b => exact serve h (startsLegal_readUnit b 8 (by omega) (by omega) s)
  | llReadWord b => exact serve h (startsLegal_readUnit b 16 (by omega) (by omega) s)
  | _ => cases hi

/-- Armed, a request is answered, or starts an operation that pushes no reserved word. -/
theorem exec_startsLegal (hd : decodeRequest code arg = .ok i) (hl : s.lifecycle = .armed) (h : exec i s = .next t) :
    StartsLegal s t := by
  rcases decodeRequest_cases hd with hi | hi | ⟨n, rfl⟩ | ⟨n, rfl⟩
  · exact exec_startsLegal_of_needsArmed hi hl h
  · rw [exec_needsUnarmed_of_armed hi hl] at h
    injection h with h
    exact h ▸ startsLegal_raise _ s
  · injection h with h
    exact h ▸ startsLegal_checkSize _ fun _ => .inl ⟨_, _, _, rfl⟩
  · injection h with h
    exact h ▸ startsLegal_checkSize _ fun _ => .inl ⟨_, _, _, rfl⟩

/-! ### The host -/

/-- With the words of `TXQ` and of the operation in progress legal, and the engine's fault registers those of a state without a reserved
word, there is none. -/
theorem NoReservedWord.of_engine_eq (hn : NoReservedWord s) (hf : t.engFault = s.engFault) (he : t.engState = s.engState)
    (hq : ∀ w ∈ t.txq, legalWord w = true) (hp : ∀ a ∈ t.hostOp.todo, a.legal = true) : NoReservedWord t :=
  ⟨hq, hp, hf.trans hn.noFault, he ▸ hn.running⟩

theorem NoReservedWord.withInputs (hn : NoReservedWord s) (is : List Input) : NoReservedWord { s with inputs := is } :=
  ⟨hn.queued, hn.pending, hn.noFault, hn.running⟩

theorem noReservedWord_afterTurn (hn : NoReservedWord s) : NoReservedWord (afterTurn s) := by
  rw [afterTurn_eq]
  exact ⟨hn.queued, hn.pending, hn.noFault, hn.running⟩

theorem noReservedWord_respond (hn : NoReservedWord s) (st : Status) (d : Word64) : NoReservedWord (respond st d s) :=
  ⟨hn.queued, nofun, hn.noFault, hn.running⟩

theorem HostOnly.engine_eq (h : HostOnly s t) : t.engFault = s.engFault ∧ t.engState = s.engState := by
  unfold HostOnly at h; rw [h]; exact ⟨rfl, rfl⟩

theorem noReservedWord_finishOp (hn : NoReservedWord s) (fin : Finish) : NoReservedWord (finishOp fin s) := by
  obtain ⟨hf, he⟩ := (hostOnly_finishOp fin s).engine_eq
  exact hn.of_engine_eq hf he (by rw [finishOp_txq]; exact hn.queued) (by rw [finishOp_hostOp]; exact nofun)

/-- A queue access pushes its own word only, and leaves accesses it was given. -/
theorem noReservedWord_hostAccess (hn : NoReservedWord s) (b : Bool) (a : Access) (rest : List Access) (fin : Finish)
    (hlegal : ∀ x ∈ a :: rest, x.legal = true) : NoReservedWord (hostAccess b a rest fin s) := by
  obtain ⟨hf, he⟩ := (hostOnly_hostAccess b a rest fin s).engine_eq
  refine hn.of_engine_eq hf he ?_ ?_
  · rcases (hostAccess_queues b a rest fin s).1 with h | ⟨w, n, rfl, -, h⟩ <;> rw [h]
    · exact hn.queued
    · intro x hx
      rcases List.mem_append.mp hx with hx | hx
      · exact hn.queued x hx
      · obtain rfl := List.mem_singleton.mp hx
        exact hlegal _ List.mem_cons_self
  · rcases hostAccess_todo b a rest fin s with h | ⟨a', as, fin', h, hsub⟩ <;> rw [h]
    · exact nofun
    · intro x hx
      rcases hsub with hsub | hsub <;> rw [HostOp.todo, hsub] at hx
      · exact hlegal x hx
      · exact hlegal x (List.mem_cons_of_mem a hx)

theorem noReservedWord_startsLegal (hn : NoReservedWord s) (h : StartsLegal s t) : NoReservedWord t := by
  rcases h with ⟨st, d, c, rfl⟩ | ⟨b, todo, fin, hlegal, rfl⟩
  · exact ⟨hn.queued, nofun, hn.noFault, hn.running⟩
  · cases todo with
    | nil => exact noReservedWord_finishOp hn fin
    | cons a rest => exact noReservedWord_hostAccess hn b a rest fin hlegal

theorem noReservedWord_discover (hn : NoReservedWord s) (m : Nat) : NoReservedWord (searchPasses m (searchStart m s)) := by
  have run := searchRun_discover m s
  have hframe := run.frame
  have hop := run.noOp
  generalize searchPasses m (searchStart m s) = t at hframe hop ⊢
  unfold SearchOnly at hframe
  rw [hframe]
  exact ⟨hn.queued, by rw [hop]; exact nofun, hn.noFault, hn.running⟩

theorem noReservedWord_exec (hn : NoReservedWord s) (hd : decodeRequest code arg = .ok i) (h : exec i s = .next t) :
    NoReservedWord t := by
  cases exec_served hd h with
  | error e h => exact h ▸ noReservedWord_respond hn e _
  | crc st d c h => exact h ▸ ⟨hn.queued, nofun, hn.noFault, hn.running⟩
  | line d n new hl h => exact h ▸ ⟨hn.queued, nofun, hn.noFault, hn.running⟩
  | search m hl hm h => exact h ▸ noReservedWord_discover hn m
  | armed hl h => exact h ▸ ⟨nofun, nofun, hn.noFault, nofun⟩
  | access b todo fin hl hne _ => exact noReservedWord_startsLegal hn (exec_startsLegal hd hl h)

theorem noReservedWord_hostStep (hn : NoReservedWord s) (h : hostStep s = .next t) : NoReservedWord t := by
  rcases hostStep_cases h with ⟨-, rfl⟩ | ⟨b, a, rest, fin, hop, rfl⟩ | ⟨b, fin, -, rfl⟩ | ⟨code, arg, is, i, -, -, hd, he⟩ |
    ⟨code, arg, is, -, -, rfl⟩ | ⟨i, v, is, -, -, rfl⟩
  · exact hn
  · have hpending := hn.pending
    rw [hop] at hpending
    exact noReservedWord_hostAccess hn b a rest fin hpending
  · exact noReservedWord_finishOp hn fin
  · exact noReservedWord_exec (hn.withInputs is) hd he
  · exact noReservedWord_respond (hn.withInputs is) _ _
  · exact ⟨hn.queued, hn.pending, hn.noFault, hn.running⟩

/-! ### The engine and the platform -/

theorem EngineOnly.hostOp_eq (h : EngineOnly s t) : t.hostOp = s.hostOp := by unfold EngineOnly at h; rw [h]

/-- An engine step takes words from `TXQ` only, and faults only on a reserved one. -/
theorem noReservedWord_engineStep (hn : NoReservedWord s) (h : engineStep s = .next t) : NoReservedWord t := by
  have hp : ∀ a ∈ t.hostOp.todo, a.legal = true := by
    rw [(engineOnly_engineStep h).hostOp_eq]
    exact hn.pending
  rcases engineStep_cases h with rfl | ⟨w, r, -, hq, hd, -⟩ | ⟨w, r, i, hs, hq, hd, he⟩ | ⟨i, hs, hd, he⟩ | ⟨-, -, rfl⟩
  · exact hn
  · have hw := hn.queued w (by rw [hq]; exact List.mem_cons_self)
    rw [legalWord, hd] at hw
    cases hw
  · obtain ⟨-, htq, -, hf⟩ := exec_command_next hd he
    obtain ⟨-, -, hcase⟩ := exec_of_fetch hd (s := txFetch w r s) hs he
    refine ⟨fun x hx => hn.queued x ?_, hp, hf.trans hn.noFault, ?_⟩
    · rw [htq] at hx
      rw [hq]
      exact List.mem_cons_of_mem w hx
    · rcases hcase with ⟨-, ht, -⟩ | ⟨ht, -⟩ <;> simp [ht]
  · obtain ⟨-, htq, -, hf⟩ := exec_command_next hd he
    obtain ⟨-, -, -, hcase⟩ := exec_of_exec hd hs he
    refine ⟨fun x hx => hn.queued x (htq ▸ hx), hp, hf.trans hn.noFault, ?_⟩
    rcases hcase with ⟨ht, -⟩ | ⟨ht, -⟩ | ⟨ht, -⟩ <;> simp [ht]
  · exact ⟨hn.queued, hp, hn.noFault, nofun⟩

theorem noReservedWord_platformStep (hn : NoReservedWord s) (h : platformStep s = .next t) : NoReservedWord t := by
  rcases platformStep_cases h with rfl | ⟨is, -, rfl⟩
  · exact hn
  · exact ⟨nofun, nofun, rfl, nofun⟩

end Sys2Proof.Machine

namespace Sys2Proof.Claims

open Sys2Proof.Machine

/-- Settles O51: the host pushes legal words only, and the engine fetches what the host pushed. -/
theorem stepKeepsNoReservedWord : Obligations.StepKeepsNoReservedWord := fun _ _ hn h =>
  step_keeps (P := NoReservedWord) (fun _ => noReservedWord_afterTurn) (fun _ _ => noReservedWord_hostStep)
    (fun _ _ => noReservedWord_engineStep) (fun _ _ => noReservedWord_platformStep) hn h

end Sys2Proof.Claims
end

section
/-! PROOF. The history of the line (20_memory R79): it only grows, under every agent, and armed no host step adds to it. -/

namespace Sys2Proof.Machine

variable {s t : State}

/-! ### What a host step can change once armed -/

/-- Once armed, a request served touches the queues, `BUF`, the CRC register, the response and the operation in progress only. -/
theorem hostOnly_exec_of_armed {code : BitVec 8} {arg : Word64} {i : Instr} (hd : decodeRequest code arg = .ok i)
    (hl : s.lifecycle = .armed) (h : exec i s = .next t) : HostOnly s t := by
  have hu : s.lifecycle ≠ .unarmed := by simp [hl]
  cases exec_served hd h with
  | error e h => exact h ▸ hostOnly_raise e 0 s
  | crc st d c h => rw [h]; rfl
  | line d n new hl' h => exact absurd hl' hu
  | search m hl' hm h => exact absurd hl' hu
  | armed hl' h => exact absurd hl' hu
  | access b todo fin hl' hne h => exact h ▸ hostOnly_startOp b todo fin s

/-- Once armed, a host step touches what a host operation may touch, and the inputs still to come. -/
theorem hostOnly_hostStep_of_armed (hl : s.lifecycle = .armed) (h : hostStep s = .next t) :
    ∃ is, HostOnly { s with inputs := is } t := by
  rcases hostStep_cases h with ⟨-, rfl⟩ | ⟨b, a, rest, fin, -, rfl⟩ | ⟨b, fin, -, rfl⟩ | ⟨code, arg, is, i, -, -, hd, he⟩ |
    ⟨code, arg, is, -, -, rfl⟩ | ⟨i, v, is, -, -, rfl⟩
  · exact ⟨t.inputs, .refl t⟩
  · exact ⟨s.inputs, hostOnly_hostAccess b a rest fin s⟩
  · exact ⟨s.inputs, hostOnly_finishOp fin s⟩
  · exact ⟨is, hostOnly_exec_of_armed (s := { s with inputs := is }) hd hl he⟩
  · exact ⟨is, hostOnly_raise _ _ _⟩
  · exact ⟨is, rfl⟩

theorem HostOnly.line_eq (h : HostOnly s t) : t.lineLog = s.lineLog ∧ t.lineOe = s.lineOe ∧ t.samples = s.samples := by
  unfold HostOnly at h
  rw [h]
  exact ⟨rfl, rfl, rfl⟩

/-! ### The history under a discovery run -/

theorem busReset_lineLog (s : State) : s.lineLog <:+ (busReset s).2.lineLog := by
  obtain ⟨bs, p, -, -, h⟩ := busReset_spec s
  rw [h]
  exact (List.suffix_append _ _).trans (List.suffix_cons _ _)

theorem readSlot_lineLog (s : State) : s.lineLog <:+ (readSlot s).2.lineLog := by
  rw [readSlot_eq]
  exact List.suffix_append _ _

theorem settleBit_lineLog (v c : Bool) (s : State) : s.lineLog <:+ (settleBit v c s).lineLog := by
  rw [settleBit_eq, resolveBit_shape]
  exact List.suffix_append _ _

theorem walkBits_lineLog (n : Nat) (s : State) : s.lineLog <:+ (walkBits n s).2.lineLog := by
  induction n generalizing s with
  | zero => exact List.suffix_rfl
  | succ n ih =>
    have hreads := (readSlot_lineLog s).trans (readSlot_lineLog (readSlot s).2)
    rw [walkBits_succ]
    split
    · exact hreads
    · exact (hreads.trans (settleBit_lineLog _ _ _)).trans (ih _)

theorem passWalk_lineLog (s : State) : s.lineLog <:+ (passWalk s).2.lineLog := by
  have hstart : (busReset s).2.lineLog <:+ (passStart s).lineLog := by
    rw [passStart, searchCommand, writeByte_eq]
    exact List.suffix_append _ _
  rw [passWalk]
  exact ((busReset_lineLog s).trans hstart).trans (walkBits_lineLog 64 (passStart s))

theorem searchPasses_lineLog (room : Nat) (s : State) : s.lineLog <:+ (searchPasses room s).lineLog := by
  have hwalk := passWalk_lineLog s
  induction room generalizing s with
  | zero =>
    rcases searchPasses_cases 0 s with ⟨-, h⟩ | ⟨-, -, h⟩ | ⟨-, -, -, h⟩ | ⟨room', t, -, -, hr, -⟩
    · exact h ▸ busReset_lineLog s
    · exact h ▸ hwalk
    · exact h ▸ hwalk
    · cases hr
  | succ room ih =>
    rcases searchPasses_cases (room + 1) s with ⟨-, h⟩ | ⟨-, -, h⟩ | ⟨-, -, hr, -⟩ | ⟨room', t, -, -, hr, ht, h⟩
    · exact h ▸ busReset_lineLog s
    · exact h ▸ hwalk
    · cases hr
    · obtain rfl : room = room' := by omega
      have hfound : s.lineLog <:+ t.lineLog := ht ▸ hwalk
      rw [h]
      split
      · exact hfound
      · exact hfound.trans (ih t (passWalk_lineLog t))

/-! ### The history under each agent -/

theorem lineLog_exec_request {code : BitVec 8} {arg : Word64} {i : Instr} (hd : decodeRequest code arg = .ok i)
    (h : exec i s = .next t) : s.lineLog <:+ t.lineLog := by
  cases exec_served hd h with
  | error e h => exact h ▸ List.suffix_rfl
  | crc st d c h => exact h ▸ List.suffix_rfl
  | line d n new hl h => exact h ▸ List.suffix_append _ _
  | search m hl hm h => exact h ▸ searchPasses_lineLog m (searchStart m s)
  | armed hl h => exact h ▸ List.suffix_cons _ _
  | access b todo fin hl hne h =>
    obtain ⟨hlog, -, -⟩ := (hostOnly_startOp b todo fin s).line_eq
    rw [h, hlog]

theorem lineLog_hostStep (h : hostStep s = .next t) : s.lineLog <:+ t.lineLog := by
  rcases hostStep_cases h with ⟨-, rfl⟩ | ⟨b, a, rest, fin, -, rfl⟩ | ⟨b, fin, -, rfl⟩ | ⟨code, arg, is, i, -, -, hd, he⟩ |
    ⟨code, arg, is, -, -, rfl⟩ | ⟨i, v, is, -, -, rfl⟩
  · exact List.suffix_rfl
  · exact (hostOnly_hostAccess b a rest fin s).line_eq.1 ▸ List.suffix_rfl
  · exact (hostOnly_finishOp fin s).line_eq.1 ▸ List.suffix_rfl
  · exact lineLog_exec_request (s := { s with inputs := is }) hd he
  · exact List.suffix_rfl
  · exact List.suffix_rfl

/-- A command word adds the events of its slot, if it has one in this phase. -/
theorem lineLog_exec_command {w : QWord} {i : Instr} (hd : decodeCommand w = .ok i) (h : exec i s = .next t) :
    s.lineLog <:+ t.lineLog := by
  rcases decodeCommand_cases hd with ⟨-, rfl⟩ | ⟨-, rfl⟩ | ⟨-, rfl⟩ | ⟨-, rfl⟩ <;> injection h with h <;> subst h
  · split
    · rw [resetPulse_eq]
      exact List.suffix_append _ _
    all_goals exact List.suffix_rfl
  · split
    · exact List.suffix_rfl
    · rw [waitIdleStep]
      dsimp only
      split <;> exact List.suffix_cons _ _
    all_goals exact List.suffix_rfl
  · split
    · exact List.suffix_rfl
    · exact List.suffix_append (slotLog _ _) _
    all_goals exact List.suffix_rfl
  · split
    · exact List.suffix_rfl
    · exact readSlot_lineLog s
    · rw [pushStep]
      split <;> exact List.suffix_rfl
    all_goals exact List.suffix_rfl

theorem lineLog_engineStep (h : engineStep s = .next t) : s.lineLog <:+ t.lineLog := by
  rcases engineStep_cases h with rfl | ⟨w, r, -, -, -, rfl⟩ | ⟨w, r, i, -, -, hd, he⟩ | ⟨i, -, hd, he⟩ | ⟨-, -, rfl⟩
  · exact List.suffix_rfl
  · exact List.suffix_rfl
  · exact lineLog_exec_command (s := txFetch w r s) hd he
  · exact lineLog_exec_command hd he
  · exact List.suffix_rfl

theorem lineLog_platformStep (h : platformStep s = .next t) : s.lineLog <:+ t.lineLog := by
  rcases platformStep_cases h with rfl | ⟨is, -, rfl⟩ <;> exact List.suffix_rfl

theorem lineLog_step (h : step s = .next t) : s.lineLog <:+ t.lineLog :=
  step_keeps (P := fun u => s.lineLog <:+ u.lineLog) (fun u hu => by rw [afterTurn_eq]; exact hu)
    (fun _ _ hu hs => hu.trans (lineLog_hostStep hs)) (fun _ _ hu hs => hu.trans (lineLog_engineStep hs))
    (fun _ _ hu hs => hu.trans (lineLog_platformStep hs)) List.suffix_rfl h

end Sys2Proof.Machine

namespace Sys2Proof.Claims

open Sys2Proof.Machine

/-- Settles O52: every agent adds to the history at its newest end, armed the host adds nothing, and an engine that is on is armed. -/
theorem lineDriversApart : Obligations.LineDriversApart := by
  refine ⟨fun s t h => ?_, fun s t hl h => ?_, fun s hi he => hi.armed_of_engine_on fun hoff => ?_⟩
  · obtain ⟨new, hnew⟩ := lineLog_step h
    exact ⟨new, hnew.symm⟩
  · obtain ⟨is, hframe⟩ := hostOnly_hostStep_of_armed hl h
    exact hframe.line_eq
  · simp [engineReady, hoff] at he

end Sys2Proof.Claims
end

section
/-! PROOF. The order of the words in the queues (20_memory R66, R69, R82), and the direct write of a `BUF` byte (20_memory R70). -/

namespace Sys2Proof.Machine

variable {s t : State}

/-- The host adds at most one word, at the tail of `TXQ`, and takes at most one, from the head of `RXQ`. -/
def HostFifo (s t : State) : Prop := (t.txq = s.txq ∨ ∃ w, t.txq = s.txq ++ [w]) ∧ (t.rxq = s.rxq ∨ t.rxq = s.rxq.tail)

theorem HostFifo.of_eq (htx : t.txq = s.txq) (hrx : t.rxq = s.rxq) : HostFifo s t := ⟨.inl htx, .inl hrx⟩

theorem hostFifo_hostAccess (b : Bool) (a : Access) (rest : List Access) (fin : Finish) (s : State) :
    HostFifo s (hostAccess b a rest fin s) := by
  obtain ⟨htx, hrx⟩ := hostAccess_queues b a rest fin s
  exact ⟨htx.imp_right fun ⟨w, _, _, _, h⟩ => ⟨w, h⟩, hrx⟩

/-- Once armed, no request empties a queue: the only one that does, `ARM`, is refused. -/
theorem hostFifo_exec_of_armed {code : BitVec 8} {arg : Word64} {i : Instr} (hd : decodeRequest code arg = .ok i)
    (hl : s.lifecycle = .armed) (h : exec i s = .next t) : HostFifo s t := by
  have hu : s.lifecycle ≠ .unarmed := by simp [hl]
  cases exec_served hd h with
  | error e h => exact h ▸ .of_eq rfl rfl
  | crc st d c h => exact h ▸ .of_eq rfl rfl
  | line d n new hl' h => exact absurd hl' hu
  | search m hl' hm h => exact absurd hl' hu
  | armed hl' h => exact absurd hl' hu
  | access b todo fin hl' hne h =>
    obtain ⟨a, rest, rfl⟩ := List.exists_cons_of_ne_nil hne
    exact h ▸ hostFifo_hostAccess b a rest fin s

theorem hostFifo_hostStep_of_armed (hl : s.lifecycle = .armed) (h : hostStep s = .next t) : HostFifo s t := by
  rcases hostStep_cases h with ⟨-, rfl⟩ | ⟨b, a, rest, fin, -, rfl⟩ | ⟨b, fin, -, rfl⟩ | ⟨code, arg, is, i, -, -, hd, he⟩ |
    ⟨code, arg, is, -, -, rfl⟩ | ⟨i, v, is, -, -, rfl⟩
  · exact .of_eq rfl rfl
  · exact hostFifo_hostAccess b a rest fin s
  · exact .of_eq (finishOp_txq fin s) (finishOp_rxq fin s)
  · exact hostFifo_exec_of_armed (s := { s with inputs := is }) hd hl he
  · exact .of_eq rfl rfl
  · exact .of_eq rfl rfl

/-- The engine takes at most one word, from the head of `TXQ` into `eng_cmd`. -/
theorem engineStep_txq (h : engineStep s = .next t) : t.txq = s.txq ∨ ∃ w, s.txq = w :: t.txq ∧ t.engCmd = w := by
  rcases engineStep_cases h with rfl | ⟨w, r, -, hq, -, rfl⟩ | ⟨w, r, i, -, hq, hd, he⟩ | ⟨i, -, hd, he⟩ | ⟨-, -, rfl⟩
  · exact .inl rfl
  · exact .inr ⟨w, hq, rfl⟩
  · obtain ⟨-, htx, hcmd, -⟩ := exec_command_next hd he
    exact .inr ⟨w, by rw [htx]; exact hq, hcmd⟩
  · obtain ⟨-, htx, -, -⟩ := exec_command_next hd he
    exact .inl htx
  · exact .inl rfl

/-- The engine adds at most one word, `eng_isr`, at the tail of `RXQ`. -/
theorem engineStep_rxq (h : engineStep s = .next t) : t.rxq = s.rxq ∨ t.rxq = s.rxq ++ [s.engIsr] := by
  rcases engineStep_cases h with rfl | ⟨w, r, -, -, -, rfl⟩ | ⟨w, r, i, hs, -, hd, he⟩ | ⟨i, hs, hd, he⟩ | ⟨-, -, rfl⟩
  · exact .inl rfl
  · exact .inl rfl
  · exact .inl (exec_of_fetch hd (s := txFetch w r s) hs he).1
  · exact .inl (exec_of_exec hd hs he).1
  · exact .inr rfl

theorem hostStep_of_bufWrite {i : Fin 16} {v : Byte} {is : List Input} (hop : s.hostOp = .idle)
    (hin : s.inputs = .bufWrite i v :: is) : hostStep s = .next (hostWriteBuf i v { s with inputs := is }) := by
  simp only [hostStep, hop, hin]

end Sys2Proof.Machine

namespace Sys2Proof.Claims

open Sys2Proof.Machine

/-- Settles O53: each kind of host step and each kind of engine step works at one end of a queue. -/
theorem queuesAreFifo : Obligations.QueuesAreFifo :=
  ⟨fun _ _ hl h => hostFifo_hostStep_of_armed hl h, fun _ _ h => ⟨engineStep_txq h, engineStep_rxq h⟩⟩

/-- Settles O60: the write sets one entry of the vector. -/
theorem hostBufWrite : Obligations.HostBufWrite := by
  intro s i v is hop hin
  refine ⟨s.buf.set i.val v, hostStep_of_bufWrite hop hin, Vector.getElem_set_self i.isLt, fun j hj => ?_⟩
  exact Vector.getElem_set_ne i.isLt j.isLt fun hij => hj (Fin.ext hij.symm)

end Sys2Proof.Claims
end

section
/-! PROOF. An operation that pushes as it starts (44_link_layer section 2): its first push with a free slot and with `TXQ` full (20_memory
R62), and the words it pushes. -/

namespace Sys2Proof.Machine

open Claims

variable {s : State} {b : Bool} {w : QWord} {n : Nat} {rest : List Access} {fin : Finish}

/-! ### A push -/

theorem hostAccess_push_of_room (h : s.txq.length < 4) :
    hostAccess b (.push w n) rest fin s = proceed b rest fin (txEnqueue w s) := by
  simp [hostAccess, (txFull_eq_false_iff s).mpr h]

theorem hostAccess_push_of_full_nonBlocking (h : s.txq.length = 4) :
    hostAccess false (.push w n) rest fin s = raise .queueFull n s := by
  simp [hostAccess, (txFull_iff s).mpr h.ge]

theorem hostAccess_push_of_full_blocking (h : s.txq.length = 4) :
    hostAccess true (.push w n) rest fin s = { s with hostOp := .running true (.push w n :: rest) fin } := by
  simp [hostAccess, (txFull_iff s).mpr h.ge, hold]

theorem hostReady_push_blocking (hop : s.hostOp = .running true (.push w n :: rest) fin) :
    hostReady s = true ↔ s.txq.length < 4 := by
  simp [hostReady, hop, accessReady, txFull_eq_false_iff]

theorem hostStep_running {a : Access} (hop : s.hostOp = .running b (a :: rest) fin) :
    hostStep s = .next (hostAccess b a rest fin s) := by
  simp only [hostStep, hop]

theorem hostStep_push_of_room (hop : s.hostOp = .running b (.push w n :: rest) fin) (h : s.txq.length < 4) :
    hostStep s = .next (proceed b rest fin (txEnqueue w s)) := by
  rw [hostStep_running hop, hostAccess_push_of_room h]

theorem proceed_of_ne_nil (hr : rest ≠ []) : proceed b rest fin s = { s with hostOp := .running b rest fin } := by
  cases rest with
  | nil => exact absurd rfl hr
  | cons a as => rfl

/-! ### The words, written out -/

theorem encWrBits_eight (v : Byte) : encWrBits 8 (v.setWidth 16) = 0x300700#24 ++ v := by revert v; decide

theorem encWrBits_sixteen (v : BitVec 16) : encWrBits 16 v = 0x300F#16 ++ v := by
  apply BitVec.eq_of_getLsbD_eq
  intro i hi
  rw [encWrBits_eq_wrBitsWord 16 v (by omega) le_rfl, wrBitsWord_getLsbD, BitVec.getLsbD_append,
    Nat.mod_eq_of_lt v.isLt, BitVec.ofNat_toNat, BitVec.setWidth_eq]
  interval_cases i <;> rfl

theorem encRdBits_eq_readWord (h1 : 1 ≤ n) (h2 : n ≤ 32) : encRdBits n = readWord n := by
  interval_cases n <;> rfl

theorem matchRomWords_eq (p : Params) (a : Word64) : matchRomWords p.cmdMatch a = matchWords p a := by
  simp only [matchRomWords, matchWords, encWrBits_eight, encWrBits_sixteen]

/-- A byte read of 1 to 16 bytes has a first read command, of 1 to 32 bits. -/
theorem readSizes_eq_readTable (h1 : 1 ≤ n) (h2 : n ≤ 16) :
    readSizes n = readTable n ∧ ∃ k ks, readTable n = k :: ks ∧ 1 ≤ k ∧ k ≤ 32 := by
  interval_cases n <;> exact ⟨rfl, _, _, rfl, by decide, by decide⟩

/-! ### The operations that push as they start -/

/-- The one-word operations push the word `pushesOne` writes out. -/
theorem exec_pushesOne {i : Instr} (hi : pushesOne s.cfg b i w) (hl : s.lifecycle = .armed) :
    exec i s = .next (hostAccess b (.push w 0) [] (.reply 0#64) s) := by
  rcases hi with ⟨rfl, rfl⟩ | ⟨rfl, rfl⟩ | ⟨v, rfl, rfl⟩ | ⟨v, rfl, rfl⟩ | ⟨rfl, rfl⟩ | ⟨n, h1, h2, rfl, rfl⟩
  · exact needArmed_of_armed _ hl
  · exact needArmed_of_armed _ hl
  · rw [← encWrBits_eight]
    exact needArmed_of_armed _ hl
  · rw [← encWrBits_sixteen]
    exact needArmed_of_armed _ hl
  · rw [← encWrBits_eight]
    exact needArmed_of_armed _ hl
  · have hw : encRdBits n = 0x40000000#32 + BitVec.ofNat 32 (n - 1) := encRdBits_eq_readWord h1 h2
    simp only [exec, execLlReadBits, needArmed_of_armed _ hl, (bitCountOk_iff n).mpr ⟨h1, h2⟩, checkSize, if_true, pushOne, hw]

theorem exec_unitRead {i : Instr} (hi : (i = .llReadByte b ∧ n = 8) ∨ (i = .llReadWord b ∧ n = 16))
    (hl : s.lifecycle = .armed) :
    exec i s = .next (hostAccess b (.push (readWord n) 0) [.pop (.answer n) 1] (.reply 0#64) s) := by
  rcases hi with ⟨rfl, rfl⟩ | ⟨rfl, rfl⟩ <;> exact needArmed_of_armed _ hl

theorem matchRomAccesses_eq (p : Params) (a : Word64) :
    ∃ w, (matchWords p a).take 1 = [w] ∧
      matchRomAccesses p.cmdMatch a = .push w 0 :: (matchRomAccesses p.cmdMatch a).drop 1 := by
  refine ⟨0x300700#24 ++ p.cmdMatch, rfl, ?_⟩
  rw [matchRomAccesses, matchRomWords_eq]
  rfl

/-- A blocking byte read begins with the push of its first read command. -/
theorem readBytesAccesses_blocking (h1 : 1 ≤ n) (h2 : n ≤ 16) :
    ∃ w, ((readTable n).take 1).map readWord = [w] ∧
      readBytesAccesses true n = .push w 0 :: (readBytesAccesses true n).drop 1 := by
  obtain ⟨htable, k, ks, hk, hk1, hk2⟩ := readSizes_eq_readTable h1 h2
  refine ⟨readWord k, by rw [hk]; rfl, ?_⟩
  rw [readBytesAccesses, readBytesPushes, htable, hk, ← encRdBits_eq_readWord hk1 hk2]
  rfl

theorem exec_matchRom (a : Word64) (hl : s.lifecycle = .armed) :
    exec (.llMatchRom b a) s = .next (startOp b (matchRomAccesses s.cfg.cmdMatch a) (.reply 5#64) s) :=
  needArmed_of_armed _ hl

theorem exec_readBytes (h1 : 1 ≤ n) (h2 : n ≤ 16) (hl : s.lifecycle = .armed) :
    exec (.llReadBytes b n) s = .next (startOp b (readBytesAccesses b n) (.check n) s) := by
  simp only [exec, execLlReadBytes, needArmed_of_armed _ hl, (byteCountOk_iff n).mpr ⟨h1, h2⟩, checkSize, if_true]

/-- More is to come after the first push of a longer operation. -/
theorem matchRomAccesses_drop_one_ne_nil (v : Byte) (a : Word64) : (matchRomAccesses v a).drop 1 ≠ [] :=
  List.cons_ne_nil _ _

theorem readBytesAccesses_drop_one_ne_nil (h1 : 1 ≤ n) (h2 : n ≤ 16) : (readBytesAccesses true n).drop 1 ≠ [] := by
  interval_cases n <;> exact List.cons_ne_nil _ _

/-- A longer operation held before its first push: ready exactly when a slot is free, and then it goes on behind that push. -/
theorem heldPush_spec {todo : List Access} (htodo : todo = .push w 0 :: todo.drop 1) (hmore : todo.drop 1 ≠ [])
    (hop : s.hostOp = .running true todo fin) :
    (hostReady s = true ↔ s.txq.length < 4) ∧
      (s.txq.length < 4 →
        hostStep s = .next { s with txq := s.txq ++ [w], hostOp := .running true (todo.drop 1) fin }) := by
  rw [htodo] at hop
  refine ⟨hostReady_push_blocking hop, fun h => ?_⟩
  rw [hostStep_push_of_room hop h, proceed_of_ne_nil hmore]
  rfl

theorem startOp_of_full_blocking {todo : List Access} (htodo : todo = .push w 0 :: todo.drop 1) (h : s.txq.length = 4) :
    startOp true todo fin s = { s with hostOp := .running true todo fin } := by
  rw [htodo]
  exact hostAccess_push_of_full_blocking h

end Sys2Proof.Machine

namespace Sys2Proof.Claims

open Sys2Proof.Machine

/-- Settles O26: each of these operations starts with a push, and a non-blocking push at a full queue raises `QueueFull`. -/
theorem fullQueueRefusesNonBlocking : Obligations.FullQueueRefusesNonBlocking := by
  intro s i hl hfull hi
  have hpush : ∃ w rest fin, exec i s = .next (hostAccess false (.push w 0) rest fin s) := by
    rcases hi with ⟨w, hw⟩ | rfl | rfl | ⟨a, rfl⟩
    · exact ⟨w, _, _, exec_pushesOne hw hl⟩
    · exact ⟨_, _, _, exec_unitRead (.inl ⟨rfl, rfl⟩) hl⟩
    · exact ⟨_, _, _, exec_unitRead (.inr ⟨rfl, rfl⟩) hl⟩
    · obtain ⟨w, -, hw⟩ := matchRomAccesses_eq s.cfg a
      exact ⟨w, _, _, by rw [exec_matchRom a hl, hw]; rfl⟩
  obtain ⟨w, rest, fin, hexec⟩ := hpush
  rw [hexec, hostAccess_push_of_full_nonBlocking hfull]
  rfl

/-- Settles O27: each of these operations starts with a push, which holds at a full queue and is made at the first free slot. -/
theorem fullQueueHoldsBlocking : Obligations.FullQueueHoldsBlocking := by
  refine fun s hl hfull => ⟨fun i w hi => ?_, fun i n hi => ?_, fun a => ?_, fun count h1 h2 => ?_⟩
  · refine ⟨_, by rw [exec_pushesOne hi hl, hostAccess_push_of_full_blocking hfull], fun u hop => ?_⟩
    exact ⟨hostReady_push_blocking hop, hostStep_push_of_room hop⟩
  · refine ⟨_, by rw [exec_unitRead hi hl, hostAccess_push_of_full_blocking hfull], fun u hop => ?_⟩
    exact ⟨hostReady_push_blocking hop, hostStep_push_of_room hop⟩
  · obtain ⟨w, hw, htodo⟩ := matchRomAccesses_eq s.cfg a
    rw [exec_matchRom a hl, startOp_of_full_blocking htodo hfull, hw]
    exact ⟨rfl, fun u hop => heldPush_spec htodo (matchRomAccesses_drop_one_ne_nil _ a) hop⟩
  · obtain ⟨w, hw, htodo⟩ := readBytesAccesses_blocking h1 h2
    rw [exec_readBytes h1 h2 hl, startOp_of_full_blocking htodo hfull, hw]
    exact ⟨rfl, fun u hop => heldPush_spec htodo (readBytesAccesses_drop_one_ne_nil h1 h2) hop⟩

end Sys2Proof.Claims
end

section
/-! PROOF. The drain of a byte read (44_link_layer R235, R236): the host steps of its pops, and the bytes they put into `BUF`. -/

namespace Sys2Proof.Machine

open Claims

variable {s : State} {b : Bool}

/-! ### The pops of a drain -/

/-- `BUF` after results are stored in turn, each in its place: base, number of bytes, word. -/
def storeAll (ps : List ((Nat × Nat) × QWord)) (buf : Vector Byte 16) : Vector Byte 16 :=
  ps.foldl (fun buf p => storeBytes p.2 p.1.1 p.1.2 buf) buf

/-- The pop that stores a result in its place. -/
def storePop (p : (Nat × Nat) × QWord) : Access := .pop (.store p.1.1 p.1.2) 0

theorem hostStep_storePop {p : (Nat × Nat) × QWord} {todo : List Access} {fin : Finish} {r : List QWord}
    (hop : s.hostOp = .running b (storePop p :: todo) fin) (hrx : s.rxq = p.2 :: r) :
    hostStep s = .next (proceed b todo fin { s with rxq := r, buf := storeBytes p.2 p.1.1 p.1.2 s.buf }) := by
  rw [hostStep_running hop]
  simp only [storePop, hostAccess, hrx, usePopped, rxDequeue, List.tail_cons]

/-- With the results of its pops at the head of `RXQ` an operation takes just these, stores each and ends. -/
theorem runSteps_storePops (p : (Nat × Nat) × QWord) (ps : List ((Nat × Nat) × QWord)) (rest : List QWord) (fin : Finish)
    (s : State) (hop : s.hostOp = .running b ((p :: ps).map storePop) fin) (hrx : s.rxq = (p :: ps).map Prod.snd ++ rest) :
    runSteps hostStep (p :: ps).length s = .next (finishOp fin { s with rxq := rest, buf := storeAll (p :: ps) s.buf }) := by
  induction ps generalizing p s with
  | nil =>
    rw [List.length_singleton, runSteps, hostStep_storePop hop hrx]
    rfl
  | cons q qs ih =>
    rw [List.length_cons, runSteps, hostStep_storePop hop hrx]
    refine (ih q _ rfl rfl).trans ?_
    cases fin <;> rfl

/-! ### The bytes of a result -/

theorem bytesValue_lt (bytes : List Byte) : bytesValue bytes < 2 ^ (8 * bytes.length) := by
  induction bytes with
  | nil => decide
  | cons x xs ih =>
    have hx := x.isLt
    rw [bytesValue, List.length_cons, Nat.mul_succ, Nat.pow_add]
    omega

/-- Byte `k` of the value is the `k`-th of the bytes. -/
theorem bytesValue_digit (bytes : List Byte) (k : Nat) (hk : k < bytes.length) :
    bytesValue bytes / 256 ^ k % 256 = bytes[k].toNat := by
  induction bytes generalizing k with
  | nil => cases hk
  | cons x xs ih =>
    have hx := x.isLt
    cases k with
    | zero => simp only [bytesValue, List.getElem_cons_zero]; omega
    | succ k =>
      have hdiv : bytesValue (x :: xs) / 256 = bytesValue xs := by rw [bytesValue]; omega
      rw [Nat.pow_succ', ← Nat.div_div_eq_div_mul, hdiv, List.getElem_cons_succ]
      exact ih k (Nat.lt_of_succ_lt_succ hk)

/-- The extraction moves the bytes of a slot down over zeros (44_link_layer R231). -/
theorem extract_slotOf (bytes : List Byte) (h : bytes.length ≤ 4) :
    extract (slotOf bytes) (8 * bytes.length) = BitVec.ofNat 32 (bytesValue bytes) := by
  have hlt := bytesValue_lt bytes
  have hsplit : 2 ^ 32 = 2 ^ (8 * bytes.length) * 2 ^ (32 - 8 * bytes.length) := by rw [← Nat.pow_add]; congr 1; omega
  have hpos : 0 < 2 ^ (32 - 8 * bytes.length) := Nat.two_pow_pos _
  have hfit : bytesValue bytes * 2 ^ (32 - 8 * bytes.length) < 2 ^ 32 := hsplit ▸ Nat.mul_lt_mul_of_pos_right hlt hpos
  have hle : bytesValue bytes < 2 ^ 32 := (Nat.le_mul_of_pos_right _ hpos).trans_lt hfit
  apply BitVec.eq_of_toNat_eq
  rw [extract, slotOf, BitVec.toNat_ushiftRight, BitVec.toNat_shiftLeft, BitVec.toNat_ofNat, Nat.mod_eq_of_lt hle,
    Nat.shiftLeft_eq, Nat.mod_eq_of_lt hfit, Nat.shiftRight_eq_div_pow, Nat.mul_div_cancel _ hpos]

theorem byteOf_extract_slotOf (bytes : List Byte) (h : bytes.length ≤ 4) (k : Nat) (hk : k < bytes.length) :
    byteOf (extract (slotOf bytes) (8 * bytes.length)) k = bytes[k] := by
  have hlt := bytesValue_lt bytes
  have hle : bytesValue bytes < 2 ^ 32 := hlt.trans_le (Nat.pow_le_pow_right (by omega) (by omega))
  apply BitVec.eq_of_toNat_eq
  rw [extract_slotOf bytes h, byteOf, BitVec.extractLsb'_toNat, BitVec.toNat_ofNat, Nat.mod_eq_of_lt hle,
    Nat.shiftRight_eq_div_pow, Nat.pow_mul]
  exact bytesValue_digit bytes k hk

/-! ### The store of a result -/

theorem storeFrom_getElem (v : QWord) (base k n : Nat) (buf : Vector Byte 16) (j : Nat) (hj : j < 16) :
    (storeFrom v base k n buf)[j] = if base + k ≤ j ∧ j < base + k + n then byteOf v (j - base) else buf[j] := by
  induction n generalizing k buf with
  | zero => rw [storeFrom, if_neg (by omega)]
  | succ n ih =>
    rw [storeFrom, ih, Vector.getElem_setIfInBounds hj]
    by_cases h : base + k = j
    · rw [if_neg (by omega), if_pos h, if_pos (by omega), ← h, Nat.add_sub_cancel_left]
    · rw [if_neg h]
      exact if_congr (by omega) rfl rfl

theorem storeBytes_getElem (w : QWord) (base n : Nat) (buf : Vector Byte 16) (j : Nat) (hj : j < 16) :
    (storeBytes w base n buf)[j] = if base ≤ j ∧ j < base + n then byteOf (extract w (8 * n)) (j - base) else buf[j] :=
  storeFrom_getElem (extract w (8 * n)) base 0 n buf j hj

/-- A slot stored puts its bytes at `base`, and keeps the others. -/
theorem storeBytes_slotOf_toList (bytes : List Byte) (h : bytes.length ≤ 4) (base : Nat) (hb : base + bytes.length ≤ 16)
    (buf : Vector Byte 16) :
    (storeBytes (slotOf bytes) base bytes.length buf).toList =
      buf.toList.take base ++ bytes ++ buf.toList.drop (base + bytes.length) := by
  apply List.ext_getElem
  · simp; omega
  · intro j hj hj'
    rw [Vector.length_toList] at hj
    rw [Vector.getElem_toList, storeBytes_getElem _ _ _ _ _ hj]
    by_cases hlow : j < base
    · rw [if_neg (by omega), List.getElem_append_left (by simp; omega), List.getElem_append_left (by simp; omega)]
      simp
    · by_cases hin : j < base + bytes.length
      · rw [if_pos (by omega), byteOf_extract_slotOf bytes h _ (by omega), List.getElem_append_left (by simp; omega),
          List.getElem_append_right (by simp; omega)]
        congr 1
        simp
        omega
      · rw [if_neg (by omega), List.getElem_append_right (by simp; omega)]
        simp
        congr 1
        omega

/-! ### The results of a byte read -/

/-- The four bytes, or the last one to three, of result `j`. -/
def chunk (data : List Byte) (j : Nat) : List Byte := (data.drop (4 * j)).take 4

/-- Result `j` of a byte read of `data` with the place of its bytes. -/
def placed (data : List Byte) (j : Nat) : (Nat × Nat) × QWord := ((4 * j, (chunk data j).length), slotOf (chunk data j))

theorem chunk_length (data : List Byte) (j : Nat) : (chunk data j).length = min 4 (data.length - 4 * j) := by simp [chunk]

/-- The places of R235 are four bytes each and the rest. -/
theorem readStores_eq (n : Nat) (h1 : 1 ≤ n) (h2 : n ≤ 16) :
    readStores n = (List.range ((n + 3) / 4)).map (fun j => (4 * j, min 4 (n - 4 * j))) := by
  interval_cases n <;> rfl

theorem readBytesPops_eq (data : List Byte) (h1 : 1 ≤ data.length) (h2 : data.length ≤ 16) :
    readBytesPops data.length = ((List.range ((data.length + 3) / 4)).map (placed data)).map storePop := by
  simp only [readBytesPops, readStores_eq _ h1 h2, List.map_map, Function.comp_def, placed, storePop, chunk_length]

theorem slotsOf_eq (data : List Byte) :
    slotsOf data = ((List.range ((data.length + 3) / 4)).map (placed data)).map Prod.snd := by
  simp only [List.map_map]
  rfl

/-- The first `k` results stored put the first `4 * k` bytes of the data in place. -/
theorem storeAll_toList (data : List Byte) (h : data.length ≤ 16) (k : Nat) (hk : k ≤ (data.length + 3) / 4)
    (buf : Vector Byte 16) :
    (storeAll ((List.range k).map (placed data)) buf).toList =
      data.take (4 * k) ++ buf.toList.drop (min (4 * k) data.length) := by
  induction k with
  | zero => simp [storeAll]
  | succ k ih =>
    have hlen := chunk_length data k
    have hstep : storeAll ((List.range (k + 1)).map (placed data)) buf =
        storeBytes (slotOf (chunk data k)) (4 * k) (chunk data k).length (storeAll ((List.range k).map (placed data)) buf) := by
      simp [storeAll, List.range_succ, placed]
    have htake : data.take (4 * (k + 1)) = data.take (4 * k) ++ chunk data k := by
      rw [chunk, ← List.take_add]
      rfl
    have hlow : (data.take (4 * k)).length = 4 * k := by simp; omega
    have hplace : min (4 * k) data.length + (chunk data k).length = min (4 * (k + 1)) data.length := by omega
    rw [hstep, storeBytes_slotOf_toList _ (by omega) _ (by omega), ih (by omega), htake, List.take_left' hlow, List.drop_append,
      hlow, List.drop_of_length_le (by omega), List.nil_append, Nat.add_sub_cancel_left, List.drop_drop, hplace]

theorem answered_checkBuf {data : List Byte} (hbuf : bufBytes s.buf data.length = data) :
    checkBuf data.length s =
      answered (if crc8 data = 0x00#8 then 0#4 else 4#4) ((crc8 data).setWidth 64) { s with crc := crc8 data } := by
  simp only [checkBuf, hbuf, respond, answered]
  split <;> rfl

end Sys2Proof.Machine

namespace Sys2Proof.Claims

open Sys2Proof.Machine

/-- Settles O33: the drain pops the results one by one, and each store puts four bytes of the data, or the rest, in place. -/
theorem readBytesReassembles : Obligations.ReadBytesReassembles := by
  intro s b data rest h1 h2 hop hrx
  obtain ⟨p, ps, hps⟩ : ∃ p ps, (List.range ((data.length + 3) / 4)).map (placed data) = p :: ps :=
    List.exists_cons_of_ne_nil (by simp; omega)
  have hbuf : (storeAll (p :: ps) s.buf).toList = data ++ s.buf.toList.drop data.length := by
    rw [← hps, storeAll_toList data h2 _ le_rfl, List.take_of_length_le (by omega), Nat.min_eq_right (by omega)]
  rw [readBytesPops_eq data h1 h2, hps] at hop
  rw [slotsOf_eq, hps] at hrx ⊢
  refine ⟨storeAll (p :: ps) s.buf, hbuf, ?_⟩
  rw [List.length_map, runSteps_storePops p ps rest _ s hop hrx, finishOp, answered_checkBuf]
  rw [bufBytes, hbuf, List.take_left]

end Sys2Proof.Claims
end

section
/-! PROOF. The reference bus (20_memory R80): at a fork of the devices it answers (0, 0), elsewhere it answers the bit of the device walked
to; a pass that picks the bits of a device at its forks finds it, and the advance aims at the next (42_search_engine R171, R175). -/

namespace Sys2Proof.Machine

open Claims

/-! ### Order and forks -/

/-- The addresses agree in the bits below `i`. -/
def AgreeBelow (i : Nat) (a b : Word64) : Prop := ∀ j < i, a.getLsbD j = b.getLsbD j

/-- Position `i` on the way to device `a`: a device still active there has the other bit (20_memory R80). -/
def Forks (devices : List Word64) (a : Word64) (i : Nat) : Prop :=
  ∃ x ∈ devices, AgreeBelow i x a ∧ x.getLsbD i ≠ a.getLsbD i

variable {devices : List Word64} {a b d e x : Word64} {i j : Nat}

theorem foundBefore_asymm (hab : foundBefore a b) : ¬ foundBefore b a := by
  rintro ⟨j, -, hba, hbj, haj⟩
  obtain ⟨i, -, hab, hai, hbi⟩ := hab
  rcases lt_trichotomy i j with hij | rfl | hji
  · simp [hba i hij, hai] at hbi
  · simp [hai] at haj
  · simp [hab j hji, hbj] at haj

/-- A device that forks off where `a` has 0 is found after it. -/
theorem Forks.after (hf : Forks devices a i) (hi : i < 64) (ha : a.getLsbD i = false) :
    ∃ x ∈ devices, AgreeBelow i x a ∧ foundBefore a x := by
  obtain ⟨x, hx, hagree, hne⟩ := hf
  exact ⟨x, hx, hagree, i, hi, fun j hj => (hagree j hj).symm, ha, by simpa [ha] using hne⟩

/-- A device that forks off where `a` has 1 is found before it. -/
theorem Forks.before (hf : Forks devices a i) (hi : i < 64) (ha : a.getLsbD i = true) :
    ∃ x ∈ devices, AgreeBelow i x a ∧ foundBefore x a := by
  obtain ⟨x, hx, hagree, hne⟩ := hf
  exact ⟨x, hx, hagree, i, hi, hagree, by simpa [ha] using hne, ha⟩

/-- The devices fork alike on the way to addresses that agree so far and in this bit. -/
theorem Forks.congr (hf : Forks devices a i) (hab : AgreeBelow (i + 1) a b) : Forks devices b i := by
  obtain ⟨x, hx, hagree, hne⟩ := hf
  exact ⟨x, hx, fun j hj => (hagree j hj).trans (hab j (by omega)), hab i (by omega) ▸ hne⟩

/-- A device found after `d` stands behind it in the order. -/
theorem mem_of_foundBefore {found left : List Word64} (hp : devices.Pairwise foundBefore) (hs : devices = found ++ d :: left)
    (hx : x ∈ devices) (hdx : foundBefore d x) : x ∈ left := by
  rw [hs, List.pairwise_append] at hp
  obtain ⟨-, -, hfound⟩ := hp
  rw [hs] at hx
  rcases List.mem_append.mp hx with hx | hx
  · exact absurd hdx (foundBefore_asymm (hfound x hx d List.mem_cons_self))
  · rcases List.mem_cons.mp hx with rfl | hx
    · exact absurd hdx (foundBefore_asymm hdx)
    · exact hx

/-- `e` is the device next after `d` in the order of R175, and `i` is the lowest bit where they differ. -/
structure NextAt (devices : List Word64) (d e : Word64) (i : Nat) : Prop where
  mem : e ∈ devices
  lt : i < 64
  agree : AgreeBelow i d e
  zero : d.getLsbD i = false
  one : e.getLsbD i = true
  noneBetween : ∀ x ∈ devices, foundBefore d x → ¬ foundBefore x e

theorem nextAt_of_split {found left : List Word64} (hp : devices.Pairwise foundBefore)
    (hs : devices = found ++ d :: e :: left) : ∃ i, NextAt devices d e i := by
  obtain ⟨-, hright, -⟩ := List.pairwise_append.mp (hs ▸ hp)
  obtain ⟨hd, hright⟩ := List.pairwise_cons.mp hright
  obtain ⟨he, -⟩ := List.pairwise_cons.mp hright
  obtain ⟨i, hi, hagree, hdi, hei⟩ := hd e List.mem_cons_self
  refine ⟨i, by simp [hs], hi, hagree, hdi, hei, fun x hx hdx hxe => ?_⟩
  rcases List.mem_cons.mp (mem_of_foundBefore hp hs hx hdx) with rfl | hx
  · exact foundBefore_asymm hxe hxe
  · exact foundBefore_asymm hxe (he x hx)

theorem NextAt.forks (h : NextAt devices d e i) : Forks devices d i :=
  ⟨e, h.mem, fun j hj => (h.agree j hj).symm, by simp [h.zero, h.one]⟩

/-- Above `i` every fork of `d` is exhausted: a device that forks off `d` there is found before `e`, so before `d`. -/
theorem NextAt.one_above (h : NextAt devices d e i) (hij : i < j) (hj : j < 64) (hf : Forks devices d j) :
    d.getLsbD j = true := by
  by_contra hdj
  obtain ⟨x, hx, hxd, hdx⟩ := hf.after hj (by simpa using hdj)
  exact h.noneBetween x hx hdx
    ⟨i, h.lt, fun k hk => (hxd k (hk.trans hij)).trans (h.agree k hk), (hxd i hij).trans h.zero, h.one⟩

/-- Above `i` every fork of `e` is fresh: a device that forks off `e` there is found after `d`, so after `e`. -/
theorem NextAt.zero_above (h : NextAt devices d e i) (hij : i < j) (hj : j < 64) (hf : Forks devices e j) :
    e.getLsbD j = false := by
  by_contra hej
  obtain ⟨x, hx, hxe, hbefore⟩ := hf.before hj (by simpa using hej)
  exact h.noneBetween x hx
    ⟨i, h.lt, fun k hk => (h.agree k hk).trans (hxe k (hk.trans hij)).symm, h.zero, (hxe i hij).trans h.one⟩ hbefore

/-! ### The answers of the bus -/

theorem mem_activeAt : x ∈ activeAt devices a i ↔ x ∈ devices ∧ AgreeBelow i x a := by
  simp [activeAt, AgreeBelow]

theorem probeLevels_of_forks (ha : a ∈ devices) (hf : Forks devices a i) : probeLevels devices a i = [false, false] := by
  obtain ⟨x, hx, hagree, hne⟩ := hf
  have hxm : x ∈ activeAt devices a i := mem_activeAt.mpr ⟨hx, hagree⟩
  have ham : a ∈ activeAt devices a i := mem_activeAt.mpr ⟨ha, fun _ _ => rfl⟩
  have hzero : ∀ y ∈ activeAt devices a i, y.getLsbD i = false → (activeAt devices a i).all (fun d => d.getLsbD i) = false :=
    fun y hy h => List.all_eq_false.mpr ⟨y, hy, by simp [h]⟩
  have hone : ∀ y ∈ activeAt devices a i, y.getLsbD i = true → (activeAt devices a i).all (fun d => !d.getLsbD i) = false :=
    fun y hy h => List.all_eq_false.mpr ⟨y, hy, by simp [h]⟩
  unfold probeLevels
  cases hai : a.getLsbD i with
  | true => rw [hzero x hxm (by simpa [hai] using hne), hone a ham hai]
  | false => rw [hzero a ham hai, hone x hxm (by simpa [hai] using hne)]

theorem probeLevels_of_not_forks (ha : a ∈ devices) (hf : ¬ Forks devices a i) :
    probeLevels devices a i = [a.getLsbD i, !a.getLsbD i] := by
  have hsame : ∀ x ∈ activeAt devices a i, x.getLsbD i = a.getLsbD i := fun x hx => by
    obtain ⟨hx, hagree⟩ := mem_activeAt.mp hx
    exact not_not.mp fun hne => hf ⟨x, hx, hagree, hne⟩
  have hne : activeAt devices a i ≠ [] := List.ne_nil_of_mem (mem_activeAt.mpr ⟨ha, fun _ _ => rfl⟩)
  have hall : ∀ f : Bool → Bool, (activeAt devices a i).all (fun d => f (d.getLsbD i)) = f (a.getLsbD i) := fun f => by
    rw [Bool.eq_iff_iff, List.all_eq_true]
    constructor
    · intro h
      obtain ⟨x, hx⟩ := List.exists_mem_of_ne_nil _ hne
      exact hsame x hx ▸ h x hx
    · exact fun h x hx => (hsame x hx).symm ▸ h
  exact congrArg₂ (fun v c => [v, c]) (hall id) (hall not)

/-! ### A walk on the reference bus -/

/-- The masks pick the bit of `d` at its fork `i` (42_search_engine R166). -/
def PicksAt (devices : List Word64) (d : Word64) (i : Nat) (s : State) : Prop :=
  Forks devices d i → (s.discrepancy.getLsbD i && s.current.getLsbD i) = d.getLsbD i

/-- Position `i` of `current` and `discrepancy` after a walk to `d`: the bit of `d`, and a mark exactly at a fork. -/
def WalkedAt (devices : List Word64) (d : Word64) (i : Nat) (s : State) : Prop :=
  s.current.getLsbD i = d.getLsbD i ∧ (s.discrepancy.getLsbD i = true ↔ Forks devices d i)

/-- Position `i` of the masks is as it was. -/
def SameAt (i : Nat) (s t : State) : Prop :=
  t.current.getLsbD i = s.current.getLsbD i ∧ t.discrepancy.getLsbD i = s.discrepancy.getLsbD i

variable {s t : State} {rest : List Bool}

/-- The two read slots of a position sample the two levels that wait, and leave the masks alone. -/
theorem readSlots_of_samples {v c : Bool} (h : s.samples = v :: c :: rest) :
    (readSlot s).1 = v ∧ (readSlot (readSlot s).2).1 = c ∧
      (readSlot (readSlot s).2).2 =
        { s with
          lineOe := false
          samples := rest
          lineLog := (readSlot (readSlot s).2).2.lineLog } := by
  have hfst : (readSlot s).2.samples = c :: rest := by rw [readSlot_eq]; simp [h]
  refine ⟨readLevel_of_samples h, readLevel_of_samples hfst, ?_⟩
  rw [readSlot_eq (readSlot s).2, hfst]
  rfl

/-- A settled position holds the bit chosen, with a mark exactly when the pair was equal; the others are as they were. -/
theorem settleBit_spec (v c : Bool) (s : State) (hi : s.bitIdx.toNat < 64) (hvc : (v && c) = false) :
    (settleBit v c s).samples = s.samples ∧
    (settleBit v c s).current.getLsbD s.bitIdx.toNat =
      (if v ≠ c then v else (s.discrepancy.getLsbD s.bitIdx.toNat && s.current.getLsbD s.bitIdx.toNat)) ∧
    (settleBit v c s).discrepancy.getLsbD s.bitIdx.toNat = decide (v = c) ∧
    ∀ j, j ≠ s.bitIdx.toNat → SameAt j s (settleBit v c s) := by
  obtain ⟨hbit, hcur, hdisc, hframe⟩ := resolveBit_spec s.bitIdx.toNat v c s hi hvc
  have hsamples : (resolveBit s.bitIdx.toNat v c s).2.samples = s.samples := by rw [hframe]
  rw [settleBit_eq]
  refine ⟨hsamples, ?_, ?_, fun j hj => ⟨?_, ?_⟩⟩
  · rw [hcur, if_pos rfl, hbit]
  · rw [hdisc, if_pos rfl]
  · rw [hcur, if_neg hj]
  · rw [hdisc, if_neg hj]

/-- One position on the way to `d`: it is walked, the others are as they were, and the walk goes on. -/
theorem walkBits_succ_of_levels (n : Nat) (hd : d ∈ devices) (hi : s.bitIdx.toNat < 64)
    (hs : s.samples = probeLevels devices d s.bitIdx.toNat ++ rest) (hpick : PicksAt devices d s.bitIdx.toNat s) :
    ∃ t, walkBits (n + 1) s = walkBits n t ∧ t.bitIdx = s.bitIdx + 1#7 ∧ t.samples = rest ∧
      WalkedAt devices d s.bitIdx.toNat t ∧ ∀ j, j ≠ s.bitIdx.toNat → SameAt j s t := by
  obtain ⟨v, c, hvc, hlevels, hbit, hmark⟩ : ∃ v c, (v && c) = false ∧ s.samples = v :: c :: rest ∧
      (if v ≠ c then v else (s.discrepancy.getLsbD s.bitIdx.toNat && s.current.getLsbD s.bitIdx.toNat)) =
        d.getLsbD s.bitIdx.toNat ∧ (v = c ↔ Forks devices d s.bitIdx.toNat) := by
    by_cases hf : Forks devices d s.bitIdx.toNat
    · rw [probeLevels_of_forks hd hf] at hs
      exact ⟨false, false, rfl, hs, hpick hf, by simp [hf]⟩
    · rw [probeLevels_of_not_forks hd hf] at hs
      exact ⟨_, _, by simp, hs, by simp, by simp [hf]⟩
  obtain ⟨hv, hc, hread⟩ := readSlots_of_samples hlevels
  rw [walkBits_succ, hv, hc, hvc, hread]
  obtain ⟨hsamples, hcur, hdisc, hsame⟩ := settleBit_spec v c
    { s with lineOe := false, samples := rest, lineLog := (readSlot (readSlot s).2).2.lineLog } hi hvc
  exact ⟨_, rfl, rfl, hsamples, ⟨hcur.trans hbit, by rw [hdisc, decide_eq_true_iff]; exact hmark⟩, hsame⟩

/-- A walk over the last `n` positions on the way to `d` is complete, and has walked these. -/
theorem walkBits_of_levels (n : Nat) (s : State) (hd : d ∈ devices) (hn : s.bitIdx.toNat + n = 64)
    (hs : s.samples = (List.range' s.bitIdx.toNat n).flatMap (probeLevels devices d) ++ rest)
    (hpick : ∀ i, s.bitIdx.toNat ≤ i → i < 64 → PicksAt devices d i s) :
    (walkBits n s).1 = true ∧ (walkBits n s).2.samples = rest ∧
      (∀ i, s.bitIdx.toNat ≤ i → i < 64 → WalkedAt devices d i (walkBits n s).2) ∧
      ∀ i, i < s.bitIdx.toNat → SameAt i s (walkBits n s).2 := by
  induction n generalizing s with
  | zero => exact ⟨rfl, hs, fun i h1 h2 => by omega, fun i _ => ⟨rfl, rfl⟩⟩
  | succ n ih =>
    rw [List.range'_succ, List.flatMap_cons, List.append_assoc] at hs
    obtain ⟨t, ht, hidx, hsamples, hwalked, hsame⟩ :=
      walkBits_succ_of_levels n hd (by omega) hs (hpick _ le_rfl (by omega))
    have hnext : t.bitIdx.toNat = s.bitIdx.toNat + 1 := by
      rw [hidx, BitVec.toNat_add, BitVec.toNat_ofNat]
      omega
    have hpick' : ∀ i, t.bitIdx.toNat ≤ i → i < 64 → PicksAt devices d i t := fun i h1 h2 hf => by
      obtain ⟨hcur, hdisc⟩ := hsame i (by omega)
      rw [hcur, hdisc]
      exact hpick i (by omega) h2 hf
    obtain ⟨hdone, hrest, hall, hbelow⟩ := ih t (by omega) (by rw [hsamples, hnext]) hpick'
    rw [ht]
    refine ⟨hdone, hrest, fun i h1 h2 => ?_, fun i h => ?_⟩
    · by_cases hi : i = s.bitIdx.toNat
      · obtain ⟨hcur, hdisc⟩ := hbelow i (by omega)
        rw [WalkedAt, hcur, hdisc, hi]
        exact hwalked
      · exact hall i (by omega) h2
    · obtain ⟨hcur, hdisc⟩ := hbelow i (by omega)
      obtain ⟨hcur', hdisc'⟩ := hsame i (by omega)
      exact ⟨hcur.trans hcur', hdisc.trans hdisc'⟩

/-- The masks pick the bits of `d` at all its forks. -/
def Aims (devices : List Word64) (d : Word64) (s : State) : Prop := ∀ i < 64, PicksAt devices d i s

/-- A walk to `d` has left its address, and marks exactly its forks. -/
structure Reached (devices : List Word64) (d : Word64) (t : State) : Prop where
  current : t.current = d
  marks : ∀ i < 64, t.discrepancy.getLsbD i = true ↔ Forks devices d i

/-- A pass aimed at `d` sees presence and walks to `d`. -/
theorem passWalk_of_levels (hd : d ∈ devices) (hs : s.samples = passLevels devices d ++ rest) (haims : Aims devices d s) :
    (busReset s).1 = true ∧ (passWalk s).1 = true ∧ (passWalk s).2.samples = rest ∧ Reached devices d (passWalk s).2 := by
  have hreset := busReset_of_low hs
  have hstart : passStart s = { s with
      lineOe := false
      bitIdx := 0#7
      samples := (List.range 64).flatMap (probeLevels devices d) ++ rest
      lineLog := (passStart s).lineLog } := by
    rw [passStart, searchCommand, writeByte_eq, hreset]
    rfl
  have hidx : (passStart s).bitIdx.toNat = 0 := rfl
  obtain ⟨hdone, hrest, hwalked, -⟩ := walkBits_of_levels 64 (passStart s) hd (by rw [hidx])
    (by rw [hidx, ← List.range_eq_range', hstart]) (fun i _ hi => by rw [hstart]; exact haims i hi)
  refine ⟨by rw [hreset], hdone, hrest, ?_, fun i hi => (hwalked i (Nat.zero_le i) hi).2⟩
  exact BitVec.eq_of_getLsbD_eq fun i hi => (hwalked i (Nat.zero_le i) hi).1

/-! ### The advance to the next device -/

/-- With no device after `d` no fork is pending, and the run has no branch left. -/
theorem searchAdvance_of_last (ht : Reached devices d t) (hlast : ∀ x ∈ devices, ¬ foundBefore d x) :
    (searchAdvance t).lastBranchTaken = 64#7 := by
  have hnone : ∀ j, j < 64 → t.discrepancy.getLsbD j = true → t.current.getLsbD j = true := fun j hj hmark => by
    rw [ht.current]
    by_contra hdj
    obtain ⟨x, hx, -, hafter⟩ := ((ht.marks j hj).mp hmark).after hj (by simpa using hdj)
    exact hlast x hx hafter
  obtain ⟨disc, hscan, -⟩ := advanceScan_none 64 le_rfl t.current t.discrepancy hnone
  rw [searchAdvance, Config.addrBits, hscan]

/-- With `e` next after `d`, the bit where they differ is the highest pending fork, and the advance aims at `e`. -/
theorem searchAdvance_of_next (ht : Reached devices d t) (h : NextAt devices d e i) :
    (searchAdvance t).lastBranchTaken ≠ 64#7 ∧ Aims devices e (searchAdvance t) := by
  have hi := h.lt
  obtain ⟨disc, hscan, hdisc⟩ := advanceScan_some 64 i le_rfl t.current t.discrepancy hi ((ht.marks i hi).mpr h.forks)
    (by rw [ht.current, h.zero]) fun j hij hj hmark => by rw [ht.current]; exact h.one_above hij hj ((ht.marks j hj).mp hmark)
  rw [searchAdvance, Config.addrBits, hscan]
  refine ⟨fun hbranch => ?_, fun j hj hf => ?_⟩
  · have := congrArg BitVec.toNat hbranch
    simp at this
    omega
  · show (disc.getLsbD j && (setBit t.current i true).getLsbD j) = _
    rw [hdisc, setBit_getLsbD _ _ _ _ hi, ht.current]
    rcases lt_trichotomy j i with hji | rfl | hij
    · have hfork : Forks devices d j := hf.congr fun k hk => (h.agree k (by omega)).symm
      rw [(ht.marks j hj).mpr hfork, h.agree j hji]
      simp [hji.not_gt, hji.ne]
    · simp [(ht.marks j hj).mpr h.forks, h.one]
    · rw [h.zero_above hij hj hf]
      simp [hij, hj]

/-! ### A run on the reference bus -/

/-- `found` are what `RES` holds below `count`, and the line will answer `ahead`. -/
structure Holds (found : List Word64) (ahead : List Bool) (s : State) : Prop where
  count : s.count = found.length
  kept : s.res.take found.length = found
  samples : s.samples = ahead

/-- A run between two passes: `found` are appended, `d` and then `left` are still to be found, `room` of them fit, and the line will answer
for these and for one more, then `rest`. -/
structure Searching (devices found : List Word64) (d : Word64) (left : List Word64) (room : Nat) (rest : List Bool) (s : State) :
    Prop extends Holds found (((d :: left).take (room + 1)).flatMap (passLevels devices) ++ rest) s where
  split : devices = found ++ d :: left
  space : found.length + room ≤ s.res.length
  aims : Aims devices d s

/-- What a run leaves that found `found` of the devices and then, if `all` are found, had no branch left, else no room. -/
structure Ended (found : List Word64) (all : Prop) [Decidable all] (rest : List Bool) (t : State) : Prop extends
    Holds found rest t where
  status : t.rspStatus = if all then 0#4 else 6#4

variable {found left : List Word64} {room : Nat}

theorem ended_searchExit {all : Prop} [Decidable all] {st : Status} (h : Holds found rest s)
    (hst : st.code = if all then 0#4 else 6#4) : Ended found all rest (searchExit st s) :=
  ⟨⟨h.count, h.kept, h.samples⟩, hst⟩

/-- The pass of a run that finds `d`. -/
theorem Searching.pass (h : Searching devices found d left room rest s) :
    (busReset s).1 = true ∧ (passWalk s).1 = true ∧
      (passWalk s).2.samples = (left.take room).flatMap (passLevels devices) ++ rest ∧ Reached devices d (passWalk s).2 := by
  refine passWalk_of_levels (h.split ▸ List.mem_append_right found List.mem_cons_self) ?_ h.aims
  rw [h.samples, List.take_succ_cons, List.flatMap_cons, List.append_assoc]

/-- The pass with no room left appends nothing. -/
theorem Searching.holds_passWalk (h : Searching devices found d left 0 rest s) : Holds found rest (passWalk s).2 := by
  obtain ⟨-, -, hsamples, -⟩ := h.pass
  obtain ⟨hframe, -⟩ := passWalk_spec s
  exact ⟨hframe.count_eq.trans h.count, by rw [hframe.res_eq, h.kept], hsamples⟩

/-- With room left `d` is appended behind `found`. -/
theorem Searching.holds_append (h : Searching devices found d left (room + 1) rest s) :
    Holds (found ++ [d]) ((left.take (room + 1)).flatMap (passLevels devices) ++ rest)
      (searchAdvance (appendFound (passWalk s).2)) := by
  obtain ⟨-, -, hsamples, hreached⟩ := h.pass
  obtain ⟨-, -, hcount, hres, -⟩ := searchFound_spec s
  have hspace := h.space
  refine ⟨by rw [hcount, h.count]; simp, ?_, hsamples⟩
  rw [hres, hreached.current, h.count, List.length_append, List.length_singleton, List.take_add_one, List.take_set_of_le le_rfl,
    h.kept, List.getElem?_set_self (by omega)]
  rfl

/-- A run finds what is left of the devices, in order, as far as there is room. -/
theorem searchPasses_of_searching (hp : devices.Pairwise foundBefore) (room : Nat) (s : State)
    (h : Searching devices found d left room rest s) :
    Ended (found ++ (d :: left).take room) ((d :: left).length ≤ room) rest (searchPasses room s) := by
  induction room generalizing found d left s with
  | zero =>
    obtain ⟨hpresent, hwalk, -, -⟩ := h.pass
    rw [searchPasses_eq, hpresent, hwalk, List.take_zero, List.append_nil]
    exact ended_searchExit h.holds_passWalk rfl
  | succ room ih =>
    obtain ⟨hpresent, hwalk, -, hreached⟩ := h.pass
    have hreached' : Reached devices d (appendFound (passWalk s).2) := ⟨hreached.current, hreached.marks⟩
    have hholds := h.holds_append
    rw [searchPasses_eq, hpresent, hwalk]
    simp only [if_true]
    cases left with
    | nil =>
      have hlast := searchAdvance_of_last hreached' fun x hx hdx => List.not_mem_nil (mem_of_foundBefore hp h.split hx hdx)
      rw [if_pos hlast, List.take_of_length_le (by simp)]
      exact ended_searchExit hholds (by simp; rfl)
    | cons e left =>
      obtain ⟨i, hnext⟩ := nextAt_of_split hp h.split
      obtain ⟨hbranch, haims⟩ := searchAdvance_of_next hreached' hnext
      obtain ⟨-, -, -, hres, -⟩ := searchFound_spec s
      have hspace := h.space
      have hsearching : Searching devices (found ++ [d]) e left room rest (searchAdvance (appendFound (passWalk s).2)) :=
        { hholds with split := by simp [h.split], space := by rw [hres]; simp; omega, aims := haims }
      rw [if_neg hbranch]
      simpa using ih _ hsearching

/-- The set-up masks are 0, and so aim at the first device. -/
theorem aims_searchStart (m : Nat) (s : State) (hfirst : ∀ x ∈ devices, ¬ foundBefore x d) :
    Aims devices d (searchStart m s) := by
  intro i hi hf
  have hd : d.getLsbD i = false := by
    by_contra hdi
    obtain ⟨x, hx, -, hbefore⟩ := hf.before hi (by simpa using hdi)
    exact hfirst x hx hbefore
  rw [hd]
  simp [searchStart]

/-- Polls that sample high until none is left find no presence. -/
theorem pollPresence_of_high (left k : Nat) (s : State) (hs : s.samples = List.replicate left true ++ rest) :
    (pollPresence left k s).1 = false ∧ (pollPresence left k s).2.2.samples = rest := by
  induction left generalizing k s with
  | zero => exact ⟨rfl, hs⟩
  | succ left ih =>
    have hlevel : nextLevel (delay s.cfg.tPresPoll s) = true := by simp [nextLevel, hs, List.replicate_succ]
    have hpoll : pollPresence (left + 1) k s = pollPresence left (k + 1) (afterSample (delay s.cfg.tPresPoll s)) := by
      simp only [pollPresence, lineSample, hlevel, if_true]
    rw [hpoll]
    exact ih (k + 1) _ (by simp [hs, List.replicate_succ])

/-- With no device on the bus no poll samples low, and the run ends empty. -/
theorem searchPasses_of_no_presence (room : Nat) (hs : s.samples = List.replicate 8 true ++ rest) :
    Ended [] True rest (searchPasses room s) := by
  obtain ⟨hpresence, hsamples⟩ := pollPresence_of_high 8 0 (lineRelease (delay s.cfg.tRstl (lineLow s))) hs
  have habsent : (busReset s).1 = false := hpresence
  rw [searchPasses_eq, habsent]
  exact ended_searchExit ⟨rfl, rfl, hsamples⟩ rfl

end Sys2Proof.Machine

namespace Sys2Proof.Claims

open Sys2Proof.Machine

/-- Settles O22: with no device there is no presence; else the first pass is aimed at the first device, and each advance at the next. -/
theorem referenceBusDiscovery : Obligations.ReferenceBusDiscovery := by
  intro m s devices rest hl hm hres hp hs
  have hexec : exec (.discover m) s = .next (searchPasses m (searchStart m s)) := by
    simp only [exec, execDiscover, needUnarmed_of_unarmed _ hl, decide_eq_true hm, checkSize, if_true]
  have hended : Ended (devices.take m) (devices.length ≤ m) rest (searchPasses m (searchStart m s)) := by
    cases devices with
    | nil =>
      have h := searchPasses_of_no_presence (s := searchStart m s) m hs
      simpa using h
    | cons d left =>
      rw [if_neg (List.cons_ne_nil d left)] at hs
      have hfirst : ∀ x ∈ d :: left, ¬ foundBefore x d := fun x hx hxd => by
        rcases List.mem_cons.mp hx with rfl | hx
        · exact foundBefore_asymm hxd hxd
        · exact foundBefore_asymm hxd ((List.pairwise_cons.mp hp).1 x hx)
      exact searchPasses_of_searching hp m (found := []) (searchStart m s) {
        count := rfl
        kept := rfl
        samples := hs
        split := rfl
        space := by simpa [searchStart, hres] using hm
        aims := aims_searchStart m s hfirst }
  exact ⟨_, hexec, hended.samples, by rw [hended.count, hended.kept], by rw [hended.count, List.length_take, Nat.min_comm], hended.status,
    (searchRun_discover m s).data⟩

end Sys2Proof.Claims
end

section
/-! PROOF. The two formats (30_encoding section 3): a request is read by its operation number, a command word by its top field and the
fields that must be 0; and the requests refused for their code (R95) or their size (R107). -/

namespace Sys2Proof

variable {op : BitVec 5} {opNum : Nat} {b : Bool} {code : BitVec 8} {arg : Word64} {i : Instr} {w : QWord}

/-! ### A request -/

/-- A request built by the encoder is what the opcode map names. -/
theorem decode_request (h : hostOperation op.toNat b arg = some i) : decode (.request (reqCode b op) arg) = .ok i := by
  rw [decode, decodeRequest_reqCode, h]

/-- A natural operand that fits is read back from the whole argument (30_encoding R91, R92). -/
theorem decode_request_count {n : Nat} (f : Nat → Instr) (hf : ∀ arg, hostOperation op.toNat b arg = some (f arg.toNat))
    (hn : fitsArg n = true) : decode (.request (reqCode b op) (BitVec.ofNat 64 n)) = .ok (f n) := by
  rw [decode_request (hf _), BitVec.toNat_ofNat, Nat.mod_eq_of_lt ((fitsArg_iff n).mp hn)]

/-- A value operand is read back from the low bits of the argument (30_encoding R92). -/
theorem decode_request_value {n : Nat} (f : BitVec n → Instr)
    (hf : ∀ arg, hostOperation op.toNat b arg = some (f (arg.extractLsb' 0 n))) (v : BitVec n) (hn : n ≤ 64) :
    decode (.request (reqCode b op) (v.setWidth 64)) = .ok (f v) := by
  rw [decode_request (hf _), BitVec.extractLsb'_setWidth_of_le (by omega), BitVec.extractLsb'_eq_self]

/-- The encoding of a host operation has its operation number, and its flag where that is read (30_encoding R94). -/
theorem encode_of_hostOperation (h : hostOperation opNum b arg = some i) :
    ∃ arg', encode i = .request (reqCode (decide (8 ≤ opNum) && b) (BitVec.ofNat 5 opNum)) arg' := by
  rcases hostOperation_cases h with
    ⟨rfl, rfl⟩ | ⟨rfl, rfl⟩ | ⟨rfl, rfl⟩ | ⟨rfl, rfl⟩ | ⟨rfl, rfl⟩ | ⟨rfl, rfl⟩ | ⟨rfl, rfl⟩ | ⟨rfl, rfl⟩ | ⟨rfl, rfl⟩ |
    ⟨rfl, rfl⟩ | ⟨rfl, rfl⟩ | ⟨rfl, rfl⟩ | ⟨rfl, rfl⟩ | ⟨rfl, rfl⟩ | ⟨rfl, rfl⟩ | ⟨rfl, rfl⟩ | ⟨rfl, rfl⟩ | ⟨rfl, rfl⟩ |
    ⟨rfl, rfl⟩ <;> exact ⟨_, rfl⟩

/-- A count of a host operation is the value of its argument, so it fits. -/
theorem wf_of_hostOperation (h : hostOperation opNum b arg = some i) : i.wf = true := by
  have harg := (fitsArg_iff arg.toNat).mpr arg.isLt
  rcases hostOperation_cases h with
    ⟨-, rfl⟩ | ⟨-, rfl⟩ | ⟨-, rfl⟩ | ⟨-, rfl⟩ | ⟨-, rfl⟩ | ⟨-, rfl⟩ | ⟨-, rfl⟩ | ⟨-, rfl⟩ | ⟨-, rfl⟩ | ⟨-, rfl⟩ | ⟨-, rfl⟩ |
    ⟨-, rfl⟩ | ⟨-, rfl⟩ | ⟨-, rfl⟩ | ⟨-, rfl⟩ | ⟨-, rfl⟩ | ⟨-, rfl⟩ | ⟨-, rfl⟩ | ⟨-, rfl⟩ <;> simp only [Instr.wf, harg]

theorem decodeRequest_eq_error_iff :
    (∃ r, decodeRequest code arg = .error r) ↔ 0x13 ≤ (reqOp code).toNat ∨ reqZero code ≠ 0#2 := by
  rw [← hostOperation_isNone _ (reqBlocking code) arg, decodeRequest]
  by_cases hz : reqZero code = 0#2
  · cases hostOperation (reqOp code).toNat (reqBlocking code) arg <;> simp [hz]
  · simp [hz]

/-! ### A command word -/

/-- A field is two fields, one above the other. -/
theorem extractLsb'_eq_append_iff {n k hi lo : Nat} (x : BitVec n) (a : BitVec hi) (c : BitVec lo) :
    x.extractLsb' k (hi + lo) = a ++ c ↔ x.extractLsb' (k + lo) hi = a ∧ x.extractLsb' k lo = c := by
  rw [← BitVec.extractLsb'_append_extractLsb'_eq_extractLsb' rfl]
  constructor
  · intro h
    have hhi := congrArg (BitVec.extractLsb' lo hi) h
    have hlo := congrArg (BitVec.extractLsb' 0 lo) h
    simp only [BitVec.extractLsb'_append_eq_left, BitVec.extractLsb'_append_eq_right] at hhi hlo
    exact ⟨hhi, hlo⟩
  · rintro ⟨rfl, rfl⟩
    rfl

/-- Masking off the low `lo` bits keeps the field above them. -/
theorem and_allOnes_append_zero {hi lo : Nat} (x : BitVec (hi + lo)) :
    x &&& (BitVec.allOnes hi ++ 0#lo) = x.extractLsb' lo hi ++ 0#lo := by
  apply BitVec.eq_of_getLsbD_eq
  intro j hj
  by_cases h : j < lo
  · simp [BitVec.getLsbD_append, h]
  · simp [BitVec.getLsbD_append, h, show j - lo < hi by omega, show lo + (j - lo) = j by omega]

theorem and_allOnes_append_zero_eq_iff {hi lo : Nat} (x : BitVec (hi + lo)) (a : BitVec hi) :
    x &&& (BitVec.allOnes hi ++ 0#lo) = a ++ 0#lo ↔ x.extractLsb' lo hi = a := by
  rw [and_allOnes_append_zero, BitVec.append_left_inj]

/-- The test of the decoder for `WRBITS`, on the field above its count (30_encoding R97). -/
theorem wrBits_mask_iff : w &&& 0xFFF00000#32 = 0x30000000#32 ↔ w.extractLsb' 20 12 = 0x300#12 :=
  and_allOnes_append_zero_eq_iff (hi := 12) (lo := 20) w 0x300#12

/-- The test of the decoder for `RDBITS`, on the field above its count (30_encoding R97). -/
theorem rdBits_mask_iff : w &&& 0xFFFFFFE0#32 = 0x40000000#32 ↔ w.extractLsb' 5 27 = 0x2000000#27 :=
  and_allOnes_append_zero_eq_iff (hi := 27) (lo := 5) w 0x2000000#27

/-- The word of `WRBITS`, its count taken from its field. -/
theorem wrBitsWord_of_fields (h : w.extractLsb' 20 12 = 0x300#12) :
    wrBitsWord ((w.extractLsb' 16 4).toNat + 1) (w.extractLsb' 0 16) = w := by
  have hcount : wrBitsWord ((w.extractLsb' 16 4).toNat + 1) (w.extractLsb' 0 16) =
      0x300#12 ++ w.extractLsb' 16 4 ++ w.extractLsb' 0 16 := by
    rw [wrBitsWord, Nat.add_sub_cancel, BitVec.ofNat_toNat, BitVec.setWidth_eq]
    rfl
  rw [hcount, ← h, BitVec.extractLsb'_append_extractLsb'_eq_extractLsb' (show 20 = 16 + 4 from rfl),
    BitVec.extractLsb'_append_extractLsb'_eq_extractLsb' (show 16 = 0 + 16 from rfl)]
  exact BitVec.extractLsb'_eq_self

/-- The word of `RDBITS`, its count taken from its field. -/
theorem rdBitsWord_of_fields (h : w.extractLsb' 5 27 = 0x2000000#27) : rdBitsWord ((w.extractLsb' 0 5).toNat + 1) = w := by
  have hcount : rdBitsWord ((w.extractLsb' 0 5).toNat + 1) = 0x2000000#27 ++ w.extractLsb' 0 5 := by
    rw [rdBitsWord, Nat.add_sub_cancel, BitVec.ofNat_toNat, BitVec.setWidth_eq]
    rfl
  rw [hcount, ← h, BitVec.extractLsb'_append_extractLsb'_eq_extractLsb' (show 5 = 0 + 5 from rfl)]
  exact BitVec.extractLsb'_eq_self

/-- A command word is the one encoding of what it decodes to. -/
theorem encode_of_decodeCommand (h : decodeCommand w = .ok i) : encode i = .command w := by
  rcases decodeCommand_cases h with ⟨rfl, rfl⟩ | ⟨rfl, rfl⟩ | ⟨hm, rfl⟩ | ⟨hm, rfl⟩
  · rfl
  · rfl
  · rw [encode, wrBitsWord_of_fields (wrBits_mask_iff.mp hm)]
  · rw [encode, rdBitsWord_of_fields (rdBits_mask_iff.mp hm)]

theorem wf_of_decodeCommand (h : decodeCommand w = .ok i) : i.wf = true := by
  rcases decodeCommand_cases h with ⟨-, rfl⟩ | ⟨-, rfl⟩ | ⟨-, rfl⟩ | ⟨-, rfl⟩
  · rfl
  · rfl
  · exact (wrCountOk_iff _).mpr ⟨Nat.le_add_left _ _, (w.extractLsb' 16 4).isLt⟩
  · exact (rdCountOk_iff _).mpr ⟨Nat.le_add_left _ _, (w.extractLsb' 0 5).isLt⟩

/-- A word is reserved when it passes none of the decoder's four tests. -/
theorem decodeCommand_eq_error_iff :
    decodeCommand w = .error (.reservedCommand w) ↔
      w ≠ 0x10000000#32 ∧ w ≠ 0x20000000#32 ∧ w &&& 0xFFF00000#32 ≠ 0x30000000#32 ∧
        w &&& 0xFFFFFFE0#32 ≠ 0x40000000#32 := by
  unfold decodeCommand
  split_ifs with h1 h2 h3 h4
  · simp [h1]
  · simp [h2]
  · simp [h3]
  · simp [h4]
  · simp [h1, h2, h3, h4]

/-- A word whose low 28 bits are 0, by its two fields (30_encoding R97). -/
theorem eq_append_zero_iff (top : BitVec 4) :
    w = top ++ 0#28 ↔ w.extractLsb' 28 4 = top ∧ w.extractLsb' 0 28 = 0#28 := by
  have hself : w.extractLsb' 0 (4 + 28) = w := BitVec.extractLsb'_eq_self
  have hfields := extractLsb'_eq_append_iff (k := 0) w top 0#28
  rwa [hself] at hfields

/-- The top field names one of the four commands, or none (30_encoding R98). -/
theorem topField_cases (top : BitVec 4) :
    top = 1#4 ∨ top = 2#4 ∨ top = 3#4 ∨ top = 4#4 ∨
      ((top = 0#4 ∨ 5 ≤ top.toNat) ∧ top ≠ 1#4 ∧ top ≠ 2#4 ∧ top ≠ 3#4 ∧ top ≠ 4#4) := by
  revert top; decide

end Sys2Proof

namespace Sys2Proof.Machine

open Claims

variable {s : State}

/-- A reserved request of an idle host is answered `IllegalOp`. -/
theorem hostStep_of_reserved_request {code : BitVec 8} {arg : Word64} {is : List Input} {r : Reject} (hop : s.hostOp = .idle)
    (hin : s.inputs = .request code arg :: is) (hd : decodeRequest code arg = .error r) :
    hostStep s = .next (raise .illegalOp 0 { s with inputs := is }) := by
  simp only [hostStep, serveRequest, hop, hin, hd]

/-- An illegal size is refused whatever serving it would have done (30_encoding R107). -/
theorem checkSize_of_illegal {legal : Bool} {p : Prop} (hp : legal = true ↔ p) (h : ¬ p) (served : State) :
    checkSize legal s served = answered 3#4 0#64 s := by
  rw [Bool.eq_false_iff.mpr (mt hp.mp h)]
  rfl

end Sys2Proof.Machine

namespace Sys2Proof.Claims

open Sys2Proof.Machine

/-- Settles O1: a request is read back through the opcode map, its operands from the argument; a command word by its fields. -/
theorem decodeUndoesEncode : Obligations.DecodeUndoesEncode := by
  intro i hwf
  cases i with
  | crcCompute n => exact decode_request_count .crcCompute (fun _ => rfl) hwf
  | crcCheck n => exact decode_request_count .crcCheck (fun _ => rfl) hwf
  | discover n => exact decode_request_count .discover (fun _ => rfl) hwf
  | llReadBits b n => exact decode_request_count (.llReadBits b) (fun _ => rfl) hwf
  | llPull b n => exact decode_request_count (.llPull b) (fun _ => rfl) hwf
  | llReadBytes b n => exact decode_request_count (.llReadBytes b) (fun _ => rfl) hwf
  | btWriteBit bit => exact decode_request (by cases bit <;> rfl)
  | btWriteByte v => exact decode_request_value .btWriteByte (fun _ => rfl) v (by decide)
  | llWriteByte b v => exact decode_request_value (.llWriteByte b) (fun _ => rfl) v (by decide)
  | llWriteWord b v => exact decode_request_value (.llWriteWord b) (fun _ => rfl) v (by decide)
  | btReset | btReadBit | arm => exact decode_request rfl
  | llReset b | llWaitIdle b | llSkipRom b | llReadByte b | llReadWord b => exact decode_request rfl
  | llMatchRom b a => exact decode_request rfl
  | reset | waitIdle => rfl
  | wrBits n v => exact decodeCommand_wrBitsWord n v hwf
  | rdBits n => exact decodeCommand_rdBitsWord n hwf

/-- Settles O2: a count is read from a field that bounds it, and the encoder writes the fields the decoder has read. -/
theorem decodedEncodingsAreCanonical : Obligations.DecodedEncodingsAreCanonical := by
  refine ⟨fun e i h => ?_, fun w i h => encode_of_decodeCommand h, fun code arg i h => ?_⟩
  · cases e with
    | request code arg => exact wf_of_hostOperation (decodeRequest_ok h).2
    | command w => exact wf_of_decodeCommand h
  · obtain ⟨hzero, hop⟩ := decodeRequest_ok h
    obtain ⟨arg', henc⟩ := encode_of_hostOperation hop
    rw [BitVec.ofNat_toNat, BitVec.setWidth_eq] at henc
    refine ⟨_, arg', henc, reqOp_reqCode _ _, by rw [reqZero_reqCode, hzero], fun h8 => ?_⟩
    rw [decide_eq_true h8, Bool.true_and, reqCode_of_fields code hzero]

/-- Settles O3: the four tests of the decoder split at the top field, and one case for each value of it. -/
theorem reservedCommandWords : Obligations.ReservedCommandWords := by
  intro w
  have h1 : w = 0x10000000#32 ↔ _ := eq_append_zero_iff 1#4
  have h2 : w = 0x20000000#32 ↔ _ := eq_append_zero_iff 2#4
  have h3 : w.extractLsb' 20 12 = 0x300#12 ↔ _ := extractLsb'_eq_append_iff (k := 20) w 3#4 0#8
  have h4 : w.extractLsb' 5 27 = 0x2000000#27 ↔ _ := extractLsb'_eq_append_iff (k := 5) w 4#4 0#23
  rw [decodeCommand_eq_error_iff, ne_eq, ne_eq, ne_eq, ne_eq, wrBits_mask_iff, rdBits_mask_iff, h1, h2, h3, h4]
  rcases topField_cases (w.extractLsb' 28 4) with h | h | h | h | ⟨hunknown, hne1, hne2, hne3, hne4⟩
  · simp [h]
  · simp [h]
  · simp [h]
  · simp [h]
  · exact iff_of_true ⟨mt And.left hne1, mt And.left hne2, mt And.left hne3, mt And.left hne4⟩ (.inl hunknown)

/-- Settles O4: the opcode map names 0x00 to 0x12 and no more, and the host raises `IllegalOp` for what it does not name. -/
theorem reservedRequestAnswered : Obligations.ReservedRequestAnswered := by
  refine fun s code arg => ⟨decodeRequest_eq_error_iff, fun is h hop hin => ?_⟩
  obtain ⟨r, hr⟩ := decodeRequest_eq_error_iff.mpr h
  exact hostStep_of_reserved_request hop hin hr

/-- Settles O5: the two fixed words as they stand, the other two by their fields. -/
theorem builtWordsDecode : Obligations.BuiltWordsDecode :=
  ⟨rfl, rfl, decodeCommand_encWrBits, decodeCommand_encRdBits⟩

/-- Settles O6: eight closed words. -/
theorem wordsWrittenOutDecode : Obligations.WordsWrittenOutDecode := by
  unfold Obligations.WordsWrittenOutDecode
  decide

/-- Settles O30: each operation checks its size first, once the lifecycle lets it. -/
theorem illegalSizesRefused : Obligations.IllegalSizesRefused := by
  refine fun s b count => ⟨fun hl h => ?_, fun hl h => ?_, fun hl h => ?_, fun h => ?_, fun h => ?_, fun hl h => ?_⟩
  · rw [exec, execLlReadBits, needArmed_of_armed _ hl, checkSize_of_illegal (bitCountOk_iff count) (by omega)]
  · rw [exec, execLlPull, needArmed_of_armed _ hl, checkSize_of_illegal (bitCountOk_iff count) (by omega)]
  · rw [exec, execLlReadBytes, needArmed_of_armed _ hl, checkSize_of_illegal (byteCountOk_iff count) (by omega)]
  · rw [exec, execCrcCompute, checkSize_of_illegal (crcLenOk_iff count) (by omega)]
  · rw [exec, execCrcCheck, checkSize_of_illegal (crcLenOk_iff count) (by omega)]
  · rw [exec, execDiscover, needUnarmed_of_unarmed _ hl, checkSize_of_illegal decide_eq_true_iff (by omega)]

end Sys2Proof.Claims
end

section
/-! PROOF. The CRC function (40_crc8 R123, R124): the step in shift-and-xor form is linear over bits and injective in the register, so the
function over bytes is too; a register fed its own bits is only shifted out. And the two operations that use it (R125, R126). -/

namespace Sys2Proof.Machine

open Claims

variable {s : State} {c d : Byte} {len : Nat}

/-! ### Folds of a linear or injective step -/

/-- A step that is linear over register and input folds to a function that is. -/
theorem foldl_zipWith_xor {α : Type} {f : Byte → α → Byte} {g : α → α → α}
    (hf : ∀ c c' a a', f (c ^^^ c') (g a a') = f c a ^^^ f c' a') (c c' : Byte) {xs ys : List α} (h : xs.length = ys.length) :
    (List.zipWith g xs ys).foldl f (c ^^^ c') = xs.foldl f c ^^^ ys.foldl f c' := by
  induction xs generalizing ys c c' with
  | nil => rw [List.eq_nil_of_length_eq_zero h.symm]; rfl
  | cons x xs ih =>
    cases ys with
    | nil => cases h
    | cons y ys => rw [List.zipWith_cons_cons, List.foldl_cons, hf, ih _ _ (Nat.succ.inj h)]; rfl

/-- A step that is injective in the register stays so over any inputs. -/
theorem foldl_injective {α β : Type} {f : β → α → β} (hf : ∀ a, Function.Injective (f · a)) (xs : List α) :
    Function.Injective (xs.foldl f ·) := by
  induction xs with
  | nil => exact Function.injective_id
  | cons x xs ih => exact ih.comp (hf x)

/-! ### The bit step -/

/-- The step as a shift and an xor with the feedback (40_crc8 R123). -/
theorem crcStep_eq (c : Byte) (b : Bool) : crcStep c b = (c >>> 1) ^^^ (if c.getLsbD 0 ^^ b then 0x8C#8 else 0x00#8) := by
  revert c b; decide

theorem crcStep_xor (c c' : Byte) (b b' : Bool) : crcStep (c ^^^ c') (b ^^ b') = crcStep c b ^^^ crcStep c' b' := by
  have hfeed : ∀ p q r r' : Bool, (if (p ^^ q) ^^ (r ^^ r') then 0x8C#8 else 0x00#8) =
      (if p ^^ r then 0x8C#8 else 0x00#8) ^^^ (if q ^^ r' then 0x8C#8 else 0x00#8) := by decide
  rw [crcStep_eq, crcStep_eq, crcStep_eq, BitVec.ushiftRight_xor_distrib, BitVec.getLsbD_xor, hfeed]
  ac_rfl

/-- The step has an inverse for each input bit (40_crc8 R124 (c)): it is linear, and only 0 goes to 0. -/
theorem crcStep_injective (b : Bool) : Function.Injective (crcStep · b) := by
  intro c c' h
  have hker : ∀ t : Byte, crcStep t false = 0#8 → t = 0#8 := by decide
  have hlin := crcStep_xor c c' b b
  rw [Bool.xor_self, BitVec.xor_eq_zero_iff.mpr h] at hlin
  exact BitVec.xor_eq_zero_iff.mp (hker _ hlin)

/-- Fed its own bit 0, the register is shifted and no more: the feedback is 0 (40_crc8 R124 (b)). -/
theorem crcStep_getLsbD_zero (c : Byte) : crcStep c (c.getLsbD 0) = c >>> 1 := by
  rw [crcStep_eq, Bool.xor_self]
  exact BitVec.xor_zero

/-! ### The eight steps of a byte -/

theorem lowBits_xor {w : Nat} (n : Nat) (v v' : BitVec w) :
    lowBits n (v ^^^ v') = List.zipWith (· ^^ ·) (lowBits n v) (lowBits n v') := by
  simp [lowBits, List.zipWith_map]

theorem crcByte_xor (c c' d d' : Byte) : crcByte (c ^^^ c') (d ^^^ d') = crcByte c d ^^^ crcByte c' d' := by
  rw [crcByte, lowBits_xor]
  exact foldl_zipWith_xor crcStep_xor c c' (by simp [lowBits])

theorem crcByte_injective (d : Byte) : Function.Injective (crcByte · d) := foldl_injective crcStep_injective (lowBits 8 d)

/-- The register after `n` of its own bits: shifted by `n` (40_crc8 R124 (b)). -/
theorem foldl_crcStep_lowBits_self (n : Nat) (c : Byte) : (lowBits n c).foldl crcStep c = c >>> n := by
  induction n with
  | zero => simp [lowBits]
  | succ n ih =>
    have hsplit : lowBits (n + 1) c = lowBits n c ++ [(c >>> n).getLsbD 0] := by simp [lowBits, List.range_succ]
    rw [hsplit, List.foldl_append, ih, List.foldl_cons, List.foldl_nil, crcStep_getLsbD_zero, ← BitVec.shiftRight_add]

@[simp] theorem crcByte_self (c : Byte) : crcByte c c = 0#8 := by
  rw [crcByte, foldl_crcStep_lowBits_self]
  exact BitVec.ushiftRight_eq_zero le_rfl

/-- A byte leaves the register 0 only if it is the register's own value. -/
theorem crcByte_eq_zero_iff : crcByte c d = 0#8 ↔ c = d := by
  rw [← crcByte_self d]
  exact (crcByte_injective d).eq_iff

theorem crcByte_injective_byte (c : Byte) : Function.Injective (crcByte c) := by
  intro d d' h
  have hlin := crcByte_xor c c d d'
  rw [BitVec.xor_self, BitVec.xor_eq_zero_iff.mpr h, crcByte_eq_zero_iff, eq_comm] at hlin
  exact BitVec.xor_eq_zero_iff.mp hlin

/-! ### The function over bytes -/

theorem crc8_append (xs ys : List Byte) : crc8 (xs ++ ys) = ys.foldl crcByte (crc8 xs) := List.foldl_append

theorem crc8_zeros (n : Nat) : crc8 (List.replicate n 0x00#8) = 0x00#8 := by
  induction n with
  | zero => rfl
  | succ n ih => rw [List.replicate_succ', crc8_append, ih]; exact crcByte_self 0

theorem crc8_append_self (data : List Byte) : crc8 (data ++ [crc8 data]) = 0x00#8 := by
  rw [crc8_append]
  exact crcByte_self (crc8 data)

/-- A change of one byte changes the CRC, whatever stands around it. -/
theorem crc8_ne_of_byte_ne (l₁ l₂ : List Byte) (h : c ≠ d) : crc8 (l₁ ++ c :: l₂) ≠ crc8 (l₁ ++ d :: l₂) := by
  intro heq
  rw [crc8_append, crc8_append] at heq
  exact h (crcByte_injective_byte _ (foldl_injective crcByte_injective l₂ heq))

/-! ### Addresses and operations -/

/-- A device address in line order is its first seven bytes and its CRC byte (10_state R30). -/
theorem addressBytes_eq_append (a : Word64) : addressBytes a = (addressBytes a).take 7 ++ [addressCrc a] := rfl

theorem checkSize_of_legal {legal : Bool} {p : Prop} (hp : legal = true ↔ p) (h : p) (s served : State) :
    checkSize legal s served = served := if_pos (hp.mpr h)

/-- The check on a length that `BUF` has, in the form of 40_crc8 R126. -/
theorem checkBuf_of_le (h : len ≤ 16) :
    checkBuf len s = answered (if crc8 (s.buf.toList.take len) = 0x00#8 then 0#4 else 4#4)
      ((crc8 (s.buf.toList.take len)).setWidth 64) { s with crc := crc8 (s.buf.toList.take len) } := by
  have hlen : (s.buf.toList.take len).length = len := by simp [h]
  have hcheck := answered_checkBuf (s := s) (data := s.buf.toList.take len) (by rw [hlen, bufBytes])
  rwa [hlen] at hcheck

end Sys2Proof.Machine

namespace Sys2Proof.Claims

open Sys2Proof.Machine

/-- Settles O7: the bits of a byte in line order are its low bits, and each is one step of R123. -/
theorem crcIsShiftRegister : Obligations.CrcIsShiftRegister := by
  intro data
  simp only [List.foldl_flatMap, ← crcStep_eq]
  rfl

/-- Settles O8: the linear step of a byte, from the start value 0 = 0 ^ 0; and zeros leave the start value as it is. -/
theorem crcIsLinear : Obligations.CrcIsLinear := by
  refine ⟨fun xs ys h => foldl_zipWith_xor crcByte_xor 0#8 0#8 h, fun n data => ⟨?_, crc8_zeros n⟩⟩
  rw [crc8_append, crc8_zeros]
  rfl

/-- Settles O9: the register meets its own value and is shifted out. -/
theorem crcRoundTrip : Obligations.CrcRoundTrip := by
  refine ⟨crc8_append_self, fun a h => ?_⟩
  rw [addressBytes_eq_append, h]
  exact crc8_append_self _

/-- Settles O10: the flipped bit changes one byte, so the CRC changes and is not 0 any more. -/
theorem crcDetectsSingleBit : Obligations.CrcDetectsSingleBit := by
  intro x j k hx hj hk
  have hbit : (1#8 <<< k) ≠ 0#8 := by interval_cases k <;> decide
  obtain ⟨l₁, d, l₂, rfl, -, hmod⟩ := List.exists_of_modify (· ^^^ (1#8 <<< k)) hj
  rw [hmod, ← hx]
  exact crc8_ne_of_byte_ne l₁ l₂ (by simpa using hbit)

/-- Settles O11: the size check lets the length through, or answers `IllegalSize`. -/
theorem crcComputeEffect : Obligations.CrcComputeEffect := by
  refine ⟨fun b arg => decode_request rfl, fun len s => ⟨fun h => ?_, fun h => ?_⟩⟩
  · rw [exec, execCrcCompute, checkSize_of_legal (crcLenOk_iff len) h]
    rfl
  · rw [exec, execCrcCompute, checkSize_of_illegal (crcLenOk_iff len) (by omega)]

/-- Settles O12: the size check lets the length through to the check of `BUF`, or answers `IllegalSize`. -/
theorem crcCheckEffect : Obligations.CrcCheckEffect := by
  refine ⟨fun b arg => decode_request rfl, fun len s => ⟨fun h => ?_, fun h => ?_⟩⟩
  · rw [exec, execCrcCheck, checkSize_of_legal (crcLenOk_iff len) h, checkBuf_of_le h]
  · rw [exec, execCrcCheck, checkSize_of_illegal (crcLenOk_iff len) (by omega)]

end Sys2Proof.Claims
end

section
/-! PROOF. The bit-timing controller (41_bit_timing): each waveform is `lineMoved` by the events of its rule, and each operation answers
over its waveform once the lifecycle lets it. -/

namespace Sys2Proof.Machine

open Claims

theorem bitData_eq_ite (b : Bool) : bitData b = if b then 1#64 else 0#64 := by cases b <;> rfl

/-! ### The bus reset -/

/-- The samples of a bus reset, with the presence bit: a low one was taken, or none was in eight (41_bit_timing R141). -/
theorem pollSamples_of_presence {bs : List Bool} {p : Bool}
    (h : (p = true ∧ ∃ n, n < 8 ∧ bs = List.replicate n true ++ [false]) ∨ (p = false ∧ bs = List.replicate 8 true)) :
    pollSamples bs ∧ p = decide (false ∈ bs) := by
  obtain ⟨rfl, n, hn, rfl⟩ | ⟨rfl, rfl⟩ := h
  · exact ⟨⟨n, .inl ⟨hn, rfl⟩⟩, by simp⟩
  · exact ⟨⟨8, .inr ⟨rfl, rfl⟩⟩, by decide⟩

theorem busReset_eq_lineMoved (s : State) :
    ∃ bs, pollSamples bs ∧ levelsGiven bs s ∧
      busReset s = (decide (false ∈ bs), lineMoved (busResetEvents s.cfg bs) bs.length s) := by
  obtain ⟨bs, p, hp, hgiven, hreset⟩ := busReset_spec s
  obtain ⟨hpoll, rfl⟩ := pollSamples_of_presence hp
  refine ⟨bs, hpoll, hgiven, ?_⟩
  rw [hreset]
  simp [lineMoved, busResetEvents]

/-! ### The write slots -/

theorem reverse_slotsEvents (p : Params) (bs : List Bool) : (slotsEvents p bs).reverse = bs.reverse.flatMap (slotLog p) :=
  List.reverse_flatMap

theorem writeByte_eq_lineMoved (v : Byte) (s : State) : writeByte v s = lineMoved (slotsEvents s.cfg (lowBits 8 v)) 0 s := by
  rw [writeByte_eq, ← reverse_slotsEvents]
  rfl

/-! ### The read slot -/

theorem readSlot_eq_lineMoved (s : State) :
    readSlot s = (readLevel s, lineMoved (readEvents s.cfg (readLevel s)) 1 s) := by
  rw [readSlot_eq, ← List.drop_one]
  rfl

/-- A read slot samples the level that waits, or one that no level waiting decides (20_memory R78). -/
theorem levelsGiven_readLevel (s : State) : levelsGiven [readLevel s] s := by
  cases hs : s.samples with
  | nil => exact .inr (hs ▸ List.nil_prefix)
  | cons b bs => exact .inl (by simp [hs, readLevel_of_samples hs])

end Sys2Proof.Machine

namespace Sys2Proof.Claims

open Sys2Proof.Machine

/-- Settles O13: the waveform of a bus reset, its presence bit answered `OK`. -/
theorem btResetEffect : Obligations.BtResetEffect := by
  intro s hl
  obtain ⟨bs, hpoll, hgiven, hreset⟩ := busReset_eq_lineMoved s
  refine ⟨bs, hpoll, hgiven, ?_⟩
  rw [exec, execBtReset, needUnarmed_of_unarmed _ hl, hreset, bitData_eq_ite]
  simp only [decide_eq_true_eq]
  rfl

/-- Settles O14: one write slot, or those of the eight low bits in line order. -/
theorem btWriteEffect : Obligations.BtWriteEffect := by
  intro s hl
  refine ⟨fun b => ?_, fun v => ?_⟩
  · rw [exec, execBtWriteBit, needUnarmed_of_unarmed _ hl]
    rfl
  · rw [exec, execBtWriteByte, needUnarmed_of_unarmed _ hl, writeByte_eq_lineMoved]
    rfl

/-- Settles O15: the waveform of a read slot, its sample answered; armed, the refusal of every operation that needs UNARMED. -/
theorem btReadBitEffect : Obligations.BtReadBitEffect := by
  refine ⟨fun b arg => decode_request rfl, fun s => ⟨fun hl => ?_, fun hl => exec_needsUnarmed_of_armed rfl hl⟩⟩
  refine ⟨readLevel s, levelsGiven_readLevel s, ?_⟩
  rw [exec, execBtReadBit, needUnarmed_of_unarmed _ hl, readSlot_eq_lineMoved, bitData_eq_ite]
  rfl

end Sys2Proof.Claims
end

section
/-! PROOF. A discovery run (42_search_engine R160): its exits (R177), a settled position (R165, R166) and the advance (R171). -/

namespace Sys2Proof.Machine

open Claims

variable {s : State}

/-- A served `DISCOVER` is the passes from the registers set up. -/
theorem exec_discover_of_served {m : Nat} (hl : s.lifecycle = .unarmed) (hm : m ≤ s.cfg.resDepth) :
    exec (.discover m) s = .next (searchPasses m (searchStart m s)) := by
  rw [exec, execDiscover, needUnarmed_of_unarmed _ hl, checkSize_of_legal decide_eq_true_iff hm]

/-! ### A settled position -/

/-- A settled position is the position resolved, then the write slot of the bit chosen, with `bit_idx` moved on. -/
theorem settleBit_eq_lineMoved (v c : Bool) (s : State) :
    settleBit v c s = lineMoved (slotEvents s.cfg (resolveBit s.bitIdx.toNat v c s).1) 0
      { s with
        current := (settleBit v c s).current
        discrepancy := (settleBit v c s).discrepancy
        bitIdx := (settleBit v c s).bitIdx } := by
  rw [settleBit_eq, resolveBit_shape]
  rfl

/-! ### The advance -/

/-- The advance when `i` is the highest pending bit. -/
theorem searchAdvance_of_pending {i : Nat} (hi : i < 64) (hmark : s.discrepancy.getLsbD i = true)
    (hcur : s.current.getLsbD i = false) (habove : ∀ j, i < j → s.discrepancy.getLsbD j = true → s.current.getLsbD j = true) :
    ∃ disc : BitVec 64, (∀ j, disc.getLsbD j = (decide (j ≤ i) && s.discrepancy.getLsbD j)) ∧
      searchAdvance s =
        { s with current := setBit s.current i true, discrepancy := disc, lastBranchTaken := BitVec.ofNat 7 i } := by
  obtain ⟨disc, hscan, hmarks⟩ := advanceScan_some 64 i le_rfl s.current s.discrepancy hi hmark hcur fun j hij _ => habove j hij
  refine ⟨disc, fun j => ?_, by rw [searchAdvance, Config.addrBits, hscan]⟩
  rw [hmarks]
  by_cases hj : j < 64
  · rw [← decide_not, decide_eq_decide.mpr (show ¬(i < j ∧ j < 64) ↔ j ≤ i by omega)]
  · rw [BitVec.getLsbD_of_ge _ _ (by omega), Bool.and_false, Bool.and_false]

/-- The advance with no pending bit. -/
theorem searchAdvance_of_no_pending (h : ∀ j, s.discrepancy.getLsbD j = true → s.current.getLsbD j = true) :
    searchAdvance s = { s with discrepancy := 0#64, lastBranchTaken := 64#7 } := by
  obtain ⟨disc, hscan, hmarks⟩ := advanceScan_none 64 le_rfl s.current s.discrepancy fun j _ => h j
  obtain rfl : disc = 0#64 := BitVec.eq_of_getLsbD_eq fun j hj => by
    rw [hmarks, decide_eq_true hj, BitVec.getLsbD_zero]
    rfl
  rw [searchAdvance, Config.addrBits, hscan]

end Sys2Proof.Machine

namespace Sys2Proof.Claims

open Sys2Proof.Machine

/-- Settles O17: what every run leaves, from the registers set up. -/
theorem discoverExits : Obligations.DiscoverExits := by
  intro m s hl hm
  obtain ⟨t, ht, run⟩ : ∃ t, exec (.discover m) s = .next t ∧ SearchRun (searchStart m s) t :=
    ⟨_, exec_discover_of_served hl hm, searchRun_discover m s⟩
  refine ⟨t, ht, run.frame, run.idle, run.released, run.noOp, run.maxDev, run.data, run.resLength, run.resAbove, ?_⟩
  cases run.ends with
  | empty h => exact .inl h
  | done h => exact .inr (.inl h)
  | conflict h => exact .inr (.inr (.inl h))
  | overflow h => exact .inr (.inr (.inr h))

/-- Settles O18: after the two reads the walk stops on (1, 1), and else settles the position and goes on. -/
theorem bitStepTable : Obligations.BitStepTable := by
  intro n s i v c t u hidx hi hv hc
  have hstep : walkBits (n + 1) s = if v && c then (false, u) else walkBits n (settleBit v c u) := by
    simp only [walkBits_succ, hv, hc]
  obtain ⟨hcfg, hcur, hdisc, hbit⟩ : u.cfg = s.cfg ∧ u.current = s.current ∧ u.discrepancy = s.discrepancy ∧
      u.bitIdx = s.bitIdx := by
    obtain ⟨-, rfl⟩ := Prod.mk.inj (hv.symm.trans (readSlot_eq s))
    obtain ⟨-, rfl⟩ := Prod.mk.inj (hc.symm.trans (readSlot_eq _))
    exact ⟨rfl, rfl, rfl, rfl⟩
  refine ⟨hcur, hdisc, hbit, fun h1 h2 => by rw [hstep, h1, h2]; rfl, fun hvc => ?_⟩
  have hu : u.bitIdx.toNat = i := by rw [hbit, hidx]
  have hmoved := settleBit_eq_lineMoved v c u
  obtain ⟨-, hset, hmark, hsame⟩ := settleBit_spec v c u (hu ▸ hi) hvc
  obtain ⟨hchosen, -⟩ := resolveBit_spec i v c u hi hvc
  rw [hu] at hmoved hset hmark hsame
  rw [hcur, hdisc] at hset hchosen
  refine ⟨_, settleBit v c u, by rw [hstep, hvc]; rfl, hcfg ▸ hmoved, ?_, fun j hj => ?_, hset.trans hchosen.symm,
    fun hne => ⟨?_, ?_⟩, fun heq => ⟨?_, ?_⟩⟩
  · rw [settleBit_bitIdx, BitVec.toNat_add, BitVec.toNat_ofNat, hu]
    omega
  · obtain ⟨hj1, hj2⟩ := hsame j hj
    exact ⟨hj1.trans (by rw [hcur]), hj2.trans (by rw [hdisc])⟩
  · rw [hchosen, if_pos hne]
  · rw [hmark, decide_eq_false hne]
  · rw [hchosen, if_neg (not_not.mpr heq)]
  · rw [hmark, decide_eq_true heq]

/-- Settles O19: the scan meets the pending bit first among the pending ones, or finds none and clears every mark. -/
theorem advanceFindsHighestPending : Obligations.AdvanceFindsHighestPending := by
  refine fun s => ⟨fun i hi hmark hcur habove => ?_, searchAdvance_of_no_pending⟩
  obtain ⟨disc, hmarks, hadvance⟩ := searchAdvance_of_pending hi hmark hcur habove
  refine ⟨searchAdvance s, rfl, rfl, ?_⟩
  rw [hadvance]
  refine ⟨?_, fun j => ?_, hmarks⟩
  · rw [BitVec.toNat_ofNat, Nat.mod_eq_of_lt (by omega)]
  · rw [setBit_getLsbD _ _ _ _ hi]
    by_cases hj : j = i <;> simp [hj]

end Sys2Proof.Claims
end

section
/-! PROOF. How often a discovery run pulls the line low (42_search_engine R173): once for each waveform. -/

namespace Sys2Proof.Machine

open Claims

/-! ### The waveforms -/

theorem lowEvents_append (l l' : List LineEvent) : lowEvents (l ++ l') = lowEvents l + lowEvents l' := List.countP_append

theorem lowEvents_flatMap {events : Bool → List LineEvent} {n : Nat} (h : ∀ b, lowEvents (events b) = n) (bs : List Bool) :
    lowEvents (bs.flatMap events) = bs.length * n := by
  induction bs with
  | nil => exact (Nat.zero_mul n).symm
  | cons b bs ih => rw [List.flatMap_cons, lowEvents_append, h, ih, List.length_cons, Nat.succ_mul, Nat.add_comm]

theorem lowEvents_lineMoved (events : List LineEvent) (n : Nat) (s : State) :
    lowEvents (lineMoved events n s).lineLog = lowEvents events + lowEvents s.lineLog := by
  rw [lineMoved, lowEvents_append, lowEvents, List.countP_reverse]
  rfl

theorem lowEvents_busReset (s : State) : lowEvents (busReset s).2.lineLog = 1 + lowEvents s.lineLog := by
  obtain ⟨bs, -, -, hreset⟩ := busReset_eq_lineMoved s
  rw [hreset, lowEvents_lineMoved, busResetEvents, lowEvents_append, lowEvents_append, lowEvents_flatMap (n := 0) fun _ => rfl]
  rfl

theorem lowEvents_writeByte (v : Byte) (s : State) : lowEvents (writeByte v s).lineLog = 8 + lowEvents s.lineLog := by
  rw [writeByte_eq_lineMoved, lowEvents_lineMoved, slotsEvents, lowEvents_flatMap (n := 1) fun _ => rfl]
  rfl

theorem lowEvents_readSlot (s : State) : lowEvents (readSlot s).2.lineLog = 1 + lowEvents s.lineLog := by
  rw [readSlot_eq_lineMoved, lowEvents_lineMoved]
  rfl

theorem lowEvents_settleBit (v c : Bool) (s : State) : lowEvents (settleBit v c s).lineLog = 1 + lowEvents s.lineLog := by
  rw [settleBit_eq_lineMoved, lowEvents_lineMoved]
  rfl

/-! ### A pass and a run -/

/-- Three waveforms for each position that is settled. -/
theorem lowEvents_walkBits_le (n : Nat) (s : State) : lowEvents (walkBits n s).2.lineLog ≤ lowEvents s.lineLog + n * 3 := by
  induction n generalizing s with
  | zero => exact le_rfl
  | succ n ih =>
    have hreads : lowEvents (readSlot (readSlot s).2).2.lineLog = 1 + (1 + lowEvents s.lineLog) := by
      rw [lowEvents_readSlot, lowEvents_readSlot]
    rw [walkBits_succ]
    split
    · show lowEvents (readSlot (readSlot s).2).2.lineLog ≤ _
      omega
    · have hwalk := ih (settleBit (readSlot s).1 (readSlot (readSlot s).2).1 (readSlot (readSlot s).2).2)
      rw [lowEvents_settleBit] at hwalk
      omega

/-- One bus reset, the eight slots of the command byte, and the walk over 64 positions. -/
theorem lowEvents_passWalk_le (s : State) : lowEvents (passWalk s).2.lineLog ≤ lowEvents s.lineLog + (1 + 8 + 64 * 3) := by
  have hwalk := lowEvents_walkBits_le 64 (passStart s)
  have hstart : lowEvents (passStart s).lineLog = 8 + (1 + lowEvents s.lineLog) := by
    rw [← lowEvents_busReset, passStart, searchCommand]
    exact lowEvents_writeByte (busReset s).2.cfg.cmdSearch (busReset s).2
  rw [passWalk]
  omega

theorem lowEvents_searchExit (st : Status) (s : State) : lowEvents (searchExit st s).lineLog = lowEvents s.lineLog := rfl

theorem lowEvents_searchNoPresence (s : State) : lowEvents (searchNoPresence s).lineLog = lowEvents s.lineLog := rfl

/-- Each pass that does not end the run takes a place for an address. -/
theorem lowEvents_searchPasses_le (room : Nat) (s : State) :
    lowEvents (searchPasses room s).lineLog ≤ lowEvents s.lineLog + (room + 1) * (1 + 8 + 64 * 3) := by
  induction room using Nat.strong_induction_on generalizing s with
  | h room ih =>
    have hreset := lowEvents_busReset s
    have hwalk := lowEvents_passWalk_le s
    rcases searchPasses_cases room s with ⟨-, he⟩ | ⟨-, -, he⟩ | ⟨-, -, -, he⟩ | ⟨room', t, -, -, rfl, ht, he⟩
    · rw [he, lowEvents_searchNoPresence]
      omega
    · rw [he, lowEvents_searchExit]
      omega
    · rw [he, lowEvents_searchExit]
      omega
    · have hlog : t.lineLog = (passWalk s).2.lineLog := by rw [ht]; rfl
      rw [← hlog] at hwalk
      rw [he]
      split
      · rw [lowEvents_searchExit]
        omega
      · have hrest := ih room' (Nat.lt_succ_self room') t
        omega

end Sys2Proof.Machine

namespace Sys2Proof.Claims

open Sys2Proof.Machine

/-- Settles O21: at most one pass for each place and one more, each of at most that many waveforms. -/
theorem discoverBounded : Obligations.DiscoverBounded := fun m s hl hm =>
  ⟨_, exec_discover_of_served hl hm, lowEvents_searchPasses_le m (searchStart m s)⟩

end Sys2Proof.Claims
end

section
/-! PROOF. The search machine (42_search_engine R174) against the structured text (R160): the text reads nothing of the phase, and
transition by transition the machine reaches what the text gives. -/

namespace Sys2Proof.Machine

/-! ### The phase -/

/-- The block with the search machine in phase `q`. -/
def atPhase (q : SeState) (s : State) : State := { s with seState := q }

theorem pollPresence_atPhase (q : SeState) (left k : Nat) (s : State) :
    pollPresence left k (atPhase q s) =
      ((pollPresence left k s).1, (pollPresence left k s).2.1, atPhase q (pollPresence left k s).2.2) := by
  induction left generalizing k s with
  | zero => rfl
  | succ left ih =>
    have hstep : ∀ s : State, pollPresence (left + 1) k s =
        if nextLevel (delay s.cfg.tPresPoll s) then pollPresence left (k + 1) (afterSample (delay s.cfg.tPresPoll s))
        else (true, k + 1, afterSample (delay s.cfg.tPresPoll s)) := fun _ => rfl
    have hlevel : nextLevel (delay (atPhase q s).cfg.tPresPoll (atPhase q s)) = nextLevel (delay s.cfg.tPresPoll s) := rfl
    have hsample : afterSample (delay (atPhase q s).cfg.tPresPoll (atPhase q s)) =
      atPhase q (afterSample (delay s.cfg.tPresPoll s)) := rfl
    rw [hstep, hstep, hlevel, hsample]
    split
    · exact ih (k + 1) _
    · rfl

theorem busReset_atPhase (q : SeState) (s : State) : busReset (atPhase q s) = ((busReset s).1, atPhase q (busReset s).2) := by
  have hpulse : lineRelease (delay (atPhase q s).cfg.tRstl (lineLow (atPhase q s))) =
    atPhase q (lineRelease (delay s.cfg.tRstl (lineLow s))) := rfl
  rw [busReset, hpulse, pollPresence_atPhase]
  rfl

theorem searchCommand_atPhase (q : SeState) (s : State) : searchCommand (atPhase q s) = atPhase q (searchCommand s) := by
  rw [searchCommand, searchCommand, writeByte_eq, writeByte_eq]
  rfl

theorem resolveBit_atPhase (q : SeState) (i : Nat) (v c : Bool) (s : State) :
    resolveBit i v c (atPhase q s) = ((resolveBit i v c s).1, atPhase q (resolveBit i v c s).2) := by
  have hcur : (atPhase q s).current = s.current := rfl
  have hdisc : (atPhase q s).discrepancy = s.discrepancy := rfl
  unfold resolveBit
  rw [hcur, hdisc]
  split
  · rfl
  · split <;> rfl

theorem settleBit_atPhase (q : SeState) (v c : Bool) (s : State) :
    settleBit v c (atPhase q s) = atPhase q (settleBit v c s) := by
  have hres := resolveBit_atPhase q s.bitIdx.toNat v c s
  rw [settleBit, show (atPhase q s).bitIdx = s.bitIdx from rfl, hres]
  rfl

/-! ### Runs of the machine -/

theorem seRun_add (j k : Nat) (m : SearchMachine) : seRun (j + k) m = seRun k (seRun j m) := by
  induction j generalizing m with
  | zero => rw [Nat.zero_add]; rfl
  | succ j ih => rw [Nat.succ_add]; exact ih (seStep m)

/-- In at most `k` transitions the machine takes the block from `s` to `t`, whatever probe bits it has latched. -/
def SeReaches (k : Nat) (s t : State) : Prop := ∀ m : SearchMachine, m.block = s → ∃ j ≤ k, (seRun j m).block = t

theorem SeReaches.refl (k : Nat) (s : State) : SeReaches k s s := fun _ hm => ⟨0, Nat.zero_le k, hm⟩

theorem SeReaches.trans {j k : Nat} {s t u : State} (h1 : SeReaches j s t) (h2 : SeReaches k t u) : SeReaches (j + k) s u := by
  intro m hm
  obtain ⟨a, ha, hta⟩ := h1 m hm
  obtain ⟨b, hb, hub⟩ := h2 (seRun a m) hta
  exact ⟨a + b, Nat.add_le_add ha hb, by rw [seRun_add, hub]⟩

theorem SeReaches.mono {j k : Nat} {s t : State} (h : SeReaches j s t) (hjk : j ≤ k) : SeReaches k s t := fun m hm =>
  let ⟨a, ha, hta⟩ := h m hm
  ⟨a, ha.trans hjk, hta⟩

theorem seReaches_of_seStep {s t : State} (h : ∀ v c, (seStep ⟨s, v, c⟩).block = t) : SeReaches 1 s t := by
  rintro ⟨_, v, c⟩ rfl
  exact ⟨1, le_rfl, h v c⟩

variable {s : State}

/-! ### The transitions -/

theorem seReaches_busReset (s : State) :
    SeReaches 1 (atPhase .busReset s)
      (if (busReset s).1 then atPhase .cmd (busReset s).2 else searchNoPresence (busReset s).2) := by
  refine seReaches_of_seStep fun v c => ?_
  have hstep : (seStep ⟨atPhase .busReset s, v, c⟩).block =
    if (busReset (atPhase .busReset s)).1 then atPhase .cmd (busReset (atPhase .busReset s)).2
    else searchNoPresence (busReset (atPhase .busReset s)).2 := rfl
  rw [hstep, busReset_atPhase]
  rfl

theorem seReaches_cmd (s : State) : SeReaches 1 (atPhase .cmd s) (atPhase .readTrue (searchCommand s)) := by
  refine seReaches_of_seStep fun v c => ?_
  have hstep : (seStep ⟨atPhase .cmd s, v, c⟩).block = atPhase .readTrue (searchCommand (atPhase .cmd s)) := rfl
  rw [hstep, searchCommand_atPhase]
  rfl

/-- Before position `bit_idx`, or past the last one. -/
def beforePosition (s : State) : State := atPhase (if s.bitIdx = 64#7 then .append else .readTrue) s

theorem seStep_readTrue (s : State) (v c : Bool) :
    seStep ⟨atPhase .readTrue s, v, c⟩ = ⟨atPhase .readComp (readSlot s).2, (readSlot s).1, c⟩ := rfl

theorem seStep_readComp (s : State) (v c : Bool) :
    seStep ⟨atPhase .readComp s, v, c⟩ = ⟨atPhase .resolve (readSlot s).2, v, (readSlot s).1⟩ := rfl

theorem seStep_resolve (s : State) (v c : Bool) :
    (seStep ⟨atPhase .resolve s, v, c⟩).block =
      if v && c then searchExit .protocolViolation s else beforePosition (settleBit v c s) := by
  have hstep : seStep ⟨atPhase .resolve s, v, c⟩ =
    if v && c then ⟨searchExit .protocolViolation (atPhase .resolve s), v, c⟩
    else ⟨beforePosition (settleBit v c (atPhase .resolve s)), v, c⟩ := rfl
  rw [hstep, settleBit_atPhase]
  split <;> rfl

/-- The two reads of a position and its resolving: the run ends on (1, 1), and else the position is settled. -/
theorem seReaches_position (s : State) :
    SeReaches 3 (atPhase .readTrue s)
      (if (readSlot s).1 && (readSlot (readSlot s).2).1 then searchExit .protocolViolation (readSlot (readSlot s).2).2
        else beforePosition (settleBit (readSlot s).1 (readSlot (readSlot s).2).1 (readSlot (readSlot s).2).2)) := by
  rintro ⟨_, v, c⟩ rfl
  refine ⟨3, le_rfl, ?_⟩
  rw [seRun, seStep_readTrue, seRun, seStep_readComp]
  exact seStep_resolve _ _ _

theorem seReaches_append (s : State) :
    SeReaches 1 (atPhase .append s)
      (if s.count = s.maxDev then searchExit .discoveryOverflow s else atPhase .advance (appendFound s)) :=
  seReaches_of_seStep fun _ _ => rfl

theorem seReaches_advance (s : State) :
    SeReaches 1 (atPhase .advance s)
      (if (searchAdvance s).lastBranchTaken = 64#7 then searchExit .ok (searchAdvance s)
        else atPhase .busReset (searchAdvance s)) :=
  seReaches_of_seStep fun _ _ => rfl

/-! ### A pass -/

/-- What the machine has reached with a walk over the positions: the append, or the exit on a pair (1, 1). -/
def afterWalk (w : Bool × State) : State := if w.1 then atPhase .append w.2 else searchExit .protocolViolation w.2

theorem seReaches_walk (n : Nat) (s : State) (hn : s.bitIdx.toNat + n = 64) :
    SeReaches (n * 3) (beforePosition s) (afterWalk (walkBits n s)) := by
  induction n generalizing s with
  | zero =>
    have hend : s.bitIdx = 64#7 := BitVec.eq_of_toNat_eq (by simpa using hn)
    rw [beforePosition, if_pos hend]
    exact .refl _ _
  | succ n ih =>
    have hread : beforePosition s = atPhase .readTrue s := by
      rw [beforePosition, if_neg]
      intro hend
      rw [hend] at hn
      simp at hn
    have hposition := seReaches_position s
    rw [hread, walkBits_succ, Nat.succ_mul, Nat.add_comm]
    split at hposition
    case isTrue hpair =>
      rw [if_pos hpair]
      exact hposition.mono (by omega)
    case isFalse hpair =>
      rw [if_neg hpair]
      refine hposition.trans (ih _ ?_)
      rw [settleBit_bitIdx, readSlot_bitIdx, readSlot_bitIdx, BitVec.toNat_add, BitVec.toNat_ofNat]
      omega

/-- A pass that sees presence, as far as its walk. -/
theorem seReaches_passWalk (h : (busReset s).1 = true) : SeReaches 194 (atPhase .busReset s) (afterWalk (passWalk s)) := by
  have hreset := seReaches_busReset s
  rw [if_pos h] at hreset
  have hbefore : beforePosition (passStart s) = atPhase .readTrue (passStart s) := rfl
  exact (hreset.trans (seReaches_cmd _)).trans (hbefore ▸ seReaches_walk 64 (passStart s) rfl)

/-- A pass to its append. -/
theorem seReaches_append_of_walk (hr : (busReset s).1 = true) (hw : (passWalk s).1 = true) :
    SeReaches 194 (atPhase .busReset s) (atPhase .append (passWalk s).2) := by
  have hwalk := seReaches_passWalk hr
  rwa [afterWalk, if_pos hw] at hwalk

/-- The machine reaches the end of a run in at most 196 transitions a pass: 1 for the bus reset, 1 for the command byte, 3 for each of 64
positions, 1 for the append and 1 for the advance. -/
theorem seReaches_searchPasses (room : Nat) (s : State) (h : s.count + room = s.maxDev) :
    SeReaches (196 * (room + 1)) (atPhase .busReset s) (searchPasses room s) := by
  induction room using Nat.strong_induction_on generalizing s with
  | h room ih =>
    obtain ⟨hwalkOnly, -⟩ := passWalk_spec s
    have hcount := hwalkOnly.count_eq
    have hmax := hwalkOnly.maxDev_eq
    have happend := seReaches_append (passWalk s).2
    rcases searchPasses_cases room s with ⟨hr, he⟩ | ⟨hr, hw, he⟩ | ⟨hr, hw, h0, he⟩ | ⟨room', t, hr, hw, rfl, ht, he⟩
    · have hreset := seReaches_busReset s
      rw [if_neg (by simp [hr])] at hreset
      exact he ▸ hreset.mono (by omega)
    · have hwalk := seReaches_passWalk hr
      rw [afterWalk, if_neg (by simp [hw])] at hwalk
      exact he ▸ hwalk.mono (by omega)
    · rw [if_pos (by omega)] at happend
      exact he ▸ ((seReaches_append_of_walk hr hw).trans happend).mono (by omega)
    · rw [if_neg (by omega)] at happend
      have hpass := ((seReaches_append_of_walk hr hw).trans happend).trans (seReaches_advance _)
      rw [← ht] at hpass
      rw [he]
      split at hpass
      case isTrue hend =>
        rw [if_pos hend]
        exact hpass.mono (by omega)
      case isFalse hend =>
        rw [if_neg hend]
        obtain ⟨-, hmax', hcount', -⟩ := searchFound_spec s
        rw [← ht] at hmax' hcount'
        exact (hpass.trans (ih room' (Nat.lt_succ_self room') t (by omega))).mono (by omega)

end Sys2Proof.Machine

namespace Sys2Proof.Claims

open Sys2Proof.Machine

/-- Settles O20: the accepted `DISCOVER` is the machine before the first bus reset, from which it reaches the end of the run. -/
theorem searchMachineFollowsText : Obligations.SearchMachineFollowsText := by
  intro m s hl hm
  obtain ⟨k, hk, hend⟩ := seReaches_searchPasses m (searchStart m s) (Nat.zero_add m) (seStart m s) rfl
  refine ⟨k, hk, ?_, ?_⟩ <;> rw [hend]
  · exact (searchRun_discover m s).idle
  · exact exec_discover_of_served hl hm

end Sys2Proof.Claims
end

section
/-! PROOF. The commands of the transfer engine (43_transfer_engine): the fetch, and what each command does in each phase. -/

namespace Sys2Proof.Machine

open Claims

variable {s : State} {w : QWord} {n : Nat} {v : BitVec 16}

/-! ### The step of each phase -/

theorem engineStep_of_reserved_fetch {r : List QWord} {e : Reject} (hs : s.engState = .fetch) (hq : s.txq = w :: r)
    (hd : decodeCommand w = .error e) : engineStep s = .next (reservedFetched (txFetch w r s)) := by
  simp only [engineStep, fetchStep, hs, hq, hd]

theorem engineStep_of_exec {i : Instr} (hs : s.engState = .exec) (hd : decodeCommand s.engCmd = .ok i) :
    engineStep s = exec i s := by
  simp only [engineStep, hs, hd]

theorem engineStep_of_push (hs : s.engState = .push) : engineStep s = .next (pushStep s) := by
  simp only [engineStep, hs]

theorem pushStep_of_room (h : s.rxq.length < 4) : pushStep s = deliverResult s := by
  simp [pushStep, (rxFull_eq_false_iff s).mpr h]

/-! ### The commands, phase by phase -/

theorem exec_reset_of_fetch (hs : s.engState = .fetch) : exec .reset s = .next (resetPulse s) := by
  simp only [exec, execReset, hs]

theorem exec_waitIdle_of_fetch (hs : s.engState = .fetch) : exec .waitIdle s = .next { s with engState := .exec } := by
  simp only [exec, execWaitIdle, hs]

theorem exec_waitIdle_of_exec (hs : s.engState = .exec) :
    exec .waitIdle s =
      .next { s with
        samples := s.samples.drop 1
        lineLog := .sample (nextLevel s) :: s.lineLog
        engState := if nextLevel s then .fetch else .exec } := by
  simp only [exec, execWaitIdle, hs, waitIdleStep, lineSample]
  split <;> simp [afterSample, *]

/-- A sample reads the level that waits, or one that no level waiting decides (20_memory R78). -/
theorem levelsGiven_nextLevel (s : State) : levelsGiven [nextLevel s] s := by
  cases hs : s.samples with
  | nil => exact .inr (hs ▸ List.nil_prefix)
  | cons b bs => exact .inl (by simp [hs, nextLevel])

theorem exec_wrBits_of_fetch (hs : s.engState = .fetch) :
    exec (.wrBits n v) s = .next { s with engOsr := v, engBitcnt := BitVec.ofNat 6 n, engState := .exec } := by
  simp only [exec, execWrBits, hs]

theorem exec_wrBits_of_exec (hs : s.engState = .exec) :
    exec (.wrBits n v) s =
      .next { lineMoved (slotEvents s.cfg (s.engOsr.getLsbD 0)) 0 s with
        engOsr := s.engOsr >>> 1
        engBitcnt := s.engBitcnt - 1#6
        engState := if (s.engBitcnt - 1#6).toNat = 0 then .fetch else .exec } := by
  simp only [exec, execWrBits, hs, wrBitsSlot, ← BitVec.toNat_inj]
  rfl

theorem exec_rdBits_of_fetch (hs : s.engState = .fetch) :
    exec (.rdBits n) s = .next { s with engIsr := 0#32, engBitcnt := BitVec.ofNat 6 n, engState := .exec } := by
  simp only [exec, execRdBits, hs]

theorem exec_rdBits_of_exec (hs : s.engState = .exec) :
    exec (.rdBits n) s =
      .next { lineMoved (readEvents s.cfg (readLevel s)) 1 s with
        engIsr := shiftIn (readLevel s) s.engIsr
        engBitcnt := s.engBitcnt - 1#6
        engState := if (s.engBitcnt - 1#6).toNat = 0 then .push else .exec } := by
  simp only [exec, execRdBits, hs, rdBitsSlot, readSlot_eq_lineMoved, ← BitVec.toNat_inj]
  rfl

theorem exec_rdBits_of_push (hs : s.engState = .push) : exec (.rdBits n) s = .next (pushStep s) := by
  simp only [exec, execRdBits, hs]

end Sys2Proof.Machine

namespace Sys2Proof.Claims

open Sys2Proof.Machine

/-- Settles O37: the head of `TXQ` is decoded, and what the decoder rejects stops the engine. -/
theorem fetchStep : Obligations.FetchStep := fun _ _ _ hs hq =>
  ⟨engineReady_of_fetch hs hq, fun _ hd => engineStep_of_reserved_fetch hs hq hd, fun _ hd => engineStep_of_fetch hs hq hd⟩

/-- Settles O39: the word, and the pulse as its four events. -/
theorem engineResetEffect : Obligations.EngineResetEffect := ⟨rfl, fun _ hs => exec_reset_of_fetch hs⟩

/-- Settles O40: the word, the entry to `ENG_EXEC`, and there one sample a step. -/
theorem waitIdleEffect : Obligations.WaitIdleEffect :=
  ⟨rfl, fun s => ⟨exec_waitIdle_of_fetch, fun hs => ⟨nextLevel s, levelsGiven_nextLevel s, exec_waitIdle_of_exec hs⟩⟩⟩

/-- Settles O41: the set-up, and a slot that leaves one fewer to run. -/
theorem wrBitsEffect : Obligations.WrBitsEffect := fun _ _ _ _ _ =>
  ⟨exec_wrBits_of_fetch, fun hs hb => ⟨_, engBitcnt_pred _ hb, exec_wrBits_of_exec hs⟩⟩

/-- Settles O42: the set-up, a slot that leaves one fewer to run, and the delivery as far as `RXQ` has room. -/
theorem rdBitsEffect : Obligations.RdBitsEffect := by
  refine fun n s _ _ => ⟨exec_rdBits_of_fetch, fun hs hb => ?_, fun hs hroom => ?_, fun hs hfull => ?_⟩
  · refine ⟨readLevel s, s.engBitcnt - 1#6, shiftIn (readLevel s) s.engIsr, levelsGiven_readLevel s, engBitcnt_pred _ hb, ?_, ?_,
      exec_rdBits_of_exec hs⟩
    · rw [shiftIn_getLsbD _ _ _ (by omega), if_pos rfl]
    · intro k hk
      rw [shiftIn_getLsbD _ _ _ (by omega), if_neg (by omega)]
  · rw [engineStep_of_push hs, pushStep_of_room hroom]
    exact ⟨rfl, by rw [exec_rdBits_of_push hs, pushStep_of_room hroom]⟩
  · simp only [engineReady, hs, (rxFull_iff s).mpr hfull.ge, Bool.not_true]

end Sys2Proof.Claims
end

section
/-! PROOF. A command run over all its slots (43_transfer_engine R196, R198): the bits of `eng_osr` written from bit 0 on, the samples packed
at the top of `eng_isr` (20_memory R72, R73). -/

namespace Sys2Proof.Machine

open Claims

variable {s t : State} {n : Nat} {v : BitVec 16}

theorem runSteps_succ {f : State → Result} (h : f s = .next t) (m : Nat) : runSteps f (m + 1) s = runSteps f m t := by
  simp only [runSteps, h]

theorem engBitcnt_pred_toNat {x : BitVec 6} {m : Nat} (h : x.toNat = m + 1) : (x - 1#6).toNat = m :=
  Nat.succ.inj ((engBitcnt_pred x (by omega)).trans h)

theorem slotCount_toNat (h : n ≤ 32) : (BitVec.ofNat 6 n).toNat = n := by
  rw [BitVec.toNat_ofNat, Nat.mod_eq_of_lt (by omega)]

theorem lowBits_succ {k : Nat} (m : Nat) (x : BitVec k) : lowBits (m + 1) x = x.getLsbD 0 :: lowBits m (x >>> 1) := by
  simp [lowBits, List.range_succ_eq_map, Function.comp_def, Nat.add_comm]

/-- The slots left of a `WRBITS` write the low bits of `eng_osr`, bit 0 first, and end the command (43_transfer_engine R196). -/
theorem runSteps_wrBits (m : Nat) (hs : s.engState = .exec) (hd : decodeCommand s.engCmd = .ok (.wrBits n v))
    (hb : s.engBitcnt.toNat = m + 1) :
    runSteps engineStep (m + 1) s =
      .next { lineMoved (slotsEvents s.cfg (lowBits (m + 1) s.engOsr)) 0 s with
        engOsr := s.engOsr >>> (m + 1)
        engBitcnt := 0#6
        engState := .fetch } := by
  induction m generalizing s with
  | zero =>
    have hone : s.engBitcnt = 1#6 := BitVec.eq_of_toNat_eq hb
    rw [runSteps_succ ((engineStep_of_exec hs hd).trans (exec_wrBits_of_exec hs))]
    simp [runSteps, hone, lowBits, slotsEvents]
  | succ m ih =>
    have hleft := engBitcnt_pred_toNat hb
    have hmore : (s.engBitcnt - 1#6).toNat ≠ 0 := by simp [hleft]
    rw [runSteps_succ ((engineStep_of_exec hs hd).trans (exec_wrBits_of_exec hs))]
    refine Eq.trans (ih (if_neg hmore) hd hleft) ?_
    have hosr : s.engOsr >>> 1 >>> (m + 1) = s.engOsr >>> (m + 1 + 1) := by rw [← BitVec.shiftRight_add, Nat.add_comm]
    simp [lineMoved, lowBits_succ (m + 1), slotsEvents, hosr]

/-- The shift register after these samples, the first shifted in first (43_transfer_engine R198). -/
def shiftInAll (bs : List Bool) (isr : QWord) : QWord := bs.foldl (fun isr b => shiftIn b isr) isr

/-- The samples stand at the top, the first lowest, over what was there, moved down. -/
theorem shiftInAll_getLsbD (bs : List Bool) (isr : QWord) (hlen : bs.length ≤ 32) (k : Nat) (hk : k < 32) :
    (shiftInAll bs isr).getLsbD k =
      if k < 32 - bs.length then isr.getLsbD (k + bs.length) else bs.getD (k - (32 - bs.length)) false := by
  induction bs generalizing isr with
  | nil => simp [shiftInAll, hk]
  | cons b bs ih =>
    simp only [List.length_cons] at hlen ⊢
    have hrec : (shiftInAll (b :: bs) isr).getLsbD k = _ := ih (shiftIn b isr) (by omega)
    rw [hrec]
    rcases Nat.lt_trichotomy k (31 - bs.length) with h | h | h
    · rw [if_pos (by omega), if_pos (by omega), shiftIn_getLsbD _ _ _ (by omega), if_neg (by omega), Nat.add_assoc]
    · rw [if_pos (by omega), if_neg (by omega), shiftIn_getLsbD _ _ _ (by omega), if_pos (by omega),
        show k - (32 - (bs.length + 1)) = 0 by omega, List.getD_cons_zero]
    · rw [if_neg (by omega), if_neg (by omega), show k - (32 - (bs.length + 1)) = k - (32 - bs.length) + 1 by omega,
        List.getD_cons_succ]

/-- The slots left of a `RDBITS` shift in the levels that wait and end in `ENG_PUSH` (43_transfer_engine R198). -/
theorem runSteps_rdBits (b : Bool) (bs rest : List Bool) (hs : s.engState = .exec)
    (hd : decodeCommand s.engCmd = .ok (.rdBits n)) (hb : s.engBitcnt.toNat = bs.length + 1)
    (hsm : s.samples = b :: bs ++ rest) :
    runSteps engineStep (bs.length + 1) s =
      .next { lineMoved ((b :: bs).flatMap (readEvents s.cfg)) (bs.length + 1) s with
        engIsr := shiftInAll (b :: bs) s.engIsr
        engBitcnt := 0#6
        engState := .push } := by
  induction bs generalizing b s with
  | nil =>
    have hone : s.engBitcnt = 1#6 := BitVec.eq_of_toNat_eq hb
    rw [runSteps_succ ((engineStep_of_exec hs hd).trans (exec_rdBits_of_exec hs)), readLevel_of_samples hsm]
    simp [runSteps, hone, shiftInAll]
  | cons b' bs ih =>
    have hleft := engBitcnt_pred_toNat hb
    have hmore : (s.engBitcnt - 1#6).toNat ≠ 0 := by simp [hleft]
    have htail : s.samples.drop 1 = b' :: bs ++ rest := by rw [hsm]; rfl
    rw [runSteps_succ ((engineStep_of_exec hs hd).trans (exec_rdBits_of_exec hs)), readLevel_of_samples hsm]
    refine Eq.trans (ih b' (if_neg hmore) hd hleft htail) ?_
    simp [lineMoved, shiftInAll]

end Sys2Proof.Machine

namespace Sys2Proof.Claims

open Sys2Proof.Machine

/-- Settles O44: the samples are shifted in one by one, and stand where the extraction takes them from. -/
theorem readCommandPacks : Obligations.ReadCommandPacks := by
  rintro n s (_ | ⟨b, bs⟩) rest h1 h2 rfl hs hd hsm
  · cases h1
  have hbit := shiftInAll_getLsbD (b :: bs) 0#32 h2
  refine ⟨_, shiftInAll (b :: bs) 0#32, exec_rdBits_of_fetch hs, runSteps_rdBits b bs rest rfl hd (slotCount_toNat h2) hsm, ?_, ?_, ?_⟩
  · intro k hk
    rw [hbit _ (by omega), if_neg (by omega), Nat.add_sub_cancel_left]
  · intro k hk
    rw [hbit k (by omega), if_pos hk, BitVec.getLsbD_zero]
  · intro k
    rw [extract, BitVec.getLsbD_ushiftRight]
    by_cases hk : k < (b :: bs).length
    · rw [hbit _ (by omega), if_neg (by omega), Nat.add_sub_cancel_left]
    · rw [BitVec.getLsbD_of_ge _ _ (by omega), List.getD_eq_default _ _ (by omega)]

/-- Settles O43: the set-up, then one slot for each bit. -/
theorem writeCommandRuns : Obligations.WriteCommandRuns := by
  intro n v s h1 h2 hs hd
  obtain ⟨m, rfl⟩ : ∃ m, n = m + 1 := ⟨n - 1, by omega⟩
  exact ⟨_, exec_wrBits_of_fetch hs, runSteps_wrBits m rfl hd (slotCount_toNat (by omega))⟩

end Sys2Proof.Claims
end

section
/-! PROOF. The transitions of `eng_state` (43_transfer_engine R200), and what each agent leaves alone (00_scope R16). -/

namespace Sys2Proof.Machine

variable {s t : State} {w : QWord} {i : Instr}

/-! ### The transitions of `eng_state` -/

/-- A command word by its fields (30_encoding R97). -/
theorem decodeCommand_fields (h : decodeCommand w = .ok i) :
    (w = 0x10000000#32 ∧ i = .reset) ∨ (w = 0x20000000#32 ∧ i = .waitIdle) ∨
      (w.extractLsb' 20 12 = 0x300#12 ∧ ∃ n v, i = .wrBits n v) ∨ (w.extractLsb' 5 27 = 0x2000000#27 ∧ ∃ n, i = .rdBits n) := by
  rcases decodeCommand_cases h with hi | hi | ⟨hw, hi⟩ | ⟨hw, hi⟩
  · exact .inl hi
  · exact .inr (.inl hi)
  · exact .inr (.inr (.inl ⟨wrBits_mask_iff.mp hw, _, _, hi⟩))
  · exact .inr (.inr (.inr ⟨rdBits_mask_iff.mp hw, _, hi⟩))

theorem engState_of_fetch (hd : decodeCommand w = .ok i) (hs : s.engState = .fetch) (h : exec i s = .next t) :
    (w = 0x10000000#32 ∧ t.engState = .fetch) ∨
      ((w = 0x20000000#32 ∨ w.extractLsb' 20 12 = 0x300#12 ∨ w.extractLsb' 5 27 = 0x2000000#27) ∧ t.engState = .exec) := by
  obtain ⟨-, -, hphase⟩ := exec_of_fetch hd hs h
  rcases decodeCommand_fields hd with ⟨hw, rfl⟩ | ⟨hw, rfl⟩ | ⟨hw, n, v, rfl⟩ | ⟨hw, n, rfl⟩ <;>
    rcases hphase with ⟨hi, ht, -⟩ | ⟨ht, hi, -⟩
  · exact .inl ⟨hw, ht⟩
  · cases hi
  · cases hi
  · exact .inr ⟨.inl hw, ht⟩
  · cases hi
  · exact .inr ⟨.inr (.inl hw), ht⟩
  · cases hi
  · exact .inr ⟨.inr (.inr hw), ht⟩

theorem lastSlot_iff (x : BitVec 6) : (x - 1#6).toNat = 0 ↔ x = 1#6 := by revert x; decide

theorem engState_of_slot (hd : decodeCommand w = .ok i) (hi : slotCommand i = true) (hs : s.engState = .exec)
    (h : exec i s = .next t) :
    (w = 0x20000000#32 ∧ t.engState = if nextLevel s then .fetch else .exec) ∨
      (w.extractLsb' 20 12 = 0x300#12 ∧ t.engState = if s.engBitcnt = 1#6 then .fetch else .exec) ∨
      (w.extractLsb' 5 27 = 0x2000000#27 ∧ t.engState = if s.engBitcnt = 1#6 then .push else .exec) := by
  rcases decodeCommand_fields hd with ⟨-, rfl⟩ | ⟨hw, rfl⟩ | ⟨hw, n, v, rfl⟩ | ⟨hw, n, rfl⟩
  · cases hi
  · rw [exec_waitIdle_of_exec hs] at h
    injection h with h
    exact .inl ⟨hw, h ▸ rfl⟩
  · simp only [exec_wrBits_of_exec hs, lastSlot_iff] at h
    injection h with h
    exact .inr (.inl ⟨hw, h ▸ rfl⟩)
  · simp only [exec_rdBits_of_exec hs, lastSlot_iff] at h
    injection h with h
    exact .inr (.inr ⟨hw, h ▸ rfl⟩)

theorem slotWord_iff : slotWord w = true ↔ ∃ i, decodeCommand w = .ok i ∧ slotCommand i = true := by
  unfold slotWord
  cases decodeCommand w <;> simp

/-! ### An agent's step, and the fault of the engine under each agent -/

/-- A step is one of an agent, with a choice perhaps used up, or nothing. -/
theorem step_agent_cases (h : step s = .next t) :
    (∃ a ts n, agentStep a { s with turns := ts, turnDraws := n } = .next t) ∨ t = s := by
  rcases step_cases h with ⟨a, u, -, rfl | rfl, ha⟩ | ⟨-, rfl⟩
  · exact .inl ⟨a, u.turns, u.turnDraws, ha⟩
  · exact .inl ⟨a, _, _, by rwa [← afterTurn_eq]⟩
  · exact .inr rfl

theorem engineStep_of_fault (hs : s.engState = .fault) : engineStep s = .next s := by
  simp only [engineStep, hs]

/-- The state keeps the engine in `ENG_FAULT`, with every word of `TXQ` in its place. -/
def FaultKept (s t : State) : Prop := t.engState = .fault ∧ t.engFault = s.engFault ∧ ∃ ws, t.txq = s.txq ++ ws

theorem faultKept_hostStep (hs : s.engState = .fault) (hl : s.lifecycle = .armed) (h : hostStep s = .next t) : FaultKept s t := by
  obtain ⟨is, hframe⟩ := hostOnly_hostStep_of_armed hl h
  obtain ⟨hfault, hstate⟩ := hframe.engine_eq
  refine ⟨hstate.trans hs, hfault, ?_⟩
  rcases (hostFifo_hostStep_of_armed hl h).1 with htx | ⟨w, htx⟩
  · exact ⟨[], by rw [htx, List.append_nil]⟩
  · exact ⟨[w], htx⟩

/-- Armed and in `ENG_FAULT`, a step is a block reset or keeps the fault (43_transfer_engine R193). -/
theorem step_of_fault (hs : s.engState = .fault) (hl : s.lifecycle = .armed) (h : step s = .next t) :
    (∃ is, s.inputs = .blockReset :: is ∧ t.inputs = is ∧ t.epoch = s.epoch + 1) ∨ FaultKept s t := by
  have same : FaultKept s s := ⟨hs, rfl, [], (List.append_nil _).symm⟩
  rcases step_agent_cases h with ⟨a, ts, n, ha⟩ | rfl
  · cases a with
    | host => exact .inr (faultKept_hostStep (s := { s with turns := ts, turnDraws := n }) hs hl ha)
    | engine =>
      have hstay := engineStep_of_fault (s := { s with turns := ts, turnDraws := n }) hs
      rw [agentStep, hstay] at ha
      injection ha with ha
      exact .inr (ha ▸ same)
    | platform =>
      rcases platformStep_lifecycle ha with rfl | ⟨-, hreset⟩
      · exact .inr same
      · exact .inl hreset
  · exact .inr same

/-! ### The parameters (10_state R21) -/

theorem HostOnly.cfg_eq (h : HostOnly s t) : t.cfg = s.cfg := by unfold HostOnly at h; rw [h]

theorem EngineOnly.cfg_eq (h : EngineOnly s t) : t.cfg = s.cfg := by unfold EngineOnly at h; rw [h]

theorem SearchOnly.cfg_eq (h : SearchOnly s t) : t.cfg = s.cfg := by unfold SearchOnly at h; rw [h]

theorem Served.cfg_eq (h : Served s t) : t.cfg = s.cfg := by
  cases h with
  | error e h => rw [h]; rfl
  | crc st d c h => rw [h]; rfl
  | line d n new hl h => rw [h]; rfl
  | search m hl hm h => rw [h]; exact (searchRun_discover m s).frame.cfg_eq
  | armed hl h => rw [h]; rfl
  | access b todo fin hl hne h => rw [h]; exact (hostOnly_startOp b todo fin s).cfg_eq

theorem hostStep_cfg (h : hostStep s = .next t) : t.cfg = s.cfg := by
  rcases hostStep_cases h with ⟨-, rfl⟩ | ⟨b, a, rest, fin, -, rfl⟩ | ⟨b, fin, -, rfl⟩ | ⟨code, arg, is, i, -, -, hd, he⟩ |
    ⟨code, arg, is, -, -, rfl⟩ | ⟨i, v, is, -, -, rfl⟩
  · rfl
  · exact (hostOnly_hostAccess b a rest fin s).cfg_eq
  · exact (hostOnly_finishOp fin s).cfg_eq
  · exact (exec_served (s := { s with inputs := is }) hd he).cfg_eq
  · rfl
  · rfl

theorem platformStep_cfg (h : platformStep s = .next t) : t.cfg = s.cfg := by
  rcases platformStep_cases h with rfl | ⟨is, -, rfl⟩ <;> rfl

theorem step_cfg (h : step s = .next t) : t.cfg = s.cfg :=
  step_keeps (P := fun u => u.cfg = s.cfg) (fun u hu => by rw [afterTurn_eq]; exact hu) (fun _ _ hu hs => (hostStep_cfg hs).trans hu)
    (fun _ _ hu hs => (engineOnly_engineStep hs).cfg_eq.trans hu) (fun _ _ hu hs => (platformStep_cfg hs).trans hu) rfl h

end Sys2Proof.Machine

namespace Sys2Proof.Claims

open Sys2Proof.Machine

/-- Settles O45: one case for each phase in which the engine has a step. -/
theorem engineTransitions : Obligations.EngineTransitions := by
  intro s hready
  cases hs : s.engState with
  | off => simp [engineReady, hs] at hready
  | fault => simp [engineReady, hs] at hready
  | fetch =>
    have hne : s.txq ≠ [] := fun hq => by simp [engineReady, hs, (txEmpty_iff s).mpr hq] at hready
    obtain ⟨w, r, hq⟩ := List.exists_cons_of_ne_nil hne
    cases hd : decodeCommand w with
    | ok i =>
      obtain ⟨t, ht, -, htx, hcmd, -⟩ := exec_command hd (txFetch w r s)
      have hphase := engState_of_fetch hd (s := txFetch w r s) hs ht
      refine ⟨t, (engineStep_of_fetch hs hq hd).trans ht, .inl ⟨rfl, w, r, hq, htx, hcmd, ?_⟩⟩
      exact hphase.imp_right .inl
    | error e =>
      obtain rfl := decodeCommand_error hd
      exact ⟨_, engineStep_of_reserved_fetch hs hq hd, .inl ⟨rfl, w, r, hq, rfl, rfl, .inr (.inr ⟨hd, rfl, rfl⟩)⟩⟩
  | exec =>
    have hword : slotWord s.engCmd = true := by simpa [engineReady, hs] using hready
    obtain ⟨i, hd, hi⟩ := slotWord_iff.mp hword
    obtain ⟨t, ht, -, htx, hcmd, -⟩ := exec_command hd s
    obtain ⟨hrx, -⟩ := exec_of_exec hd hs ht
    exact ⟨t, (engineStep_of_exec hs hd).trans ht, .inr (.inl ⟨rfl, htx, hrx, hcmd, engState_of_slot hd hi hs ht⟩)⟩
  | push =>
    have hroom : s.rxq.length < 4 := by simpa [engineReady, hs, rxFull_eq_false_iff] using hready
    exact ⟨deliverResult s, by rw [engineStep_of_push hs, pushStep_of_room hroom], .inr (.inr ⟨rfl, hroom, rfl, rfl, rfl⟩)⟩

/-- Settles O38: the engine has no step, the host adds to `TXQ` only, and the platform resets the block. -/
theorem engineFaultIsForGood : Obligations.EngineFaultIsForGood := fun _ _ hs hl =>
  ⟨by simp only [engineReady, hs], fun h => step_of_fault hs hl h⟩

/-- Settles O54: the engine's frame, the host's once armed, and the parameters under each agent. -/
theorem agentsTouchOnlyTheirOwn : Obligations.AgentsTouchOnlyTheirOwn := by
  refine ⟨fun s t h => engineOnly_engineStep h, fun s t hl h => ?_, fun s t h => step_cfg h⟩
  obtain ⟨is, hframe⟩ := hostOnly_hostStep_of_armed hl h
  unfold HostOnly at hframe
  rw [hframe]

end Sys2Proof.Claims
end

section
/-! PROOF. A pop of a host operation with a word and with `RXQ` empty (20_memory R65), the operations that end with their push or their
pop (44_link_layer sections 2 and 3), and `ARM` (R221). -/

namespace Sys2Proof.Machine

open Claims

variable {s : State} {b : Bool} {use : PopUse} {n owed : Nat} {rest : List Access} {fin : Finish}

/-! ### A pop -/

theorem hostAccess_pop_of_empty_nonBlocking (h : s.rxq = []) :
    hostAccess false (.pop use owed) rest fin s = raise .queueEmpty owed s := by
  simp [hostAccess, h]

theorem hostAccess_pop_of_empty_blocking (h : s.rxq = []) :
    hostAccess true (.pop use owed) rest fin s = { s with hostOp := .running true (.pop use owed :: rest) fin } := by
  simp [hostAccess, h, hold]

/-- The pop of a result that is answered takes the head of `RXQ` and ends the operation with its top bits (44_link_layer R231, R232). -/
theorem hostAccess_popAnswer {w : QWord} {r : List QWord} (h : s.rxq = w :: r) :
    hostAccess b (.pop (.answer n) owed) [] fin s = answered 0#4 ((w >>> (32 - n)).setWidth 64) { s with rxq := r } := by
  simp only [hostAccess, h, usePopped, rxDequeue, List.tail_cons]
  rfl

theorem hostReady_pop_blocking (hop : s.hostOp = .running true (.pop use owed :: rest) fin) :
    hostReady s = true ↔ s.rxq ≠ [] := by
  simp [hostReady, hop, accessReady, rxEmpty_eq_false_iff]

theorem exec_pull (h1 : 1 ≤ n) (h2 : n ≤ 32) (hl : s.lifecycle = .armed) :
    exec (.llPull b n) s = .next (hostAccess b (.pop (.answer n) 0) [] (.reply 0#64) s) := by
  simp only [exec, execLlPull, needArmed_of_armed _ hl, (bitCountOk_iff n).mpr ⟨h1, h2⟩, checkSize, if_true]

end Sys2Proof.Machine

namespace Sys2Proof.Claims

open Sys2Proof.Machine

/-- Settles O23: served unarmed, `ARM` is its updates one after the other. -/
theorem armEffect : Obligations.ArmEffect := fun _ hl => needUnarmed_of_unarmed _ hl

/-- Settles O25: each of these operations is one push, which ends it when a slot is free. -/
theorem oneWordOperationsEnqueue : Obligations.OneWordOperationsEnqueue := by
  intro s b i w hi hl hroom
  rw [exec_pushesOne hi hl, hostAccess_push_of_room hroom]
  rfl

/-- Settles O28: the pull is one pop, and a blocking pop that finds no word is made again later. -/
theorem pullEffect : Obligations.PullEffect := by
  intro s b count hl h1 h2
  rw [exec_pull h1 h2 hl]
  refine ⟨fun w r hrx => by rw [hostAccess_popAnswer hrx], fun hrx hb => ?_, fun hrx hb => ?_⟩
  · rw [hb, hostAccess_pop_of_empty_nonBlocking hrx]
    rfl
  · rw [hb, hostAccess_pop_of_empty_blocking hrx]
    refine ⟨_, rfl, fun u hop => ⟨hostReady_pop_blocking hop, fun w r hrx' => ?_⟩⟩
    rw [hostStep_running hop, hostAccess_popAnswer hrx']

/-- Settles O29: the read is a push, behind which one pop is left. -/
theorem unitReadsEffect : Obligations.UnitReadsEffect := by
  intro s b i n hi hl hroom
  rw [exec_unitRead hi hl, hostAccess_push_of_room hroom]
  refine ⟨rfl, fun u hop => ⟨fun w r hrx => ?_, fun hrx hb => ?_, fun hrx hb => ?_⟩⟩
  · rw [hostStep_running hop, hostAccess_popAnswer hrx]
  · rw [hostStep_running hop, hb, hostAccess_pop_of_empty_nonBlocking hrx]
    rfl
  · rw [hb] at hop
    exact eq_false_of_ne_true fun hready => (hostReady_pop_blocking hop).mp hready hrx

end Sys2Proof.Claims
end

section
/-! PROOF. What starting an operation that reads the flag `B` leaves (44_link_layer R222), and the two disciplines: a blocking operation
ends with no queue error, a non-blocking one never holds (60_exceptions R276). -/

namespace Sys2Proof.Machine

open Claims

variable {s t : State} {i : Instr} {b : Bool} {a : Access} {todo rest : List Access} {fin : Finish}

/-! ### The start of an operation that reads the flag -/

/-- `t` is `s` with the request refused, or with the first access made of an operation that ends with an answer, or of a byte read. -/
def LinkStarts (b : Bool) (s t : State) : Prop :=
  (∃ e, (e = .wrongState ∨ e = .illegalSize) ∧ t = raise e 0 s) ∨
    ∃ a rest fin, t = hostAccess b a rest fin s ∧
      ((∃ d, fin = .reply d) ∨ ∃ count, fin = .check count ∧ a :: rest = readBytesAccesses b count)

theorem linkStarts_needArmed {served : State} (h : needArmed s served = .next t) (hs : LinkStarts b s served) :
    LinkStarts b s t := by
  cases hl : s.lifecycle with
  | unarmed => rw [needArmed_of_unarmed _ hl] at h; injection h with h; exact .inl ⟨_, .inl rfl, h.symm⟩
  | armed => rw [needArmed_of_armed _ hl] at h; injection h with h; exact h ▸ hs

theorem linkStarts_checkSize {served : State} (legal : Bool) (hs : legal = true → LinkStarts b s served) :
    LinkStarts b s (checkSize legal s served) := by
  cases legal with
  | true => exact hs rfl
  | false => exact .inl ⟨_, .inr rfl, rfl⟩

theorem linkStarts_reply (b : Bool) (a : Access) (rest : List Access) (d : Word64) (s : State) :
    LinkStarts b s (hostAccess b a rest (.reply d) s) := .inr ⟨a, rest, _, rfl, .inl ⟨d, rfl⟩⟩

theorem linkStarts_startOp (hne : todo ≠ [])
    (hfin : (∃ d, fin = .reply d) ∨ ∃ count, fin = .check count ∧ todo = readBytesAccesses b count) (s : State) :
    LinkStarts b s (startOp b todo fin s) := by
  obtain ⟨a, rest, rfl⟩ := List.exists_cons_of_ne_nil hne
  exact .inr ⟨a, rest, fin, rfl, hfin⟩

/-- Every operation that reads the flag starts with a queue access, unless it is refused. -/
theorem exec_linkStarts (hf : llFlag i = some b) (h : exec i s = .next t) : LinkStarts b s t := by
  cases i <;> cases hf
  case llReset | llWaitIdle | llWriteByte | llWriteWord | llSkipRom | llReadByte | llReadWord =>
    exact linkStarts_needArmed h (linkStarts_reply _ _ _ _ s)
  case llReadBits | llPull =>
    exact linkStarts_needArmed h (linkStarts_checkSize _ fun _ => linkStarts_reply _ _ _ _ s)
  case llMatchRom a =>
    exact linkStarts_needArmed h (linkStarts_startOp (by simp [matchRomAccesses, matchRomWords]) (.inl ⟨_, rfl⟩) s)
  case llReadBytes n =>
    exact linkStarts_needArmed h (linkStarts_checkSize _ fun hc =>
      linkStarts_startOp (readBytesAccesses_ne_nil b n hc) (.inr ⟨n, rfl, rfl⟩) s)

/-! ### Blocking: no queue error -/

/-- The operation goes on, or it has ended with `OK` or `ChecksumError`. -/
def GoesOnOrEndsWell (b : Bool) (t : State) : Prop :=
  (∃ rest fin, t.hostOp = .running b rest fin) ∨ (t.hostOp = .idle ∧ (t.rspStatus = 0#4 ∨ t.rspStatus = 4#4))

theorem goesOnOrEndsWell_finishOp (b : Bool) (fin : Finish) (s : State) : GoesOnOrEndsWell b (finishOp fin s) := by
  refine .inr ⟨finishOp_hostOp fin s, ?_⟩
  cases fin with
  | reply d => exact .inl rfl
  | check n =>
    simp only [finishOp, checkBuf, respond_rspStatus]
    split
    · exact .inl rfl
    · exact .inr rfl

theorem goesOnOrEndsWell_proceed (b : Bool) (rest : List Access) (fin : Finish) (s : State) :
    GoesOnOrEndsWell b (proceed b rest fin s) := by
  cases rest with
  | nil => exact goesOnOrEndsWell_finishOp b fin s
  | cons a as => exact .inl ⟨a :: as, fin, rfl⟩

theorem goesOnOrEndsWell_hostAccess (a : Access) (rest : List Access) (fin : Finish) (s : State) :
    GoesOnOrEndsWell true (hostAccess true a rest fin s) := by
  rcases hostAccess_cases true a rest fin s with ⟨e, n, hb, -⟩ | ⟨-, -, h⟩ | ⟨w, n, -, -, h⟩ | ⟨-, h⟩ | ⟨use, n, w, r, -, -, h⟩
  · cases hb
  · exact h ▸ .inl ⟨a :: rest, fin, rfl⟩
  · exact h ▸ goesOnOrEndsWell_proceed _ _ _ _
  · exact h ▸ goesOnOrEndsWell_proceed _ _ _ _
  · exact h ▸ goesOnOrEndsWell_proceed _ _ _ _

theorem hostStep_running_nil (hop : s.hostOp = .running b [] fin) : hostStep s = .next (finishOp fin s) := by
  simp only [hostStep, hop]

theorem goesOnOrEndsWell_hostStep (hop : s.hostOp = .running true todo fin) (h : hostStep s = .next t) :
    GoesOnOrEndsWell true t := by
  cases todo with
  | nil =>
    rw [hostStep_running_nil hop] at h
    injection h with h
    exact h ▸ goesOnOrEndsWell_finishOp _ _ _
  | cons a rest =>
    rw [hostStep_running hop] at h
    injection h with h
    exact h ▸ goesOnOrEndsWell_hostAccess _ _ _ _

/-! ### Non-blocking: no hold -/

/-- No access of a non-blocking operation waits. -/
theorem hostReady_nonBlocking (hop : s.hostOp = .running false todo fin) : hostReady s = true := by
  cases todo with
  | nil => simp only [hostReady, hop]
  | cons a rest => cases a <;> simp [hostReady, hop, accessReady]

theorem idle_or_ready_hostAccess (a : Access) (rest : List Access) (fin : Finish) (s : State) :
    (hostAccess false a rest fin s).hostOp = .idle ∨ hostReady (hostAccess false a rest fin s) = true := by
  rcases hostAccess_todo false a rest fin s with h | ⟨a', as, fin', h, -⟩
  · exact .inl h
  · exact .inr (hostReady_nonBlocking h)

theorem idle_or_ready_hostStep (hop : s.hostOp = .running false todo fin) (h : hostStep s = .next t) :
    t.hostOp = .idle ∨ hostReady t = true := by
  cases todo with
  | nil =>
    rw [hostStep_running_nil hop] at h
    injection h with h
    exact .inl (h ▸ finishOp_hostOp fin s)
  | cons a rest =>
    rw [hostStep_running hop] at h
    injection h with h
    exact h ▸ idle_or_ready_hostAccess a rest fin s

end Sys2Proof.Machine

namespace Sys2Proof.Claims

open Sys2Proof.Machine

/-- Settles O36: a blocking access raises nothing, a non-blocking one waits for nothing, and the start of an operation is an access. -/
theorem blockingDisciplines : Obligations.BlockingDisciplines := by
  refine ⟨fun i s t hf h hidle => ?_, fun i s t hf h => ?_, fun s t todo fin hop h => goesOnOrEndsWell_hostStep hop h,
    fun s t todo fin hop => ⟨hostReady_nonBlocking hop, fun h => idle_or_ready_hostStep hop h⟩⟩
  · rcases exec_linkStarts hf h with ⟨e, rfl | rfl, rfl⟩ | ⟨a, rest, fin, rfl, -⟩
    · simp [raise, Status.code]
    · simp [raise, Status.code]
    · rcases goesOnOrEndsWell_hostAccess a rest fin s with ⟨rest', fin', hrun⟩ | ⟨-, hst | hst⟩
      · simp [hrun] at hidle
      · simp [hst]
      · simp [hst]
  · rcases exec_linkStarts hf h with ⟨e, -, rfl⟩ | ⟨a, rest, fin, rfl, -⟩
    · exact .inl rfl
    · exact idle_or_ready_hostAccess a rest fin s

end Sys2Proof.Claims
end

section
/-! PROOF. A blocking pull that no read outstanding answers (44_link_layer R233): the engine alone keeps the number of outstanding reads. -/

namespace Sys2Proof.Machine

open Claims

/-- What a step of one agent keeps, a run of it keeps. -/
theorem runSteps_keeps {P : State → Prop} {f : State → Result} (hstep : ∀ s t, P s → f s = .next t → P t) {n : Nat} {s t : State}
    (hs : P s) (h : runSteps f n s = .next t) : P t := by
  induction n generalizing s with
  | zero =>
    injection h with h
    exact h ▸ hs
  | succ n ih =>
    cases hf : f s with
    | next u =>
      rw [runSteps_succ hf] at h
      exact ih (hstep s u hs hf) h
    | fault r => simp [runSteps, hf] at h
    | refused r => simp [runSteps, hf] at h

/-- With no read outstanding there is no result. -/
theorem rxq_of_outstandingReads_eq_zero {s : State} (h : outstandingReads s = 0) : s.rxq = [] := by
  simp only [outstandingReads, State.rxLevel] at h
  exact List.eq_nil_of_length_eq_zero (by omega)

end Sys2Proof.Machine

namespace Sys2Proof.Claims

open Sys2Proof.Machine

/-- Settles O56: no step of the engine makes a read, or touches the operation in progress. -/
theorem unmatchedPullHoldsForever : Obligations.UnmatchedPullHoldsForever := by
  intro s t use owed rest fin n hop h0 h
  obtain ⟨hreads, hkept⟩ : outstandingReads t = 0 ∧ t.hostOp = s.hostOp :=
    runSteps_keeps (P := fun u => outstandingReads u = 0 ∧ u.hostOp = s.hostOp)
      (fun u v ⟨hreads, hkept⟩ hv =>
        ⟨(engineStep_outstandingReads hv).trans hreads, (engineOnly_engineStep hv).hostOp_eq.trans hkept⟩) ⟨h0, rfl⟩ h
  have hempty := rxq_of_outstandingReads_eq_zero hreads
  exact ⟨hempty, hkept, eq_false_of_ne_true fun hready => (hostReady_pop_blocking (hkept.trans hop)).mp hready hempty⟩

end Sys2Proof.Claims
end

section
/-! PROOF. A non-blocking byte read past its checks (44_link_layer R236): its accesses come in three phases, each of which fits what its
check found, and what fits still fits after an access of the host and after a step of the engine. -/

namespace Sys2Proof.Machine

open Claims

/-! ### Accesses that fit the room and the results there are -/

/-- `checkedReadFits`, of the accesses still to make, with `tx` free slots and `rx` results. -/
def ReadFits (tx rx : Nat) (todo : List Access) : Prop :=
  leadingPushes todo ≤ tx ∧ leadingPops todo ≤ rx ∧
    ∃ pops : List Access, leadingPops pops = pops.length ∧
      (todo = pops ∨ ∃ pushes m, leadingPushes pushes = pushes.length ∧ m = pops.length ∧
        (todo = pushes ++ .ready m :: pops ∨ (m = pushes.length ∧ todo = .room m :: pushes ++ .ready m :: pops)))

theorem checkedReadFits_iff (s : State) :
    checkedReadFits s ↔ ∀ todo count, s.hostOp = .running false todo (.check count) →
      ReadFits (4 - s.txq.length) s.rxq.length todo := Iff.rfl

section Phases

variable {tx rx m : Nat} {a : Access} {pushes pops rest : List Access}

theorem pushes_cons (h : leadingPushes (a :: rest) = (a :: rest).length) :
    (∃ w n, a = .push w n) ∧ leadingPushes rest = rest.length := by
  cases a with
  | push w n => exact ⟨⟨w, n, rfl⟩, Nat.succ.inj h⟩
  | room | ready | pop => cases h

theorem pops_cons (h : leadingPops (a :: rest) = (a :: rest).length) :
    (∃ use n, a = .pop use n) ∧ leadingPops rest = rest.length := by
  cases a with
  | pop use n => exact ⟨⟨use, n, rfl⟩, Nat.succ.inj h⟩
  | room | ready | push => cases h

theorem leadingPushes_of_pops (h : leadingPops pops = pops.length) : leadingPushes pops = 0 := by
  cases pops with
  | nil => rfl
  | cons a rest =>
    obtain ⟨⟨use, n, rfl⟩, -⟩ := pops_cons h
    rfl

theorem leadingPushes_pushes_ready (h : leadingPushes pushes = pushes.length) :
    leadingPushes (pushes ++ .ready m :: rest) = pushes.length := by
  induction pushes with
  | nil => rfl
  | cons a pushes ih =>
    obtain ⟨⟨w, n, rfl⟩, hp⟩ := pushes_cons h
    exact congrArg (· + 1) (ih hp)

theorem leadingPops_pushes_ready (h : leadingPushes pushes = pushes.length) :
    leadingPops (pushes ++ .ready m :: rest) = 0 := by
  cases pushes with
  | nil => rfl
  | cons a pushes =>
    obtain ⟨⟨w, n, rfl⟩, -⟩ := pushes_cons h
    rfl

/-- The drain fits when there is a result for each pop. -/
theorem ReadFits.of_pops (hpops : leadingPops pops = pops.length) (hrx : pops.length ≤ rx) : ReadFits tx rx pops :=
  ⟨by rw [leadingPushes_of_pops hpops]; exact Nat.zero_le tx, by rwa [hpops], pops, hpops, .inl rfl⟩

/-- The pushes fit when there is a slot for each; the results are not counted yet. -/
theorem ReadFits.of_pushes (hpushes : leadingPushes pushes = pushes.length) (hpops : leadingPops pops = pops.length)
    (htx : pushes.length ≤ tx) : ReadFits tx rx (pushes ++ .ready pops.length :: pops) :=
  ⟨by rwa [leadingPushes_pushes_ready hpushes], by rw [leadingPops_pushes_ready hpushes]; exact Nat.zero_le rx, pops, hpops,
    .inr ⟨pushes, _, hpushes, rfl, .inl rfl⟩⟩

/-- Before its checks a byte read fits whatever there is. -/
theorem ReadFits.of_unchecked (hpushes : leadingPushes pushes = pushes.length) (hpops : leadingPops pops = pops.length)
    (hlen : pops.length = pushes.length) : ReadFits tx rx (.room pops.length :: pushes ++ .ready pops.length :: pops) :=
  ⟨Nat.zero_le tx, Nat.zero_le rx, pops, hpops, .inr ⟨pushes, _, hpushes, rfl, .inr ⟨hlen, rfl⟩⟩⟩

/-- The three phases: the drain; the pushes and the check of the results; the whole read, before the check for room. -/
theorem ReadFits.phases (h : ReadFits tx rx rest) :
    ∃ pops, leadingPops pops = pops.length ∧
      ((rest = pops ∧ pops.length ≤ rx) ∨ ∃ pushes, leadingPushes pushes = pushes.length ∧
        ((rest = pushes ++ .ready pops.length :: pops ∧ pushes.length ≤ tx) ∨
          (pops.length = pushes.length ∧ rest = .room pops.length :: (pushes ++ .ready pops.length :: pops)))) := by
  obtain ⟨htx, hrx, pops, hpops, rfl | ⟨pushes, m, hpushes, rfl, rfl | ⟨hlen, rfl⟩⟩⟩ := h
  · exact ⟨rest, hpops, .inl ⟨rfl, hpops ▸ hrx⟩⟩
  · rw [leadingPushes_pushes_ready hpushes] at htx
    exact ⟨pops, hpops, .inr ⟨pushes, hpushes, .inl ⟨rfl, htx⟩⟩⟩
  · exact ⟨pops, hpops, .inr ⟨pushes, hpushes, .inr ⟨hlen, rfl⟩⟩⟩

theorem ReadFits.mono {tx' rx' : Nat} (h : ReadFits tx rx rest) (htx : tx ≤ tx') (hrx : rx ≤ rx') : ReadFits tx' rx' rest := by
  obtain ⟨hpushes, hpops, hshape⟩ := h
  exact ⟨hpushes.trans htx, hpops.trans hrx, hshape⟩

/-! ### One access made -/

/-- What an access leaves to fit: a check passed finds as much as it asks for, a push takes a slot, a pop takes a result. -/
def FitsAfter (tx rx : Nat) (rest : List Access) : Access → Prop
  | .room m => m ≤ tx → ReadFits tx rx rest
  | .push _ _ => ReadFits (tx - 1) rx rest
  | .ready m => m ≤ rx → ReadFits tx rx rest
  | .pop _ _ => ReadFits tx (rx - 1) rest

theorem ReadFits.after (h : ReadFits tx rx (a :: rest)) : FitsAfter tx rx rest a := by
  obtain ⟨pops, hpops, ⟨rfl, hrx⟩ | ⟨pushes, hpushes, ⟨heq, htx⟩ | ⟨hlen, heq⟩⟩⟩ := h.phases
  · obtain ⟨⟨use, n, rfl⟩, hrest⟩ := pops_cons hpops
    exact .of_pops hrest (Nat.le_sub_one_of_lt hrx)
  · cases pushes with
    | nil =>
      obtain ⟨rfl, rfl⟩ := List.cons.inj heq
      exact .of_pops hpops
    | cons a' pushes =>
      obtain ⟨rfl, rfl⟩ := List.cons.inj heq
      obtain ⟨⟨w, n, rfl⟩, hrest⟩ := pushes_cons hpushes
      exact .of_pushes hrest hpops (Nat.le_sub_one_of_lt htx)
  · obtain ⟨rfl, rfl⟩ := List.cons.inj heq
    exact fun hm => .of_pushes hpushes hpops (hlen ▸ hm)

end Phases

/-! ### The accesses of a byte read -/

theorem readBytesPushes_length (count : Nat) : (readBytesPushes count).length = readCommands count := by
  simp only [readBytesPushes, readSizes, readCommands, List.length_map, List.length_append, List.length_replicate]
  split <;> rfl

theorem readBytesPops_length (count : Nat) : (readBytesPops count).length = readCommands count := by
  simp only [readBytesPops, readStores, readCommands, List.length_map, List.length_append, List.length_range]
  split <;> rfl

theorem leadingPushes_readBytesPushes (count : Nat) :
    leadingPushes (readBytesPushes count) = (readBytesPushes count).length := by
  unfold readBytesPushes
  induction readSizes count with
  | nil => rfl
  | cons k ks ih => exact congrArg (· + 1) ih

theorem leadingPops_readBytesPops (count : Nat) : leadingPops (readBytesPops count) = (readBytesPops count).length := by
  unfold readBytesPops
  induction readStores count with
  | nil => rfl
  | cons p ps ih => exact congrArg (· + 1) ih

theorem readBytesAccesses_nonBlocking (count : Nat) :
    readBytesAccesses false count =
      .room (readCommands count) :: (readBytesPushes count ++ .ready (readCommands count) :: readBytesPops count) := by
  simp [readBytesAccesses]

theorem readFits_readBytesAccesses (tx rx count : Nat) : ReadFits tx rx (readBytesAccesses false count) := by
  rw [readBytesAccesses_nonBlocking, ← readBytesPops_length]
  exact .of_unchecked (leadingPushes_readBytesPushes count) (leadingPops_readBytesPops count)
    (by rw [readBytesPops_length, readBytesPushes_length])

/-! ### The agents -/

section Agents

variable {s t : State} {b : Bool} {a : Access} {rest : List Access} {fin : Finish}

theorem checkedReadFits_of_idle (h : s.hostOp = .idle) : checkedReadFits s := fun _ _ hop => by simp [h] at hop

theorem checkedReadFits_proceed
    (h : ∀ count, b = false → fin = .check count → ReadFits (4 - s.txq.length) s.rxq.length rest) :
    checkedReadFits (proceed b rest fin s) := by
  cases rest with
  | nil => exact checkedReadFits_of_idle (finishOp_hostOp fin s)
  | cons a as =>
    refine (checkedReadFits_iff _).mpr fun todo count hop => ?_
    injection hop with hb htodo hfin
    exact htodo ▸ h count hb hfin

/-- A pop that is answered is none of a byte read. -/
theorem usePopped_fin {use : PopUse} {w : QWord} {count : Nat} (h : (usePopped use w fin s).1 = .check count) :
    fin = .check count := by
  cases use with
  | answer n => cases h
  | store base n => exact h

/-- An access of an operation whose accesses fit leaves accesses that fit. -/
theorem checkedReadFits_hostAccess
    (h : ∀ count, b = false → fin = .check count → ReadFits (4 - s.txq.length) s.rxq.length (a :: rest)) :
    checkedReadFits (hostAccess b a rest fin s) := by
  rcases hostAccess_cases b a rest fin s with ⟨e, n, -, -, heq⟩ | ⟨hb, -, heq⟩ | ⟨w, n, rfl, -, heq⟩ |
    ⟨⟨m, ⟨rfl, hm⟩ | ⟨rfl, hm⟩⟩, heq⟩ | ⟨use, n, w, r, rfl, hrx, heq⟩ <;> rw [heq]
  · exact checkedReadFits_of_idle rfl
  · refine (checkedReadFits_iff _).mpr fun todo count hop => ?_
    injection hop with hb'
    simp [hb] at hb'
  · refine checkedReadFits_proceed fun count hb hfin => (h count hb hfin).after.mono ?_ le_rfl
    simp
    omega
  · exact checkedReadFits_proceed fun count hb hfin => (h count hb hfin).after (hm hb)
  · exact checkedReadFits_proceed fun count hb hfin => (h count hb hfin).after (hm hb)
  · refine checkedReadFits_proceed fun count hb hfin => ?_
    rw [usePopped_txq, usePopped_rxq, List.length_tail]
    exact (h count hb (usePopped_fin hfin)).after

theorem checkedReadFits_linkStarts (h : LinkStarts b s t) : checkedReadFits t := by
  rcases h with ⟨e, -, rfl⟩ | ⟨a, rest, fin, rfl, hfin⟩
  · exact checkedReadFits_of_idle rfl
  · refine checkedReadFits_hostAccess fun count hb hcheck => ?_
    rcases hfin with ⟨d, rfl⟩ | ⟨count', -, heq⟩
    · cases hcheck
    · rw [heq, hb]
      exact readFits_readBytesAccesses _ _ count'

/-- The operations that need the block armed are those that read the flag. -/
theorem needsArmed_eq_isSome_llFlag (i : Instr) : needsArmed i = (llFlag i).isSome := by cases i <;> rfl

theorem checkSize_hostOp {served : State} (legal : Bool) (h : served.hostOp = .idle) :
    (checkSize legal s served).hostOp = .idle := by
  cases legal with
  | true => exact h
  | false => rfl

/-- A request leaves no operation in progress, or starts one that reads the flag. -/
theorem exec_idle_or_linkStarts {code : BitVec 8} {arg : Word64} {i : Instr} (hd : decodeRequest code arg = .ok i)
    (h : exec i s = .next t) : t.hostOp = .idle ∨ ∃ b, LinkStarts b s t := by
  rcases decodeRequest_cases hd with hi | hi | ⟨n, rfl⟩ | ⟨n, rfl⟩
  · rw [needsArmed_eq_isSome_llFlag, Option.isSome_iff_exists] at hi
    obtain ⟨b, hb⟩ := hi
    exact .inr ⟨b, exec_linkStarts hb h⟩
  · cases exec_served hd h with
    | error e ht => exact .inl (ht ▸ rfl)
    | crc st d c ht => exact .inl (ht ▸ rfl)
    | line d n new hl ht => exact .inl (ht ▸ rfl)
    | search m hl hm ht => exact .inl (ht ▸ (searchRun_discover m s).noOp)
    | armed hl ht => exact .inl (ht ▸ rfl)
    | access b todo fin hl hne ht =>
      rw [exec_needsUnarmed_of_armed hi hl] at h
      injection h with h
      exact .inl (h ▸ rfl)
  · injection h with h
    exact .inl (h ▸ checkSize_hostOp _ rfl)
  · injection h with h
    exact .inl (h ▸ checkSize_hostOp _ rfl)

theorem checkedReadFits_hostStep (hs : checkedReadFits s) (h : hostStep s = .next t) : checkedReadFits t := by
  rcases hostStep_cases h with ⟨-, rfl⟩ | ⟨b, a, rest, fin, hop, rfl⟩ | ⟨b, fin, -, rfl⟩ | ⟨code, arg, is, i, -, -, hd, he⟩ |
    ⟨code, arg, is, -, -, rfl⟩ | ⟨i, v, is, -, -, rfl⟩
  · exact hs
  · exact checkedReadFits_hostAccess fun count hb hfin => hs _ count (by rw [hop, hb, hfin])
  · exact checkedReadFits_of_idle (finishOp_hostOp fin s)
  · rcases exec_idle_or_linkStarts hd he with hidle | ⟨b, hstart⟩
    · exact checkedReadFits_of_idle hidle
    · exact checkedReadFits_linkStarts hstart
  · exact checkedReadFits_of_idle rfl
  · exact hs

/-- The engine takes words from `TXQ` and adds results to `RXQ` only. -/
theorem engineStep_levels (h : engineStep s = .next t) :
    t.txq.length ≤ s.txq.length ∧ s.rxq.length ≤ t.rxq.length := by
  refine ⟨?_, ?_⟩
  · rcases engineStep_txq h with htx | ⟨w, htx, -⟩ <;> simp [htx]
  · rcases engineStep_rxq h with hrx | hrx <;> simp [hrx]

theorem checkedReadFits_engineStep (hs : checkedReadFits s) (h : engineStep s = .next t) : checkedReadFits t := by
  obtain ⟨htx, hrx⟩ := engineStep_levels h
  refine (checkedReadFits_iff t).mpr fun todo count hop => ?_
  rw [(engineOnly_engineStep h).hostOp_eq] at hop
  exact ReadFits.mono (hs todo count hop) (by omega) hrx

theorem checkedReadFits_platformStep (hs : checkedReadFits s) (h : platformStep s = .next t) : checkedReadFits t := by
  rcases platformStep_cases h with rfl | ⟨is, -, rfl⟩
  · exact hs
  · exact checkedReadFits_of_idle rfl

theorem checkedReadFits_afterTurn (hs : checkedReadFits s) : checkedReadFits (afterTurn s) := by
  rw [afterTurn_eq]
  exact hs

end Agents

end Sys2Proof.Machine

namespace Sys2Proof.Claims

open Sys2Proof.Machine

/-- Settles O34: what fits still fits after an access made and after a step of the engine, and what fits is there. -/
theorem checkedReadNeverFails : Obligations.CheckedReadNeverFails := by
  refine ⟨fun s t hs h => ?_, fun s rest count hs => ⟨fun w sent hop => ?_, fun use owed hop => ?_⟩⟩
  · exact step_keeps (P := checkedReadFits) (fun _ => checkedReadFits_afterTurn) (fun _ _ => checkedReadFits_hostStep)
      (fun _ _ => checkedReadFits_engineStep) (fun _ _ => checkedReadFits_platformStep) hs h
  · obtain ⟨hpush, -, -⟩ := hs _ _ hop
    have : leadingPushes rest + 1 ≤ 4 - s.txq.length := hpush
    omega
  · obtain ⟨-, hpop, -⟩ := hs _ _ hop
    exact List.ne_nil_of_length_pos (Nat.lt_of_lt_of_le (Nat.succ_pos _) hpop)

end Sys2Proof.Claims
end

section
/-! PROOF. Runs of pushes (44_link_layer section 3): while the host alone moves and `TXQ` has room, the words of an operation go in one
after the other. -/

namespace Sys2Proof.Machine

open Claims

variable {s : State} {b : Bool} {n m : Nat} {rest : List Access} {fin : Finish}

/-! ### Pushes in a row -/

/-- The push of a word, with what a `QueueFull` at it records. -/
def pushOf (p : QWord × Nat) : Access := .push p.1 p.2

/-- With a slot for each of these pushes, and more to come behind them, their words go in, in order, one a step. -/
theorem runSteps_pushes (s : State) (b : Bool) (ps : List (QWord × Nat)) (fin : Finish) (q : List QWord) (k : Nat)
    (hmore : rest ≠ []) (hroom : q.length + ps.length ≤ 4) :
    runSteps hostStep (ps.length + k) { s with txq := q, hostOp := .running b (ps.map pushOf ++ rest) fin } =
      runSteps hostStep k { s with txq := q ++ ps.map Prod.fst, hostOp := .running b rest fin } := by
  induction ps generalizing q with
  | nil => simp
  | cons p ps ih =>
    rw [List.length_cons] at hroom
    have hstep := hostStep_push_of_room (s := { s with txq := q, hostOp := .running b ((p :: ps).map pushOf ++ rest) fin })
      (rest := ps.map pushOf ++ rest) rfl (show q.length < 4 by omega)
    rw [proceed_of_ne_nil (List.append_ne_nil_of_right_ne_nil _ hmore)] at hstep
    rw [List.length_cons, Nat.add_right_comm, runSteps_succ hstep]
    refine (ih (q ++ [p.1]) (by simp; omega)).trans ?_
    rw [List.append_assoc]
    rfl

/-- A longer operation that starts with a free slot is behind its first push. -/
theorem startOp_push_of_room {todo : List Access} {w : QWord} (htodo : todo = .push w 0 :: todo.drop 1) (hmore : todo.drop 1 ≠ [])
    (h : s.txq.length < 4) :
    startOp b todo fin s = { s with txq := s.txq ++ [w], hostOp := .running b (todo.drop 1) fin } := by
  rw [htodo, startOp, hostAccess_push_of_room h, ← htodo, proceed_of_ne_nil hmore]
  rfl

/-! ### The checks of a byte read -/

theorem hostAccess_room_of_few_slots (h : 4 - s.txq.length < m) :
    hostAccess false (.room m) rest fin s = raise .queueFull 0 s := if_pos ⟨rfl, h⟩

theorem hostAccess_room_of_slots (h : m ≤ 4 - s.txq.length) :
    hostAccess b (.room m) rest fin s = proceed b rest fin s := if_neg fun ⟨_, hlt⟩ => Nat.not_lt.mpr h hlt

theorem hostAccess_ready_of_few_results (h : s.rxq.length < m) :
    hostAccess false (.ready m) rest fin s = raise .queueEmpty m s := if_pos ⟨rfl, h⟩

theorem hostAccess_ready_of_results (h : m ≤ s.rxq.length) :
    hostAccess b (.ready m) rest fin s = proceed b rest fin s := if_neg fun ⟨_, hlt⟩ => Nat.not_lt.mpr h hlt

/-! ### The accesses of a byte read -/

/-- The read commands of a byte read, in the order of the table of R234. -/
def readPushes (n : Nat) : List (QWord × Nat) := (readTable n).map fun k => (readWord k, 0)

theorem readPushes_length (n : Nat) : (readPushes n).length = (readTable n).length := List.length_map ..

theorem readPushes_words (n : Nat) : (readPushes n).map Prod.fst = (readTable n).map readWord := by
  simp [readPushes]

theorem readBytesPushes_eq (h1 : 1 ≤ n) (h2 : n ≤ 16) : readBytesPushes n = (readPushes n).map pushOf := by
  rw [readBytesPushes, readPushes, ← (readSizes_eq_readTable h1 h2).1, List.map_map]
  refine List.map_congr_left fun k hk => ?_
  obtain ⟨hk1, hk2⟩ := readSizes_bounds n k hk
  rw [encRdBits_eq_readWord hk1 hk2]
  rfl

theorem readCommands_eq (h1 : 1 ≤ n) (h2 : n ≤ 16) : readCommands n = (readTable n).length := by
  rw [← readBytesPushes_length, readBytesPushes_eq h1 h2, List.length_map, readPushes_length]

theorem readTable_length_pos (h1 : 1 ≤ n) (h2 : n ≤ 16) : 0 < (readTable n).length := by
  obtain ⟨-, k, ks, hk, -⟩ := readSizes_eq_readTable h1 h2
  rw [hk]
  exact Nat.succ_pos _

theorem readBytesPops_ne_nil (h1 : 1 ≤ n) (h2 : n ≤ 16) : readBytesPops n ≠ [] := by
  refine List.ne_nil_of_length_pos ?_
  rw [readBytesPops_length, readCommands_eq h1 h2]
  exact readTable_length_pos h1 h2

theorem readBytesAccesses_false_eq (h1 : 1 ≤ n) (h2 : n ≤ 16) :
    readBytesAccesses false n =
      .room (readTable n).length :: ((readPushes n).map pushOf ++ .ready (readTable n).length :: readBytesPops n) := by
  rw [readBytesAccesses_nonBlocking, readCommands_eq h1 h2, readBytesPushes_eq h1 h2]

theorem readBytesAccesses_true_eq (h1 : 1 ≤ n) (h2 : n ≤ 16) :
    readBytesAccesses true n = (readPushes n).map pushOf ++ readBytesPops n := by
  simp [readBytesAccesses, readBytesPushes_eq h1 h2]

/-- Behind the check for room, the pushes go in and the check of the results is next. -/
theorem runSteps_readOp_nonBlocking (h1 : 1 ≤ n) (h2 : n ≤ 16) (hroom : (readTable n).length ≤ 4 - s.txq.length) :
    runSteps hostStep ((readTable n).length + 1) { s with hostOp := readOp false n 1 } =
      .next (hostAccess false (.ready (readTable n).length) (readBytesPops n) (.check n)
        { s with
          txq := s.txq ++ (readTable n).map readWord
          hostOp := .running false (.ready (readTable n).length :: readBytesPops n) (.check n) }) := by
  have hpos := readTable_length_pos h1 h2
  have hfit : s.txq.length + (readPushes n).length ≤ 4 := by rw [readPushes_length]; omega
  have hrun := runSteps_pushes s false (readPushes n) (.check n) s.txq 1
    (List.cons_ne_nil (.ready (readTable n).length) (readBytesPops n)) hfit
  rw [readPushes_length, readPushes_words] at hrun
  rw [readOp, readBytesAccesses_false_eq h1 h2]
  exact hrun

/-! ### A blocking byte read, access by access -/

theorem readBytesAccesses_true_drop {j k : Nat} (h1 : 1 ≤ n) (h2 : n ≤ 16) (hj : (readTable n)[j]? = some k) :
    (readBytesAccesses true n).drop j = .push (readWord k) 0 :: (readBytesAccesses true n).drop (j + 1) ∧
      (readBytesAccesses true n).drop (j + 1) ≠ [] := by
  obtain ⟨hlt, rfl⟩ := List.getElem?_eq_some_iff.mp hj
  have hlen : j < ((readPushes n).map pushOf).length := by rwa [List.length_map, readPushes_length]
  rw [readBytesAccesses_true_eq h1 h2, List.drop_append_of_le_length hlen.le, List.drop_append_of_le_length hlen,
    List.drop_eq_getElem_cons hlen]
  exact ⟨by simp [readPushes, pushOf], List.append_ne_nil_of_right_ne_nil _ (readBytesPops_ne_nil h1 h2)⟩

/-- The push that a longer operation is at: ready exactly when a slot is free, and then it goes on behind that push. -/
theorem pushAt_spec {todo : List Access} {w : QWord} {j : Nat} (hj : todo.drop j = .push w 0 :: todo.drop (j + 1))
    (hmore : todo.drop (j + 1) ≠ []) (hop : s.hostOp = .running true (todo.drop j) fin) :
    (hostReady s = true ↔ s.txq.length < 4) ∧
      (s.txq.length < 4 →
        hostStep s = .next { s with txq := s.txq ++ [w], hostOp := .running true (todo.drop (j + 1)) fin }) := by
  rw [← List.drop_drop] at hj hmore ⊢
  exact heldPush_spec hj hmore hop

/-- A drain has a pop to make for each read command. -/
theorem readBytesPops_drop {j : Nat} (h1 : 1 ≤ n) (h2 : n ≤ 16) (hj : j < (readTable n).length) :
    ∃ use, (readBytesPops n).drop j = .pop use 0 :: (readBytesPops n).drop (j + 1) := by
  have hlt : j < (readBytesPops n).length := by rwa [readBytesPops_length, readCommands_eq h1 h2]
  rw [List.drop_eq_getElem_cons hlt]
  exact ⟨_, by simp [readBytesPops]; rfl⟩

/-- Behind its first push, the other pushes go in and the drain is next. -/
theorem runSteps_readOp_blocking (s : State) (h1 : 1 ≤ n) (h2 : n ≤ 16) (hroom : (readTable n).length ≤ 4 - s.txq.length) :
    runSteps hostStep ((readTable n).length - 1)
        { s with txq := s.txq ++ ((readTable n).take 1).map readWord, hostOp := readOp true n 1 } =
      .next { s with
        txq := s.txq ++ (readTable n).map readWord
        hostOp := .running true (readBytesPops n) (.check n) } := by
  obtain ⟨-, k, ks, hk, -⟩ := readSizes_eq_readTable h1 h2
  have hfit : (s.txq ++ [readWord k]).length + (ks.map fun k => (readWord k, 0)).length ≤ 4 := by
    rw [hk] at hroom
    simp at hroom ⊢
    omega
  have hrun := runSteps_pushes s true (ks.map fun k => (readWord k, 0)) (.check n) (s.txq ++ [readWord k]) 0
    (readBytesPops_ne_nil h1 h2) hfit
  rw [readOp, readBytesAccesses_true_eq h1 h2, readPushes, hk]
  simpa [runSteps, Function.comp_def] using hrun

/-! ### The accesses of `LL_MATCH_ROM` -/

theorem matchRomAccesses_eq_map (p : Params) (a : Word64) :
    matchRomAccesses p.cmdMatch a = (matchWords p a).zipIdx.map pushOf := by
  rw [matchRomAccesses, matchRomWords_eq]
  rfl

theorem matchRomAccesses_drop {p : Params} {a : Word64} {j : Nat} {w : QWord} (hj : (matchWords p a)[j]? = some w) :
    (matchRomAccesses p.cmdMatch a).drop j = .push w j :: (matchRomAccesses p.cmdMatch a).drop (j + 1) := by
  obtain ⟨hlt, rfl⟩ := List.getElem?_eq_some_iff.mp hj
  have hlen : j < ((matchWords p a).zipIdx.map pushOf).length := by simpa using hlt
  rw [matchRomAccesses_eq_map, List.drop_eq_getElem_cons hlen]
  simp [pushOf]

theorem matchRomAccesses_drop_ne_nil (p : Params) (a : Word64) {j : Nat} (hj : j < 5) :
    (matchRomAccesses p.cmdMatch a).drop j ≠ [] :=
  List.ne_nil_of_length_pos (by rw [List.length_drop]; exact Nat.sub_pos_of_lt hj)

/-- Behind the first push, the next `m` words go in when there is a slot for each. -/
theorem runSteps_matchOp (s : State) (p : Params) (b : Bool) (a : Word64) (m k : Nat) (hroom : s.txq.length + 1 + m ≤ 4) :
    runSteps hostStep (m + k) { s with txq := s.txq ++ (matchWords p a).take 1, hostOp := matchOp p b a 1 } =
      runSteps hostStep k { s with txq := s.txq ++ (matchWords p a).take (1 + m), hostOp := matchOp p b a (1 + m) } := by
  have hsplit : (matchRomAccesses p.cmdMatch a).drop 1 =
      (((matchWords p a).zipIdx.drop 1).take m).map pushOf ++ (matchRomAccesses p.cmdMatch a).drop (1 + m) := by
    rw [matchRomAccesses_eq_map, ← List.map_drop, ← List.map_drop, ← List.map_append, ← List.drop_drop, List.take_append_drop]
  have hwords : (((matchWords p a).zipIdx.drop 1).take m).map Prod.fst = ((matchWords p a).drop 1).take m := by
    rw [List.map_take, List.map_drop, List.zipIdx_map_fst]
  have hlen : (((matchWords p a).zipIdx.drop 1).take m).length = m := by simp [matchWords]; omega
  have hrun := runSteps_pushes s b (((matchWords p a).zipIdx.drop 1).take m) (.reply 5#64) (s.txq ++ (matchWords p a).take 1) k
    (matchRomAccesses_drop_ne_nil p a (show 1 + m < 5 by omega)) (by rw [hlen]; simpa [matchWords] using hroom)
  rw [hlen, hwords, List.append_assoc, ← List.take_add, ← hsplit] at hrun
  exact hrun

/-- A push of the non-blocking form that finds `TXQ` full ends it with the number of words that went in (90_conflicts C6). -/
theorem hostStep_matchOp_of_full {p : Params} {a : Word64} {j : Nat} {w : QWord} (hj : (matchWords p a)[j]? = some w)
    (hop : s.hostOp = matchOp p false a j) (hfull : s.txq.length = 4) :
    hostStep s = .next (answered 1#4 (BitVec.ofNat 64 j) s) := by
  rw [matchOp, matchRomAccesses_drop hj] at hop
  rw [hostStep_running hop, hostAccess_push_of_full_nonBlocking hfull]
  rfl

end Sys2Proof.Machine

namespace Sys2Proof.Claims

open Sys2Proof.Machine

/-- Settles O31: the check for room, the run of the pushes, and the check of the results. -/
theorem nonBlockingReadBytes : Obligations.NonBlockingReadBytes := by
  intro s count hl h1 h2
  have hexec := exec_readBytes (b := false) h1 h2 hl
  rw [readBytesAccesses_false_eq h1 h2, startOp] at hexec
  refine ⟨fun hfew => ?_, fun hroom => ⟨?_, fun hfew => ?_, fun hready => ?_⟩⟩
  · rw [hexec, hostAccess_room_of_few_slots hfew]
    rfl
  · rw [hexec, hostAccess_room_of_slots hroom, proceed_of_ne_nil (by simp), readOp, readBytesAccesses_false_eq h1 h2]
    rfl
  · rw [runSteps_readOp_nonBlocking h1 h2 hroom, hostAccess_ready_of_few_results]
    · rfl
    · exact hfew
  · rw [runSteps_readOp_nonBlocking h1 h2 hroom, hostAccess_ready_of_results, proceed_of_ne_nil (readBytesPops_ne_nil h1 h2)]
    exact hready

/-- Settles O32: the first push, the run of the others, and each access waiting for its slot or its result. -/
theorem blockingReadBytes : Obligations.BlockingReadBytes := by
  intro s count hl h1 h2 hroom
  refine ⟨?_, runSteps_readOp_blocking s h1 h2, fun u j w _ hj hop => ?_, fun u j hj hop => ?_⟩
  · obtain ⟨w, hw, htodo⟩ := readBytesAccesses_blocking h1 h2
    rw [exec_readBytes h1 h2 hl, startOp_push_of_room htodo (readBytesAccesses_drop_one_ne_nil h1 h2) hroom, hw]
    rfl
  · obtain ⟨hpush, hmore⟩ := readBytesAccesses_true_drop h1 h2 hj
    exact pushAt_spec hpush hmore hop
  · obtain ⟨use, hpop⟩ := readBytesPops_drop h1 h2 hj
    rw [hpop] at hop
    exact hostReady_pop_blocking hop

/-- Settles O35: the pushes one by one, and the push that finds `TXQ` full. -/
theorem matchRomEffect : Obligations.MatchRomEffect := by
  intro s b a hl hroom
  refine ⟨?_, fun u j w _ hop hj => ?_, fun hb => ?_⟩
  · obtain ⟨w, hw, htodo⟩ := matchRomAccesses_eq s.cfg a
    rw [exec_matchRom a hl, startOp_push_of_room htodo (matchRomAccesses_drop_one_ne_nil _ a) hroom, hw]
    rfl
  · have hpush := hop
    rw [matchOp, matchRomAccesses_drop hj] at hpush
    refine ⟨fun hfree hlt => ?_, fun hfree hlast => ?_, fun hfull hb => ?_, fun hfull hb => ?_⟩
    · rw [hostStep_push_of_room hpush hfree, proceed_of_ne_nil (matchRomAccesses_drop_ne_nil s.cfg a (by omega))]
      rfl
    · rw [hostStep_push_of_room hpush hfree, hlast]
      rfl
    · exact hostStep_matchOp_of_full hj (hb ▸ hop) hfull
    · rw [hb] at hpush
      exact eq_false_of_ne_true fun hready => hfull.not_lt ((hostReady_push_blocking hpush).mp hready)
  · obtain ⟨m, hm⟩ : ∃ m, 4 - s.txq.length = m + 1 := ⟨4 - s.txq.length - 1, by omega⟩
    have hlast : 1 + m < (matchWords s.cfg a).length := show 1 + m < 5 by omega
    rw [hb, hm, runSteps_matchOp s s.cfg false a m 1 (by omega), Nat.add_comm m 1]
    refine runSteps_succ (hostStep_matchOp_of_full (List.getElem?_eq_getElem hlast) rfl ?_) 0
    simp [matchWords]
    omega

end Sys2Proof.Claims
end

section
/-! PROOF. An operation in the wrong lifecycle state (60_exceptions R270), and the only stop of a step (R272 (b)): every agent's step
answers a next state, so a step can stop only when no agent has one. -/

namespace Sys2Proof.Machine

variable {s u : State}

/-! ### Every agent's step answers a next state -/

/-- No instruction faults or is refused: an error of the block is a response. -/
theorem exec_next (i : Instr) (s : State) : ∃ t, exec i s = .next t := by
  cases i <;> exact ⟨_, rfl⟩

theorem serveRequest_next (code : BitVec 8) (arg : Word64) (s : State) : ∃ t, serveRequest code arg s = .next t := by
  unfold serveRequest
  split
  · exact exec_next _ s
  · exact ⟨_, rfl⟩

theorem hostStep_next (s : State) : ∃ t, hostStep s = .next t := by
  unfold hostStep
  split
  · exact ⟨_, rfl⟩
  · exact ⟨_, rfl⟩
  · split
    · exact serveRequest_next _ _ _
    all_goals exact ⟨_, rfl⟩

theorem platformStep_next (s : State) : ∃ t, platformStep s = .next t := by
  unfold platformStep
  split <;> exact ⟨_, rfl⟩

theorem agentStep_next (a : Agent) (s : State) : ∃ t, agentStep a s = .next t := by
  cases a with
  | host => exact hostStep_next s
  | engine => exact engineStep_next s
  | platform => exact platformStep_next s

/-! ### When no agent is picked -/

theorem pickAgent_none (h : pickAgent s = (none, u)) : u = s ∧ ∀ a, agentReady s a = false := by
  unfold pickAgent at h
  split at h
  case h_1 hr =>
    refine ⟨(Prod.mk.inj h).2.symm, fun a => eq_false_of_ne_true fun ha => ?_⟩
    have hmem := mem_readyAgents_iff.mpr ha
    rw [hr] at hmem
    cases hmem
  case h_2 => cases h
  case h_3 => cases h

/-- A step answers a next state, or stops for an operation in progress when no agent has a step. -/
theorem step_next_or_held (s : State) :
    (∃ t, step s = .next t) ∨
      (step s = .fault .hostHeldForever ∧ s.hostOp ≠ .idle ∧ ∀ a, agentReady s a = false) := by
  unfold step
  split
  · exact .inl (agentStep_next _ _)
  next v hpick =>
    obtain ⟨rfl, hnone⟩ := pickAgent_none hpick
    cases hop : v.hostOp with
    | idle => exact .inl ⟨v, by simp only [noStep, hop]⟩
    | running b todo fin => exact .inr ⟨by simp only [noStep, hop], HostOp.noConfusion, hnone⟩

end Sys2Proof.Machine

namespace Sys2Proof.Claims

open Sys2Proof.Machine

/-- Settles O16: each operation checks the lifecycle before anything else, its size too. -/
theorem wrongLifecycleRefused : Obligations.WrongLifecycleRefused := fun _ _ =>
  ⟨exec_needsUnarmed_of_armed, exec_needsArmed_of_unarmed⟩

/-- Settles O58: a step that is no next state found no agent with a step. -/
theorem stepStopsOnlyWhenHeld : Obligations.StepStopsOnlyWhenHeld := by
  intro s
  rcases step_next_or_held s with ⟨t, ht⟩ | ⟨hstop, hop, hnone⟩
  · exact ⟨fun r h => by simp [ht] at h, fun f h => by simp [ht] at h⟩
  · refine ⟨fun r h => by simp [hstop] at h, fun f h => ?_⟩
    rw [hstop] at h
    injection h with h
    exact ⟨h.symm, hop, hnone .host, hnone .engine, hnone .platform⟩

end Sys2Proof.Claims
end

section
/-! PROOF. Block reset (70_reset_and_hazards R290, R291), the shape at reset, and the deadlock of unpulled reads (R304). -/

namespace Sys2Proof.Machine

variable {s : State}

/-! ### Block reset -/

theorem platformStep_of_blockReset {is : List Input} (hin : s.inputs = .blockReset :: is) :
    platformStep s = .next (blockReset { s with inputs := is }) := by
  simp only [platformStep, hin]

/-- With every other field 0, `STATUS` is the lifecycle bit (10_state R35). -/
theorem status_of_clear (ho : s.lineOe = false) (hf : s.engFault = false) (hb : s.engBusy = false) (hrx : s.rxq = [])
    (htx : s.txq = []) : s.status = if s.lifecycle = .armed then 0x0001#16 else 0x0000#16 := by
  unfold State.status
  rw [ho, hf, hb, State.rxLevel, State.txLevel, hrx, htx]
  cases s.lifecycle <;> rfl

theorem status_blockReset (s : State) : (blockReset s).status = 0x0000#16 := status_of_clear rfl rfl rfl rfl rfl

@[simp] theorem unspecifiedRes_length (epoch depth : Nat) : (unspecifiedRes epoch depth).length = depth := by
  simp [unspecifiedRes]

theorem inv_reset : Inv State.reset where
  depth := show 1 ≤ 4 by decide
  released := rfl
  queues := ⟨Nat.zero_le _, Nat.zero_le _⟩
  search := ⟨show (64#7).toNat ≤ 64 by decide, Nat.zero_le _, rfl, le_rfl, Nat.zero_le _, unspecifiedRes_length _ _⟩
  lifecycle := ⟨⟨fun _ => rfl, fun _ => rfl⟩, fun _ => ⟨rfl, rfl, rfl⟩⟩
  engine := ⟨Nat.zero_le _, nofun, nofun, ⟨nofun, nofun⟩⟩
  live := rfl
  status := Nat.zero_le _

theorem noReservedWord_reset : NoReservedWord State.reset where
  queued := nofun
  pending := nofun
  noFault := rfl
  running := nofun

/-! ### No agent has a step -/

theorem step_of_no_agentReady (h : ∀ a, agentReady s a = false) : step s = noStep s := by
  have hr : readyAgents s = [] := List.filter_eq_nil_iff.mpr fun a _ => by simp [h a]
  simp only [step, pickAgent, hr]

theorem engineReady_push_of_full (hs : s.engState = .push) (hfull : s.rxq.length = 4) : engineReady s = false := by
  simp only [engineReady, hs, (rxFull_iff s).mpr hfull.ge, Bool.not_true]

theorem hostReady_push_of_full {w : QWord} {sent : Nat} {rest : List Access} {fin : Finish}
    (hop : s.hostOp = .running true (.push w sent :: rest) fin) (hfull : s.txq.length = 4) : hostReady s = false :=
  eq_false_of_ne_true fun hready => hfull.not_lt ((hostReady_push_blocking hop).mp hready)

end Sys2Proof.Machine

namespace Sys2Proof.Claims

open Sys2Proof.Machine

/-- Settles O47: the platform's step is `blockReset`, which takes every register but `BUF` and `RES` from the reset state. -/
theorem blockResetState : Obligations.BlockResetState := fun _ _ hin =>
  ⟨_, platformStep_of_blockReset hin, rfl,
    rfl, rfl, rfl, rfl, rfl, rfl, rfl, rfl, rfl, rfl, rfl, rfl,
    rfl, rfl, rfl, rfl, rfl, rfl, rfl, rfl, status_blockReset _, rfl, rfl, unspecifiedRes_length _ _⟩

/-- Settles O49: at reset the queues are empty, no operation is in progress and the engine is off. -/
theorem shapeAtReset : Obligations.ShapeAtReset := ⟨inv_reset, noReservedWord_reset⟩

/-- Settles O57: the host waits for room in `TXQ`, the engine for room in `RXQ`, and the platform has no reset to signal. -/
theorem unpulledReadsDeadlock : Obligations.UnpulledReadsDeadlock := by
  intro s w sent rest fin hop htx hs hrx hp
  have hnone : ∀ a, agentReady s a = false := by
    intro a
    cases a with
    | host => exact hostReady_push_of_full hop htx
    | engine => exact engineReady_push_of_full hs hrx
    | platform => exact hp
  rw [step_of_no_agentReady hnone]
  simp only [noStep, hop]

end Sys2Proof.Claims
end

section
/-! PROOF. Quiescence and the ends of a run, read off `STATUS` and the waiting inputs (70_reset_and_hazards R311). -/

namespace Sys2Proof.Machine

variable {s : State}

/-! ### Fields of `STATUS` under a mask -/

theorem append_eq_zero_iff {m n : Nat} (x : BitVec m) (y : BitVec n) : x ++ y = 0#(m + n) ↔ x = 0#m ∧ y = 0#n := by
  rw [← BitVec.zero_append_zero]
  constructor
  · intro h
    have hx := congrArg (BitVec.extractLsb' n m) h
    have hy := congrArg (BitVec.extractLsb' 0 n) h
    rw [BitVec.extractLsb'_append_eq_left, BitVec.extractLsb'_append_eq_left] at hx
    rw [BitVec.extractLsb'_append_eq_right, BitVec.extractLsb'_append_eq_right] at hy
    exact ⟨hx, hy⟩
  · rintro ⟨rfl, rfl⟩
    rfl

/-- `STATUS` under a mask of `LINE_OE`, `ENG_FAULT`, `ENG_BUSY` and `TX_LEVEL`, and of the bits `r` of `RX_LEVEL`. -/
theorem status_and_eq_zero_iff (s : State) (r : BitVec 3) :
    s.status &&& (0#6 ++ 1#1 ++ 1#1 ++ 1#1 ++ r ++ 7#3 ++ 0#1) = 0#16 ↔
      s.lineOe = false ∧ s.engFault = false ∧ s.engBusy = false ∧ BitVec.ofNat 3 s.rxLevel &&& r = 0#3 ∧
        BitVec.ofNat 3 s.txLevel = 0#3 := by
  have hbit : ∀ b : Bool, BitVec.ofBool b &&& 1#1 = 0#1 ↔ b = false := by decide
  have hall : BitVec.ofNat 3 s.txLevel &&& 7#3 = BitVec.ofNat 3 s.txLevel := BitVec.and_allOnes
  change (0#6 ++ BitVec.ofBool s.lineOe ++ BitVec.ofBool s.engFault ++ BitVec.ofBool s.engBusy ++ BitVec.ofNat 3 s.rxLevel ++
    BitVec.ofNat 3 s.txLevel ++ s.lifecycle.bit) &&& (0#6 ++ 1#1 ++ 1#1 ++ 1#1 ++ r ++ 7#3 ++ 0#1) =
      0#(6 + 1 + 1 + 1 + 3 + 3 + 1) ↔ _
  simp only [BitVec.and_append, append_eq_zero_iff, hbit, hall, BitVec.and_zero, true_and, and_true, and_assoc]

theorem level_eq_zero_iff {q : List QWord} (h : q.length ≤ 4) : BitVec.ofNat 3 q.length = 0#3 ↔ q = [] := by
  rw [← BitVec.toNat_inj, BitVec.toNat_ofNat, Nat.mod_eq_of_lt (by omega)]
  exact List.length_eq_zero_iff

/-- Mask 0x038E: `LINE_OE`, `ENG_FAULT`, `ENG_BUSY`, `TX_LEVEL`. -/
theorem status_and_038E_iff (hq : QueuesBounded s) :
    s.status &&& 0x038E#16 = 0#16 ↔ s.lineOe = false ∧ s.engFault = false ∧ s.engBusy = false ∧ s.txq = [] := by
  have htx : BitVec.ofNat 3 s.txLevel = 0#3 ↔ s.txq = [] := level_eq_zero_iff hq.tx
  have h := status_and_eq_zero_iff s 0#3
  rwa [htx, BitVec.and_zero, eq_self, true_and] at h

/-- Mask 0x03FE: the same and `RX_LEVEL`. -/
theorem status_and_03FE_iff (hq : QueuesBounded s) :
    s.status &&& 0x03FE#16 = 0#16 ↔ s.status &&& 0x038E#16 = 0#16 ∧ s.rxq = [] := by
  have htx : BitVec.ofNat 3 s.txLevel = 0#3 ↔ s.txq = [] := level_eq_zero_iff hq.tx
  have hrx : BitVec.ofNat 3 s.rxLevel = 0#3 ↔ s.rxq = [] := level_eq_zero_iff hq.rx
  have hall : BitVec.ofNat 3 s.rxLevel &&& 7#3 = BitVec.ofNat 3 s.rxLevel := BitVec.and_allOnes
  have h := status_and_eq_zero_iff s 7#3
  rw [htx, hall, hrx] at h
  rw [status_and_038E_iff hq]
  exact h.trans (by tauto)

/-! ### Quiescence -/

/-- An engine at fault has its flag set, so off or about to fetch is what is left once it is neither busy nor at fault. -/
theorem engine_at_rest_iff (hi : EngineShape s) (hf : s.engFault = false) :
    s.engState = .off ∨ s.engState = .fetch ↔ s.engBusy = false := by
  have hfault : s.engState ≠ .fault := fun h => by simp [hi.fault.mpr h] at hf
  cases hs : s.engState with
  | fault => exact absurd hs hfault
  | off | fetch | exec | push => simp [State.engBusy, hs]

theorem quiescent_iff :
    quiescent s = true ↔
      s.hostOp = .idle ∧ s.txq = [] ∧ (s.engState = .off ∨ s.engState = .fetch) ∧ s.engFault = false ∧ s.lineOe = false := by
  simp only [quiescent, Bool.and_eq_true, Bool.or_eq_true, decide_eq_true_eq, Bool.not_eq_true', txEmpty_iff, and_assoc]

theorem quiescent_iff_status (hi : Inv s) :
    quiescent s = true ↔ s.hostOp = .idle ∧ s.status &&& 0x038E#16 = 0#16 := by
  rw [quiescent_iff, status_and_038E_iff hi.queues]
  constructor
  · rintro ⟨hop, htx, hrest, hf, ho⟩
    exact ⟨hop, ho, hf, (engine_at_rest_iff hi.engine hf).mp hrest, htx⟩
  · rintro ⟨hop, ho, hf, hb, htx⟩
    exact ⟨hop, htx, (engine_at_rest_iff hi.engine hf).mpr hb, hf, ho⟩

/-- The engine is off, or has no word to fetch. -/
theorem engineReady_of_quiescent (h : quiescent s = true) : engineReady s = false := by
  obtain ⟨-, htx, hoff | hfetch, -, -⟩ := quiescent_iff.mp h
  · simp only [engineReady, hoff]
  · simp only [engineReady, hfetch, (txEmpty_iff s).mpr htx, Bool.not_true]

/-! ### The ends of a run -/

/-- No request waits in this run: `BUF` writes at most, up to the end of the inputs or the next block reset. -/
theorem noFurtherRequest_iff (is : List Input) :
    noFurtherRequest is = true ↔ ∃ now later, is = now ++ later ∧ (∀ x ∈ now, ∃ i v, x = .bufWrite i v) ∧
      (later = [] ∨ ∃ js, later = .blockReset :: js) := by
  constructor
  · intro h
    induction is with
    | nil => exact ⟨[], [], rfl, nofun, .inl rfl⟩
    | cons x is ih =>
      cases x with
      | request code arg => cases h
      | blockReset => exact ⟨[], _, rfl, nofun, .inr ⟨is, rfl⟩⟩
      | bufWrite i v =>
        obtain ⟨now, later, rfl, hnow, hlater⟩ := ih h
        exact ⟨.bufWrite i v :: now, later, rfl, List.forall_mem_cons.mpr ⟨⟨i, v, rfl⟩, hnow⟩, hlater⟩
  · rintro ⟨now, later, rfl, hnow, hlater⟩
    induction now with
    | nil => rcases hlater with rfl | ⟨js, rfl⟩ <;> rfl
    | cons x now ih =>
      obtain ⟨⟨i, v, rfl⟩, hrest⟩ := List.forall_mem_cons.mp hnow
      exact ih hrest

theorem runEnded_iff : runEnded s = true ↔ noFurtherRequest s.inputs = true ∧ quiescent s = true := by
  rw [runEnded, Bool.and_eq_true]

theorem cleanEnd_iff : cleanEnd s = true ↔ runEnded s = true ∧ s.rxq = [] := by
  rw [cleanEnd, Bool.and_eq_true, rxEmpty_iff]

theorem cleanEnd_iff_status (hi : Inv s) :
    cleanEnd s = true ↔ runEnded s = true ∧ s.status &&& 0x03FE#16 = 0#16 := by
  rw [cleanEnd_iff]
  refine and_congr_right fun hend => ?_
  obtain ⟨-, hst⟩ := (quiescent_iff_status hi).mp (runEnded_iff.mp hend).2
  rw [status_and_03FE_iff hi.queues, hst]
  exact (and_iff_right rfl).symm

theorem status_of_cleanEnd (hi : Inv s) (h : cleanEnd s = true) :
    s.status = if s.lifecycle = .armed then 0x0001#16 else 0x0000#16 := by
  obtain ⟨hend, hrx⟩ := cleanEnd_iff.mp h
  obtain ⟨-, hst⟩ := (quiescent_iff_status hi).mp (runEnded_iff.mp hend).2
  obtain ⟨ho, hf, hb, htx⟩ := (status_and_038E_iff hi.queues).mp hst
  exact status_of_clear ho hf hb hrx htx

end Sys2Proof.Machine

namespace Sys2Proof.Claims

open Sys2Proof.Machine

/-- Settles O59: under the shape, each mask of `STATUS` reads the fields that quiescence and a clean end ask about. -/
theorem quiescenceByStatus : Obligations.QuiescenceByStatus := by
  intro s hi
  refine ⟨quiescent_iff_status hi, ?_, cleanEnd_iff_status hi, status_of_cleanEnd hi, engineReady_of_quiescent⟩
  rw [runEnded_iff, noFurtherRequest_iff, quiescent_iff_status hi]

end Sys2Proof.Claims
end
